-- ==== Sys2Proof/Word.lean ====
section
/-! DEFINITION. The word types of the register interface (00_scope.md R5, R6). -/

namespace Sys2Proof

/-- One byte: a sample, a table entry, a byte of the output stream. -/
abbrev Byte := BitVec 8

/-- A 32-bit register or bus word (R5: the register width is 32). -/
abbrev Word := BitVec 32

/-- A byte offset into the 16 KiB register window (10_state.md R22). -/
abbrev Offset := BitVec 14

/-- The byte lanes an access enables (20_memory.md R61, R62). -/
abbrev Lanes := BitVec 4

end Sys2Proof
end

