-- ==== Sys2Proof/Config.lean ====
section
/-! DEFINITION. What one implementation fixes (00_scope.md R5) and the free values of the model. Every constant
declared `opaque` here has no body: nothing can be proved of its value, so a theorem about the machine holds for
every implementation the spec admits. -/

namespace Sys2Proof.Config

/-- Which power of two OBUF_BYTES is (R5, D24: an OPEN parameter). -/
opaque obufLog : Nat

/-- OBUF_BYTES (R5): a power of two, at least 1024. DEDUCED, log 3: at most 2^31, since OBUF_CAP is a 32-bit register. -/
def obufBytes : Nat := 2 ^ (10 + obufLog % 22)

/-- The two numbers DCT_EPS is made of (R5, D8: an OPEN parameter). -/
opaque dctEpsRawNum : Nat

/-- See `dctEpsRawNum`. -/
opaque dctEpsRawDen : Nat

/-- DCT_EPS = dctEpsNum / (8000 · dctEpsDen), the bound of 40_transform.md R105. DEDUCED, log 4: a rational bound loses nothing. -/
def dctEpsDen : Nat := dctEpsRawDen + 1

/-- See `dctEpsDen`; at most `dctEpsDen`, so DCT_EPS ≤ 1/8000 (R5). -/
def dctEpsNum : Nat := min dctEpsRawNum dctEpsDen

/-- CORE_BASE (R5, D2: OPEN, the platform's). -/
opaque coreBase : Nat

/-- FREE VALUE, log 4: whether the implemented AC coefficient F'[n] of a block (40_transform.md R105), with the level-shifted
samples as given, is on the upper side of a tie that DCT_EPS leaves open. It depends on the samples and n alone (R108). Asked
only where 41_quantizer.md R117 admits two integers. -/
opaque dctRoundsUp (samples : List Int) (n : Nat) : Bool

/-- FREE VALUE, log 6 and log 7: the k-th drawn value of width w, for the datapath state 60_exceptions.md R265 leaves unspecified. -/
opaque freeValue (w k : Nat) : BitVec w

end Sys2Proof.Config
end

