-- ==== Sys2Proof/Syntax.lean ====
section
/-! DEFINITION. The host's accesses: what stands on the bus (`Access`, `BusEvent`) and what the core takes it for
(`Instr`, one constructor per row of spec/opcode_table.json). -/

namespace Sys2Proof

/-- One host access as the bus presents it (20_memory.md R61, R62): a byte offset from CORE_BASE, the byte lanes
enabled, and for a write the data word. -/
inductive Access where
  | read (off : Offset) (lanes : Lanes)
  | write (off : Offset) (lanes : Lanes) (data : Word)
  deriving DecidableEq, Repr

/-- What the outside world does to the core (00_scope.md R9, 70 R290): an access, or the platform's reset between two accesses (R300). -/
inductive BusEvent where
  | access (a : Access)
  | reset
  deriving DecidableEq, Repr

/-- An instruction of the core (46_commands.md): the eight commands, the SAMPLE write, and register reads and writes.
A register access keeps its lanes, because R62 and R231 give the misaligned and the narrow ones their effect too. -/
inductive Instr where
  | nop
  | start
  | qgen
  | hdefault
  | abort
  | softReset
  /-- LEN = w[12:8], VALUE = w[31:16] (30_encoding.md R83). -/
  | rawbits (len : BitVec 5) (value : BitVec 16)
  | rawflush
  | sampleWrite (samples : Word)
  | regRead (off : Offset) (lanes : Lanes)
  | regWrite (off : Offset) (lanes : Lanes) (value : Word)
  deriving DecidableEq, Repr

end Sys2Proof
end

