-- ==== Sys2Proof/WellFormed.lean ====
section
/-! DEFINITION. Which terms of `Instr` stand for an access the host can make. -/

namespace Sys2Proof

/-- The offset of CMD (10_state.md R25). -/
def cmdOffset : Offset := 0x008#14

/-- The offset of SAMPLE (R36). -/
def sampleOffset : Offset := 0x034#14

/-- A word access: four byte lanes at a 4-aligned offset (20_memory.md R61). -/
def isWordAccess (off : Offset) (lanes : Lanes) : Bool :=
  lanes == 0xF#4 && off.extractLsb' 0 2 == 0#2

/-- RAWBITS has LEN ≤ 16 (30_encoding.md R82, R84); a register write is no word write to CMD or SAMPLE, which are a
command and a SAMPLE write (46_commands.md R232). -/
def Instr.wf : Instr → Bool
  | .nop => true
  | .start => true
  | .qgen => true
  | .hdefault => true
  | .abort => true
  | .softReset => true
  | .rawbits len _ => decide (len.toNat ≤ 16)
  | .rawflush => true
  | .sampleWrite _ => true
  | .regRead _ _ => true
  | .regWrite off lanes _ => !(isWordAccess off lanes && (off == cmdOffset || off == sampleOffset))

end Sys2Proof
end

