-- ==== Sys2Proof/Decode.lean ====
section
/-! DEFINITION. From the bus to an instruction: the decoder of CMD words (30_encoding.md R86) and of accesses
(46_commands.md), the encoder back, the numbering of an access as one number, and the platform's address decode. -/

namespace Sys2Proof

/-- Why a word written to CMD is no command (R84, R85). -/
inductive DecodeReason where
  /-- An opcode R82 does not list (R85). -/
  | reservedOpcode
  /-- A bit outside the opcode's fields is 1 (R84). -/
  | reservedBits
  /-- RAWBITS with LEN in 17..31 (R84). -/
  | rawbitsLength
  deriving DecidableEq, Repr

/-- A CMD word the decoder rejects, with the reason and the word itself, which ERR_INFO records (60_exceptions.md R262). -/
structure DecodeError where
  reason : DecodeReason
  word : Word
  deriving DecidableEq, Repr

/-- OPC, bits [7:0] of a command word (R81). -/
def opcOf (w : Word) : Byte := w.extractLsb' 0 8

/-- LEN, bits [12:8] (R81, R83). -/
def lenOf (w : Word) : BitVec 5 := w.extractLsb' 8 5

/-- The reserved bits [15:13] (R81). -/
def reservedOf (w : Word) : BitVec 3 := w.extractLsb' 13 3

/-- VALUE, bits [31:16] (R81, R83). -/
def valueOf (w : Word) : BitVec 16 := w.extractLsb' 16 16

/-- The seven commands without operands by opcode (R82). -/
def plainCommand (opc : Byte) : Option Instr :=
  if opc = 0x00#8 then some .nop
  else if opc = 0x01#8 then some .start
  else if opc = 0x02#8 then some .qgen
  else if opc = 0x03#8 then some .hdefault
  else if opc = 0x04#8 then some .abort
  else if opc = 0x05#8 then some .softReset
  else if opc = 0x11#8 then some .rawflush
  else none

/-- The decode procedure of R86. -/
def decodeCmd (w : Word) : Except DecodeError Instr :=
  match plainCommand (opcOf w) with
  | some i => if w.extractLsb' 8 24 = 0#24 then .ok i else .error ⟨.reservedBits, w⟩
  | none =>
    if opcOf w = 0x10#8 then
      if reservedOf w ≠ 0#3 then .error ⟨.reservedBits, w⟩
      else if 16 < (lenOf w).toNat then .error ⟨.rawbitsLength, w⟩
      else .ok (.rawbits (lenOf w) (valueOf w))
    else .error ⟨.reservedOpcode, w⟩

/-- What an access is (46_commands.md R220, R230, R231, R232): a word written to CMD is a command or nothing, a word
written to SAMPLE is four samples, every other access is a register read or write. -/
def decode : Access → Except DecodeError Instr
  | .read off lanes => .ok (.regRead off lanes)
  | .write off lanes data =>
    if isWordAccess off lanes && off == cmdOffset then decodeCmd data
    else if isWordAccess off lanes && off == sampleOffset then .ok (.sampleWrite data)
    else .ok (.regWrite off lanes data)

/-- A word write to CMD (R89: `CMD <MNEMONIC>` is `WR CMD, <pattern>`). -/
def cmdWrite (w : Word) : Access := .write cmdOffset 0xF#4 w

/-- The access of an instruction, from the patterns of R82 and the offsets of 10_state.md R22. -/
def encode : Instr → Access
  | .nop => cmdWrite 0x00000000#32
  | .start => cmdWrite 0x00000001#32
  | .qgen => cmdWrite 0x00000002#32
  | .hdefault => cmdWrite 0x00000003#32
  | .abort => cmdWrite 0x00000004#32
  | .softReset => cmdWrite 0x00000005#32
  | .rawbits len value => cmdWrite (value ++ 0#3 ++ len ++ 0x10#8)
  | .rawflush => cmdWrite 0x00000011#32
  | .sampleWrite samples => .write sampleOffset 0xF#4 samples
  | .regRead off lanes => .read off lanes
  | .regWrite off lanes value => .write off lanes value

/-- An access as one number. DESIGN CHOICE, log 2: bits [31:0] are the table's 32 bits, the data word; the bits above
continue them with the offset exclusive-or that of CMD [45:32], the lanes exclusive-or 0xF [49:46] and 1 for a read
[50], so that a number below 2^32 is a word written to CMD, which is what the table's eight numbered rows are. -/
def accessOfBits (n : Nat) : Access :=
  let off : Offset := BitVec.ofNat 14 (n / 2 ^ 32) ^^^ cmdOffset
  let lanes : Lanes := BitVec.ofNat 4 (n / 2 ^ 46) ^^^ 0xF#4
  if n / 2 ^ 50 % 2 = 1 then .read off lanes else .write off lanes (BitVec.ofNat 32 n)

/-- The number of an access (log 2): `accessOfBits` undoes it. -/
def bitsOfAccess : Access → Nat
  | .read off lanes => (off ^^^ cmdOffset).toNat * 2 ^ 32 + (lanes ^^^ 0xF#4).toNat * 2 ^ 46 + 2 ^ 50
  | .write off lanes data => data.toNat + (off ^^^ cmdOffset).toNat * 2 ^ 32 + (lanes ^^^ 0xF#4).toNat * 2 ^ 46

/-- The access whose low `nbits` bits are those of `w` and whose bits above are 0. -/
def tableAccess (nbits w : Nat) : Access := accessOfBits (w % 2 ^ nbits)

/-- The instruction the decoder reads from the `nbits` bits `w`, as spec/opcode_table.json numbers them. -/
def decodeTableWord (nbits w : Nat) : Option Instr := (decode (tableAccess nbits w)).toOption

/-- The platform's address decode (20_memory.md R61, R77): the window offset of a bus address, or none where the address
is outside the window and so does not reach the core. -/
def windowOffset (addr : Nat) : Option Offset :=
  if Config.coreBase ≤ addr ∧ addr < Config.coreBase + 0x4000 then some (BitVec.ofNat 14 (addr - Config.coreBase)) else none

end Sys2Proof
end

