-- ==== Sys2Proof/Machine/State.lean ====
section
/-! DEFINITION. The state of the core (10_state.md), as plain data; the reasons a step can stop; the state after reset
(70_reset_and_hazards.md R291). -/

namespace Sys2Proof.Machine

/-- STATUS.STATE (45_framer.md R185). The values 5..7 are never produced (93 U16), so the type leaves them out. -/
inductive FramerState where
  | idle | scan | done | error | raw
  deriving DecidableEq, Repr

/-- The error codes (60_exceptions.md R261); codes 9..255 are never produced. -/
inductive ErrorCode where
  | none | invalidArgument | unsupportedFormat | invalidQtable | invalidHtable
  | undefinedSymbol | illegalCommand | stateViolation | outputOverflow
  deriving DecidableEq, Repr

/-- A component of the image: 0 Y or gray, 1 Cb, 2 Cr (10_state.md R46, R26: 3 is never read). -/
inductive Component where
  | y | cb | cr
  deriving DecidableEq, Repr

/-- The quantization tables (R40). -/
inductive QTab where
  | qt0 | qt1
  deriving DecidableEq, Repr

/-- The Huffman tables (R41): HT0 .. HT3. -/
inductive HTab where
  | dc0 | ac0 | dc1 | ac1
  deriving DecidableEq, Repr

/-- One defined symbol of a code table: its code and the code's length (R51). -/
structure HuffEntry where
  sym : Byte
  code : BitVec 16
  len : Nat
  deriving DecidableEq, Repr

/-- The code tables EHUF (R51), each the list of its defined symbols, last assigned first; a symbol not listed is undef. -/
structure EHuf where
  dc0 : List HuffEntry
  ac0 : List HuffEntry
  dc1 : List HuffEntry
  ac1 : List HuffEntry
  deriving DecidableEq, Repr

/-- A memory of bytes: the cells that differ from what an unlisted address reads as, addresses rising (`Memory.wf`). -/
abbrev Memory := List Host.Cell

/-- The whole state of the core. The last three fields are the model's own (INVENTORY.md). -/
structure State where
  /-- STATUS.STATE (R26). -/
  st : FramerState
  /-- ERR_CODE (R27). -/
  errCode : ErrorCode
  /-- ERR_INFO (R28). -/
  errInfo : Word
  /-- CFG.MODE (R29). -/
  cfgMode : BitVec 2
  /-- CFG.TEST (R29). -/
  cfgTest : Bool
  /-- WIDTH (R30). -/
  width : BitVec 16
  /-- HEIGHT (R31). -/
  height : BitVec 16
  /-- QUALITY (R32). -/
  quality : Byte
  /-- INT_STATUS: bit 0 DONE, bit 1 ERROR (R33). -/
  intStatus : BitVec 2
  /-- INT_ENABLE: bit 0 DONE_EN, bit 1 ERROR_EN (R34). -/
  intEnable : BitVec 2
  /-- FLAGS: bit 0 QCLAMP, bit 1 ACCERR (R35). -/
  flags : BitVec 2
  /-- OUT_INDEX (R43). -/
  outIndex : BitVec 30
  /-- The table RAMs QT0, QT1, HT[0..3] (R40..R42), keyed by window offset. -/
  tables : Memory
  /-- STATUS.SFILL (R26). -/
  sfill : BitVec 4
  /-- BIM, the block-in-MCU index (R46). -/
  bim : BitVec 3
  /-- What STATUS.NEXT_COMP reads in ERROR (60_exceptions.md R265); elsewhere it is comp(BIM) and this is not read. -/
  errComp : Component
  /-- BLK_TOTAL (R37). -/
  blkTotal : Word
  /-- BLK_COUNT (R38). -/
  blkCount : Word
  /-- PRED[0] (R47), two's complement. -/
  predY : BitVec 16
  /-- PRED[1] (R47). -/
  predCb : BitVec 16
  /-- PRED[2] (R47). -/
  predCr : BitVec 16
  /-- LASTBLK[0..63] (R48), two's complement. -/
  lastblk : Vector (BitVec 16) 64
  /-- IBUF[0..63] (R50). -/
  ibuf : Vector Byte 64
  /-- EHUF[0..3] (R51). -/
  ehuf : EHuf
  /-- ACC, the pending bits right-aligned (R52, R45). -/
  acc : Byte
  /-- NBITS (R52, R45). -/
  nbits : BitVec 4
  /-- FLUSHED (R52). -/
  flushed : Bool
  /-- OBUF (R53), keyed by byte index. -/
  obuf : Memory
  /-- OLEN (R53). -/
  olen : Nat
  /-- The word the most recent read returned (60_exceptions.md R281); log 10. -/
  rdata : Word
  /-- What the outside world does next, oldest first; log 1. -/
  pending : List BusEvent
  /-- How many free values were drawn; log 6. -/
  drawn : Nat
  deriving DecidableEq, Repr

/-- The reasons the machine stops. No run from reset reaches one: every access has a defined outcome (00_scope.md R10). -/
inductive Fault where
  /-- Raised by a SAMPLE write that would divide by a quantization entry of 0. 41_quantizer.md R115: START has excluded
  it before SCAN. Safe: the machine stops where the spec gives no quotient (log 13). -/
  | zeroQuantizer
  deriving DecidableEq, Repr

/-- The reasons the model answers with no meaning. -/
inductive Refusal where
  /-- Raised by an arm of exec that has no meaning yet. Safe. -/
  | notModelled (mnemonic : String)
  /-- Raised by RAWBITS, RAWFLUSH and SAMPLE writes that would drive the bit packer after its flush: 93 U14 asks a model
  to refuse it. No run from reset reaches it (44_bitwriter.md R175). Safe (log 12). -/
  | packerFlushed
  /-- Raised by a `regWrite` term that names a word write to CMD or SAMPLE. The decoder never makes that term
  (46_commands.md R232). Safe (log 15). -/
  | notARegisterWrite
  deriving DecidableEq, Repr

/-- The state after reset (70_reset_and_hazards.md R291). IBUF and OBUF are unspecified there: log 8, log 9. The last
three fields are the model's own: log 1, log 6, log 10. -/
def State.reset : State where
  st := .idle
  errCode := .none
  errInfo := 0#32
  cfgMode := 0#2
  cfgTest := false
  width := 0#16
  height := 0#16
  quality := 50#8
  intStatus := 0#2
  intEnable := 0#2
  flags := 0#2
  outIndex := 0#30
  tables := []
  sfill := 0#4
  bim := 0#3
  errComp := .y
  blkTotal := 0#32
  blkCount := 0#32
  predY := 0#16
  predCb := 0#16
  predCr := 0#16
  lastblk := Vector.replicate 64 0#16
  ibuf := Vector.replicate 64 0#8
  ehuf := ⟨[], [], [], []⟩
  acc := 0#8
  nbits := 0#4
  flushed := false
  obuf := []
  olen := 0
  rdata := 0#32
  pending := []
  drawn := 0

end Sys2Proof.Machine
end

