-- ==== Sys2Proof/Machine/Operands.lean ====
section
/-! DEFINITION. Where things lie: bytes in words, fields in the register words, registers and table entries in the window
(10_state.md R22, R40..R42; 20_memory.md R69). -/

namespace Sys2Proof.Machine

/-! ## Bytes and words -/

/-- Byte k of a word, bits [8k+7 : 8k] (20_memory.md R69). -/
def byteOf (w : Word) (k : Nat) : Byte := w.extractLsb' (8 * k) 8

/-- The word {b3, b2, b1, b0} (R69, R44). -/
def wordOfBytes (b0 b1 b2 b3 : Byte) : Word := b3 ++ b2 ++ b1 ++ b0

/-- sext_32 of a 16-bit value (00_scope.md R6). -/
def sext32 (v : BitVec 16) : Word := v.signExtend 32

/-- zext_32 (00_scope.md R6). -/
def zext32 {n : Nat} (v : BitVec n) : Word := v.setWidth 32

/-- The 16-bit value x as two bytes, high byte first (20_memory.md R70, 45_framer.md R211 be16). -/
def be16 (x : BitVec 16) : List Byte := [x.extractLsb' 8 8, x.extractLsb' 0 8]

/-- A block of 64 entries given by index. -/
def blockOf {α : Type} (f : Nat → α) : Vector α 64 := ⟨⟨(List.range 64).map f⟩, by simp⟩

/-! ## Codes and indices of the named values -/

/-- The value STATUS.STATE reads (45_framer.md R185). -/
def FramerState.code : FramerState → BitVec 3
  | .idle => 0#3
  | .scan => 1#3
  | .done => 2#3
  | .error => 3#3
  | .raw => 4#3

/-- The value ERR_CODE reads (60_exceptions.md R261). -/
def ErrorCode.code : ErrorCode → Byte
  | .none => 0#8
  | .invalidArgument => 1#8
  | .unsupportedFormat => 2#8
  | .invalidQtable => 3#8
  | .invalidHtable => 4#8
  | .undefinedSymbol => 5#8
  | .illegalCommand => 6#8
  | .stateViolation => 7#8
  | .outputOverflow => 8#8

/-- The value STATUS.NEXT_COMP reads (R26). -/
def Component.code : Component → BitVec 2
  | .y => 0#2
  | .cb => 1#2
  | .cr => 2#2

/-- t of QTt (R40). -/
def QTab.index : QTab → Nat
  | .qt0 => 0
  | .qt1 => 1

/-- h of HTh (R41). -/
def HTab.index : HTab → Nat
  | .dc0 => 0
  | .ac0 => 1
  | .dc1 => 2
  | .ac1 => 3

/-- The Huffman table of an index 0..3. -/
def HTab.ofIndex (n : Nat) : HTab :=
  if n = 0 then .dc0 else if n = 1 then .ac0 else if n = 2 then .dc1 else .ac1

/-- The component a two-bit value names. DEDUCED, log 7: NEXT_COMP never reads 3 (R26), so a drawn 3 counts as Cr. -/
def Component.ofBits (b : BitVec 2) : Component :=
  if b = 0#2 then .y else if b = 1#2 then .cb else .cr

/-! ## The table RAMs in the window -/

/-- The window offset of QT[t][i] (R40). -/
def qtAddr (t : QTab) (i : Nat) : Nat := 0x200 + 0x100 * t.index + 4 * i

/-- HB(h) (R41). -/
def htBase (h : HTab) : Nat := 0x1000 + 0x800 * h.index

/-- The window offset of HT[h].BITS[L], L in 1..16 (R41). -/
def bitsAddr (h : HTab) (len : Nat) : Nat := htBase h + 4 * (len - 1)

/-- The window offset of HT[h].HUFFVAL[k] (R42). -/
def valAddr (h : HTab) (k : Nat) : Nat := htBase h + 0x400 + 4 * k

/-- What the table RAM at a window offset holds after reset (R40..R42, 70 R291). -/
def resetTable (a : Nat) : Byte :=
  if a < 0x200 then 0#8
  else if a < 0x300 then BitVec.ofNat 8 (lumaBase.getD ((a - 0x200) / 4) 0)
  else if a < 0x400 then BitVec.ofNat 8 (chromaBase.getD ((a - 0x300) / 4) 0)
  else if a < 0x1000 then 0#8
  else if a < 0x3000 then
    let h := HTab.ofIndex ((a - 0x1000) / 0x800)
    let r := (a - 0x1000) % 0x800
    if r < 0x40 then BitVec.ofNat 8 ((defaultBits h).getD (r / 4) 0)
    else if r < 0x400 then 0#8
    else BitVec.ofNat 8 ((defaultVals h).getD ((r - 0x400) / 4) 0)
  else 0#8

/-! ## The register map (R22) -/

/-- The registers and table entries of the window; `reserved` is every other word. -/
inductive Reg where
  | id | version | cmd | status | errCode | errInfo | cfg | width | height | quality
  | intStatus | intEnable | flags | sample | blkTotal | blkCount | outLen | outIndex | outData
  | bitstate | predY | predCb | predCr | obufCap
  | lastblk (k : Nat)
  | qt (t : QTab) (i : Nat)
  | htBits (h : HTab) (len : Nat)
  | htVal (h : HTab) (k : Nat)
  | reserved
  deriving DecidableEq, Repr

/-- The registers below 0x060, by word index (R22). -/
def namedReg : Nat → Reg
  | 0 => .id
  | 1 => .version
  | 2 => .cmd
  | 3 => .status
  | 4 => .errCode
  | 5 => .errInfo
  | 6 => .cfg
  | 7 => .width
  | 8 => .height
  | 9 => .quality
  | 10 => .intStatus
  | 11 => .intEnable
  | 12 => .flags
  | 13 => .sample
  | 14 => .blkTotal
  | 15 => .blkCount
  | 16 => .outLen
  | 17 => .outIndex
  | 18 => .outData
  | 19 => .bitstate
  | 20 => .predY
  | 21 => .predCb
  | 22 => .predCr
  | 23 => .obufCap
  | _ => .reserved

/-- What lies at an offset of an HT window (R41, R42). -/
def htReg (h : HTab) (r : Nat) : Reg :=
  if r < 0x40 then .htBits h (r / 4 + 1)
  else if r < 0x400 then .reserved
  else .htVal h ((r - 0x400) / 4)

/-- What lies at a 4-aligned window offset (R22). -/
def regAt (off : Offset) : Reg :=
  let a := off.toNat
  if a < 0x060 then namedReg (a / 4)
  else if a < 0x100 then .reserved
  else if a < 0x200 then .lastblk ((a - 0x100) / 4)
  else if a < 0x300 then .qt .qt0 ((a - 0x200) / 4)
  else if a < 0x400 then .qt .qt1 ((a - 0x300) / 4)
  else if a < 0x1000 then .reserved
  else if a < 0x3000 then htReg (HTab.ofIndex ((a - 0x1000) / 0x800)) ((a - 0x1000) % 0x800)
  else .reserved

/-- The access kinds of R22. -/
inductive AccessKind where
  | ro | wo | rw | w1c | cl | reserved
  deriving DecidableEq, Repr

/-- The access kind of each register (R22). -/
def Reg.kind : Reg → AccessKind
  | .id | .version | .status | .errCode | .errInfo => .ro
  | .blkTotal | .blkCount | .outLen | .outData | .bitstate => .ro
  | .predY | .predCb | .predCr | .obufCap | .lastblk _ => .ro
  | .cmd | .sample => .wo
  | .cfg | .width | .height | .quality => .cl
  | .qt _ _ | .htBits _ _ | .htVal _ _ => .cl
  | .intStatus | .flags => .w1c
  | .intEnable | .outIndex => .rw
  | .reserved => .reserved

end Sys2Proof.Machine
end

