-- ==== Sys2Proof/Machine/Flags.lean ====
section
/-! DEFINITION. Every status and flag computation: FLAGS (10_state.md R35), INT_STATUS (R33), the interrupt output
(60_exceptions.md R272) and STATUS (R26). The core has no arithmetic flags (R54). -/

namespace Sys2Proof.Machine

/-- FLAGS.QCLAMP (R35). -/
def qclampBit : BitVec 2 := 1#2

/-- FLAGS.ACCERR (R35). -/
def accerrBit : BitVec 2 := 2#2

/-- INT_STATUS.DONE and INT_ENABLE.DONE_EN (R33, R34). -/
def doneBit : BitVec 2 := 1#2

/-- INT_STATUS.ERROR and INT_ENABLE.ERROR_EN (R33, R34). -/
def errorBit : BitVec 2 := 2#2

/-- `FLAGS.ACCERR <- 1`: all that an ignored access does (20_memory.md R64). -/
def State.ignoreAccess (s : State) : State := { s with flags := s.flags ||| accerrBit }

/-- `FLAGS.QCLAMP <- 1` (41_quantizer.md R126). -/
def State.setQclamp (s : State) : State := { s with flags := s.flags ||| qclampBit }

/-- The entry to DONE: `STATE <- DONE; INT_STATUS.DONE <- 1` (45_framer.md R191, 46_commands.md R228). -/
def State.enterDone (s : State) : State := { s with st := .done, intStatus := s.intStatus ||| doneBit }

/-- A write-one-to-clear register after the write of v: reg & ~(v & defined_mask) (46_commands.md R232). -/
def w1c (reg : BitVec 2) (v : Word) : BitVec 2 := reg &&& ~~~(v.extractLsb' 0 2)

/-- IRQ = (INT_STATUS[0] & INT_ENABLE[0]) | (INT_STATUS[1] & INT_ENABLE[1]) (60_exceptions.md R272). -/
def State.irq (s : State) : Bool := (s.intStatus &&& s.intEnable) != 0#2

/-- comp(BIM) (10_state.md R46): component 0 in grayscale. DESIGN CHOICE, log 14: BIM 6 and 7 in color, which no run
outside ERROR holds, count as Cr. -/
def compOf (mode : BitVec 2) (bim : BitVec 3) : Component :=
  if mode ≠ 1#2 then .y
  else if bim.toNat < 4 then .y
  else if bim = 4#3 then .cb
  else .cr

/-- The component of the next block (R46, R190). -/
def State.comp (s : State) : Component := compOf s.cfgMode s.bim

/-- What STATUS.NEXT_COMP reads: comp(BIM) (R46), and in ERROR the value drawn at error entry (60_exceptions.md R265). -/
def State.nextComp (s : State) : Component := if s.st = .error then s.errComp else s.comp

/-- The STATUS word (R26): 18 zeros, NEXT_COMP, BIM, IRQ, SFILL, a zero, STATE. -/
def State.status (s : State) : Word :=
  0#18 ++ s.nextComp.code ++ s.bim ++ BitVec.ofBool s.irq ++ s.sfill ++ 0#1 ++ s.st.code

/-- The BITSTATE word (R45): 19 zeros, FLUSHED, NBITS, the pending bits. -/
def State.bitstate (s : State) : Word := 0#19 ++ BitVec.ofBool s.flushed ++ s.nbits ++ s.acc

end Sys2Proof.Machine
end

