-- ==== Sys2Proof/Machine/Ops.lean ====
section
/-! DEFINITION. The named operations every meaning is written over: memory, errors and their entry (60_exceptions.md R265)
and the return from it (46_commands.md R225), reset, the legality of commands (R220, R229), the register file of the
window, and fetching the next bus event. -/

namespace Sys2Proof.Machine

/-! ## Memory -/

/-- The two byte memories: the table RAMs, keyed by window offset, and OBUF, keyed by byte index (20_memory.md R60). -/
inductive Space where
  | tables | output
  deriving DecidableEq, Repr

/-- What an address that is not listed reads as: the reset contents of the table RAMs (70 R291); 0 in OBUF, whose bytes
the spec leaves unspecified and never returns (DESIGN CHOICE, log 9). -/
def blank : Space → Nat → Byte
  | .tables, a => resetTable a
  | .output, _ => 0#8

/-- The byte at an address. -/
def Memory.read (sp : Space) : Memory → Nat → Byte
  | [], a => blank sp a
  | (a', b) :: m, a => if a' = a then b else Memory.read sp m a

/-- The cells without the one at an address. -/
def Memory.erase : Memory → Nat → Memory
  | [], _ => []
  | (a', b) :: m, a => if a' = a then m else (a', b) :: Memory.erase m a

/-- The cells with the one at an address replaced or put in its place. -/
def Memory.put : Memory → Nat → Byte → Memory
  | [], a, b => [(a, b)]
  | (a', b') :: m, a, b =>
    if a < a' then (a, b) :: (a', b') :: m
    else if a = a' then (a, b) :: m
    else (a', b') :: Memory.put m a b

/-- Store a byte, keeping the canonical form: the value an unlisted address reads as is not listed. -/
def Memory.write (sp : Space) (m : Memory) (a : Nat) (b : Byte) : Memory :=
  if b = blank sp a then Memory.erase m a else Memory.put m a b

/-- Store a list of bytes, each at its address, first to last. -/
def Memory.writeAll (sp : Space) (m : Memory) (ws : List (Nat × Byte)) : Memory :=
  ws.foldl (fun m w => Memory.write sp m w.1 w.2) m

/-- The canonical form: addresses strictly rising, and no cell equal to what its address reads as unlisted. -/
def Memory.wf (sp : Space) : Memory → Bool
  | [] => true
  | (a, b) :: m => b != blank sp a && m.all (fun c => decide (a < c.1)) && Memory.wf sp m

/-- The byte of the table RAMs at a window offset. -/
def State.table (s : State) (a : Nat) : Byte := Memory.read .tables s.tables a

/-- Byte j of OBUF. -/
def State.outByte (s : State) (j : Nat) : Byte := Memory.read .output s.obuf j

/-- Store bytes into the table RAMs. -/
def State.storeTables (s : State) (ws : List (Nat × Byte)) : State :=
  { s with tables := Memory.writeAll .tables s.tables ws }

/-- QT[t][i] (10_state.md R40). -/
def State.qt (s : State) (t : QTab) (i : Nat) : Byte := s.table (qtAddr t i)

/-- HT[h].BITS[L] (R41). -/
def State.htBits (s : State) (h : HTab) (len : Nat) : Byte := s.table (bitsAddr h len)

/-- HT[h].HUFFVAL[k] (R42). -/
def State.htVal (s : State) (h : HTab) (k : Nat) : Byte := s.table (valAddr h k)

/-- The code list of a table (R51). -/
def EHuf.get (e : EHuf) : HTab → List HuffEntry
  | .dc0 => e.dc0
  | .ac0 => e.ac0
  | .dc1 => e.dc1
  | .ac1 => e.ac1

/-- Replace the code list of a table. -/
def EHuf.set (e : EHuf) (h : HTab) (l : List HuffEntry) : EHuf :=
  match h with
  | .dc0 => { e with dc0 := l }
  | .ac0 => { e with ac0 := l }
  | .dc1 => { e with dc1 := l }
  | .ac1 => { e with ac1 := l }

/-- PRED[c] (R47). -/
def State.pred (s : State) : Component → BitVec 16
  | .y => s.predY
  | .cb => s.predCb
  | .cr => s.predCr

/-- `PRED[c] <- v`. -/
def State.setPred (s : State) (c : Component) (v : BitVec 16) : State :=
  match c with
  | .y => { s with predY := v }
  | .cb => { s with predCb := v }
  | .cr => { s with predCr := v }

/-! ## Errors -/

/-- How an operation ends early: `raise E(info)` (60_exceptions.md R260), or one of the two stops of log 12 and log 13. -/
inductive Stop where
  | raised (e : ErrorCode) (info : Word)
  | fault (f : Fault)
  | refused (r : Refusal)
  deriving DecidableEq, Repr

/-- The free code table at draw number k (R265: EHUF is unspecified after an error): any subset of the symbols, any codes. -/
def freeCodes (k : Nat) : List HuffEntry :=
  (List.range 256).filterMap fun i =>
    if Config.freeValue 1 (k + i) = 1#1 then
      some ⟨BitVec.ofNat 8 i, Config.freeValue 16 (k + i), (Config.freeValue 5 (k + i)).toNat⟩
    else none

/-- Error entry (60_exceptions.md R265), the machine's way of taking an exception: code, info, OLEN 0, STATE ERROR,
INT_STATUS.ERROR 1; each field of the datapath state takes a free value of its own, no two of one width at one number, and
keeps it (log 6, log 7). -/
def errorEntry (e : ErrorCode) (info : Word) (s : State) : State :=
  { s with
    errCode := e
    errInfo := info
    olen := 0
    st := .error
    intStatus := s.intStatus ||| errorBit
    sfill := Config.freeValue 4 s.drawn
    bim := Config.freeValue 3 s.drawn
    errComp := Component.ofBits (Config.freeValue 2 s.drawn)
    blkCount := Config.freeValue 32 s.drawn
    blkTotal := Config.freeValue 32 (s.drawn + 1)
    predY := Config.freeValue 16 s.drawn
    predCb := Config.freeValue 16 (s.drawn + 1)
    predCr := Config.freeValue 16 (s.drawn + 2)
    lastblk := blockOf fun k => Config.freeValue 16 (s.drawn + 128 + k)
    ibuf := blockOf fun k => Config.freeValue 8 (s.drawn + 128 + k)
    ehuf := ⟨freeCodes (s.drawn + 1024), freeCodes (s.drawn + 1280), freeCodes (s.drawn + 1536), freeCodes (s.drawn + 1792)⟩
    acc := Config.freeValue 8 s.drawn
    nbits := Config.freeValue 4 (s.drawn + 1)
    flushed := Config.freeValue 1 s.drawn == 1#1
    drawn := s.drawn + 2048 }

/-- Run an operation from s: its result, or the error entry. DEDUCED, log 11: whatever the operation changed before it
raised is discarded or unspecified (R265), so the entry is made from s. -/
def finish (s : State) : Except Stop State → Host.Outcome State Fault Refusal
  | .ok t => .next t
  | .error (.raised e info) => .next (errorEntry e info s)
  | .error (.fault f) => .fault f
  | .error (.refused r) => .refused r

/-- The ERR_INFO of STATE_VIOLATION: STATE in [10:8], OPC in [7:0] (60_exceptions.md R262). -/
def violationInfo (st : FramerState) (opc : Byte) : Word := 0#21 ++ st.code ++ opc

/-- A legal command word in the present state (46_commands.md R220, R229): in ERROR a command that is not legal there is
ignored; elsewhere it raises STATE_VIOLATION; a legal one executes. -/
def command (legal : FramerState → Bool) (opc : Byte) (body : State → Except Stop State) (s : State) :
    Host.Outcome State Fault Refusal :=
  if legal s.st then finish s (body s)
  else if s.st = .error then .next s.ignoreAccess
  else .next (errorEntry .stateViolation (violationInfo s.st opc) s)

/-- A word written to CMD that decodes to nothing (46_commands.md R220, 30_encoding.md R84): ILLEGAL_COMMAND with the
word, and in ERROR an ignored access (60_exceptions.md R266). -/
def illegalCommand (w : Word) (s : State) : State :=
  if s.st = .error then s.ignoreAccess else errorEntry .illegalCommand w s

/-- Legal in every state (R229). -/
def legalAlways : FramerState → Bool := fun _ => true

/-- Legal in IDLE only (R229). -/
def legalIdle (st : FramerState) : Bool := st == .idle

/-- Legal in RAW only (R229). -/
def legalRaw (st : FramerState) : Bool := st == .raw

/-! ## Clearing and reset -/

/-- The part START, START in test mode and ABORT share (45_framer.md R187, R194, 46_commands.md R225): predictors, block
count, BIM, SFILL, bit accumulator, output length and LASTBLK to 0. -/
def State.clearDatapath (s : State) : State :=
  { s with
    predY := 0#16, predCb := 0#16, predCr := 0#16
    blkCount := 0#32, bim := 0#3, sfill := 0#4
    acc := 0#8, nbits := 0#4, flushed := false
    olen := 0
    lastblk := Vector.replicate 64 0#16 }

/-- ABORT (46_commands.md R225), the return from ERROR (60_exceptions.md R267). -/
def State.abortEncode (s : State) : State :=
  { s.clearDatapath with st := .idle, errCode := .none, errInfo := 0#32, blkTotal := 0#32 }

/-- The reset of 70_reset_and_hazards.md R290, R291, by the platform or by SOFT_RESET. What is no state of the core stays:
the bus read data, the host's coming accesses and the count of drawn values (log 6, log 10, log 16). -/
def State.resetCore (s : State) : State :=
  { State.reset with rdata := s.rdata, pending := s.pending, drawn := s.drawn }

/-! ## Fetching -/

/-- The next bus event and the state without it. -/
def nextEvent (s : State) : Option (BusEvent × State) :=
  match s.pending with
  | [] => none
  | e :: rest => some (e, { s with pending := rest })

/-- Line an event up as the next one. -/
def State.pushEvent (s : State) (e : BusEvent) : State := { s with pending := e :: s.pending }

/-- A host that reads a bus address: the access is lined up behind the others where the address is in the window, and
does not reach the core elsewhere (20_memory.md R61, log 5). -/
def State.issueRead (s : State) (addr : Nat) (lanes : Lanes) : State :=
  match windowOffset addr with
  | some off => { s with pending := s.pending ++ [.access (.read off lanes)] }
  | none => s

/-- A host that writes a bus address; see `State.issueRead`. -/
def State.issueWrite (s : State) (addr : Nat) (lanes : Lanes) (v : Word) : State :=
  match windowOffset addr with
  | some off => { s with pending := s.pending ++ [.access (.write off lanes v)] }
  | none => s

/-! ## The registers of the window -/

/-- Byte j of the stream as OUT_DATA shows it: 0 at and beyond OLEN (10_state.md R44). -/
def State.streamByte (s : State) (j : Nat) : Byte := if j < s.olen then s.outByte j else 0#8

/-- The OUT_DATA word (R44, 30_encoding.md R88): only in DONE. -/
def State.outData (s : State) : Word :=
  if s.st = .done then
    let j := 4 * s.outIndex.toNat
    wordOfBytes (s.streamByte j) (s.streamByte (j + 1)) (s.streamByte (j + 2)) (s.streamByte (j + 3))
  else 0#32

/-- The OUT_LEN word (R39): OLEN, only in DONE. -/
def State.outLen (s : State) : Word := if s.st = .done then BitVec.ofNat 32 s.olen else 0#32

/-- The CFG word (R29): TEST in bit 8, MODE in [1:0], the rest 0. -/
def State.cfg (s : State) : Word := 0#23 ++ BitVec.ofBool s.cfgTest ++ 0#6 ++ s.cfgMode

/-- The value a word read returns (46_commands.md R231, 10_state.md R23..R49); reserved fields read 0, and so do CMD and SAMPLE. -/
def regValue (s : State) : Reg → Word
  | .id => 0x4A504547#32
  | .version => 0x00010000#32
  | .cmd => 0#32
  | .status => s.status
  | .errCode => zext32 s.errCode.code
  | .errInfo => s.errInfo
  | .cfg => s.cfg
  | .width => zext32 s.width
  | .height => zext32 s.height
  | .quality => zext32 s.quality
  | .intStatus => zext32 s.intStatus
  | .intEnable => zext32 s.intEnable
  | .flags => zext32 s.flags
  | .sample => 0#32
  | .blkTotal => s.blkTotal
  | .blkCount => s.blkCount
  | .outLen => s.outLen
  | .outIndex => zext32 s.outIndex
  | .outData => s.outData
  | .bitstate => s.bitstate
  | .predY => sext32 s.predY
  | .predCb => sext32 s.predCb
  | .predCr => sext32 s.predCr
  | .obufCap => BitVec.ofNat 32 Config.obufBytes
  | .lastblk k => sext32 (s.lastblk.toList.getD k 0#16)
  | .qt t i => zext32 (s.qt t i)
  | .htBits h len => zext32 (s.htBits h len)
  | .htVal h k => zext32 (s.htVal h k)
  | .reserved => 0#32

/-- Store the defined bits of v into a register (46_commands.md R232); registers the host cannot store to are left alone. -/
def storeReg (s : State) (r : Reg) (v : Word) : State :=
  match r with
  | .cfg => { s with cfgMode := v.extractLsb' 0 2, cfgTest := v.getLsbD 8 }
  | .width => { s with width := v.extractLsb' 0 16 }
  | .height => { s with height := v.extractLsb' 0 16 }
  | .quality => { s with quality := v.extractLsb' 0 8 }
  | .intStatus => { s with intStatus := w1c s.intStatus v }
  | .intEnable => { s with intEnable := v.extractLsb' 0 2 }
  | .flags => { s with flags := w1c s.flags v }
  | .outIndex => { s with outIndex := v.extractLsb' 0 30 }
  | .qt t i => s.storeTables [(qtAddr t i, v.extractLsb' 0 8)]
  | .htBits h len => s.storeTables [(bitsAddr h len, v.extractLsb' 0 8)]
  | .htVal h k => s.storeTables [(valAddr h k, v.extractLsb' 0 8)]
  | _ => s

/-- A config-locked register is locked in SCAN and RAW (20_memory.md R66). -/
def State.locked (s : State) : Bool := s.st == .scan || s.st == .raw

end Sys2Proof.Machine
end

