-- ==== Sys2Proof/Machine/Packer.lean ====
section
/-! DEFINITION. Stage 5 of the block pipeline: the bit packer, byte stuffing and the output buffer (44_bitwriter.md). -/

namespace Sys2Proof.Machine

/-- OLEN = OBUF_BYTES (44_bitwriter.md R170). OBUF_BYTES is at least 1024 (00_scope.md R5), so a shorter output needs no
look at it (`obufFull_iff`). -/
def State.obufFull (s : State) : Bool := decide (1024 ≤ s.olen) && decide (s.olen = Config.obufBytes)

/-- emit_byte (R170): append a byte to the output buffer, or OUTPUT_OVERFLOW with BLK_COUNT. -/
def emitByte (b : Byte) (s : State) : Except Stop State :=
  if s.obufFull then .error (.raised .outputOverflow s.blkCount)
  else .ok { s with obuf := Memory.write .output s.obuf s.olen b, olen := s.olen + 1 }

/-- emit_byte of each byte of a list, in order. -/
def emitBytes : List Byte → State → Except Stop State
  | [], s => .ok s
  | b :: bs, s => emitByte b s >>= emitBytes bs

/-- emit_entropy_byte (R171): a byte of entropy-coded data, 0xFF followed by a stuffed 0x00. -/
def emitEntropyByte (b : Byte) (s : State) : Except Stop State :=
  if b = 0xFF#8 then emitByte b s >>= emitByte 0x00#8 else emitByte b s

/-- One turn of write_bits (R172): append a bit to the accumulator, and output the byte that is then full. -/
def appendBit (bit : Bool) (s : State) : Except Stop State :=
  let acc := s.acc <<< 1 ||| (BitVec.ofBool bit).setWidth 8
  let nbits := s.nbits + 1#4
  if nbits = 8#4 then emitEntropyByte acc { s with acc := 0#8, nbits := 0#4 }
  else .ok { s with acc := acc, nbits := nbits }

/-- The low n bits of v, most significant first (R172). -/
def appendBits (v : BitVec 16) : Nat → State → Except Stop State
  | 0, s => .ok s
  | n + 1, s => appendBit (v.getLsbD n) s >>= appendBits v n

/-- write_bits (R172), which asks FLUSHED = 0 (R175, 93 U14, log 12). -/
def writeBits (v : BitVec 16) (n : Nat) (s : State) : Except Stop State :=
  if s.flushed then .error (.refused .packerFlushed) else appendBits v n s

/-- The last byte of a flush (R174): the pending bits, then 1-bits. -/
def paddedByte (acc : Byte) (nbits : Nat) : Byte := acc <<< (8 - nbits) ||| BitVec.ofNat 8 (2 ^ (8 - nbits) - 1)

/-- flush (R174): output the partial byte, if there is one, padded with 1-bits; then FLUSHED is 1. -/
def flush (s : State) : Except Stop State :=
  if s.flushed then .error (.refused .packerFlushed)
  else if s.nbits = 0#4 then .ok { s with flushed := true }
  else do
    let t ← emitEntropyByte (paddedByte s.acc s.nbits.toNat) { s with acc := 0#8, nbits := 0#4 }
    .ok { t with flushed := true }

end Sys2Proof.Machine
end

