-- ==== Sys2Proof/Machine/Entropy.lean ====
section
/-! DEFINITION. Stages 3 and 4 of the block pipeline: run lengths (42_zigzag_rle.md), canonical code tables, DC and AC
coding (43_huffman.md). -/

namespace Sys2Proof.Machine

/-! ## Run-length encoder -/

/-- The symbols of the run-length encoder (42_zigzag_rle.md R139). -/
inductive RleSym where
  | rv (run : Nat) (value : Int)
  | zrl
  | eob
  deriving DecidableEq, Repr

/-- The position, from 1, of the last nonzero value, or 0 where there is none (R138 `last`). -/
def lastNonzero : List Int → Nat
  | [] => 0
  | v :: rest => if lastNonzero rest = 0 then (if v = 0 then 0 else 1) else lastNonzero rest + 1

/-- The scan of R138 over the values up to `last`, with `run` zeros counted. -/
def rleScan : Nat → List Int → List RleSym
  | _, [] => []
  | run, v :: rest =>
    if v = 0 then
      if run + 1 = 16 then .zrl :: rleScan 0 rest else rleScan (run + 1) rest
    else .rv run v :: rleScan 0 rest

/-- rle (R138, R140, R141) of the 63 AC values in scan order. -/
def rle (ac : List Int) : List RleSym :=
  let last := lastNonzero ac
  if last = 0 then [.eob]
  else rleScan 0 (ac.take last) ++ (if last < 63 then [.eob] else [])

/-! ## Canonical code tables -/

/-- The ERR_INFO of INVALID_HTABLE (60_exceptions.md R262): table in [15:8], reason in [7:0]. -/
def htableInfo (h : HTab) (reason : Byte) : Word := 0#16 ++ BitVec.ofNat 8 h.index ++ reason

/-- The inner loop of build (43_huffman.md R151): give the next `count` symbols, from number k on, codes of length `len`. -/
def assignCodes (h : HTab) (val : Nat → Byte) (len : Nat) :
    Nat → Nat → Nat → List HuffEntry → Except Stop (Nat × Nat × List HuffEntry)
  | 0, code, k, done => .ok (code, k, done)
  | count + 1, code, k, done =>
    if done.any (fun e => e.sym == val k) then .error (.raised .invalidHtable (htableInfo h 3#8))
    else assignCodes h val len count (code + 1) (k + 1) (⟨val k, BitVec.ofNat 16 code, len⟩ :: done)

/-- The outer loop of build (R151), over the counts of the lengths from `len` on. -/
def buildLengths (h : HTab) (val : Nat → Byte) : List Nat → Nat → Nat → Nat → List HuffEntry → Except Stop (List HuffEntry)
  | [], _, _, _, done => .ok done
  | count :: counts, len, code, k, done => do
    let (code', k', done') ← assignCodes h val len count code k done
    if 2 ^ len < code' then .error (.raised .invalidHtable (htableInfo h 2#8))
    else buildLengths h val counts (len + 1) (2 * code') k' done'

/-- The counts BITS[1..16] of a table. -/
def State.bitCounts (s : State) (h : HTab) : List Nat := (List.range 16).map fun i => (s.htBits h (i + 1)).toNat

/-- n_h, the number of symbols of a table (R150). -/
def State.symbolCount (s : State) (h : HTab) : Nat := (s.bitCounts h).sum

/-- build(h) (R151). -/
def buildTable (s : State) (h : HTab) : Except Stop (List HuffEntry) :=
  if 256 < s.symbolCount h then .error (.raised .invalidHtable (htableInfo h 1#8))
  else buildLengths h (s.htVal h) (s.bitCounts h) 1 0 0 []

/-- EHUF[h][s] (10_state.md R51); none is undef. -/
def codeFor (e : EHuf) (h : HTab) (sym : Byte) : Option HuffEntry := (e.get h).find? fun x => x.sym == sym

/-! ## Category and value bits -/

/-- category(v) (43_huffman.md R154): the number of bits of |v|. -/
def category (v : Int) : Nat := if v = 0 then 0 else v.natAbs.log2 + 1

/-- vbits(v) (R155). -/
def valueBits (v : Int) : Nat := if 0 < v then v.toNat else (v + 2 ^ category v - 1).toNat

/-! ## Symbol coding -/

/-- The ERR_INFO of UNDEFINED_SYMBOL (60_exceptions.md R262): block index, table, symbol. -/
def undefinedInfo (blkCount : Word) (h : HTab) (sym : Byte) : Word :=
  blkCount.extractLsb' 0 16 ++ BitVec.ofNat 8 h.index ++ sym

/-- emit_code (43_huffman.md R153). -/
def emitCode (h : HTab) (sym : Byte) (s : State) : Except Stop State :=
  match codeFor s.ehuf h sym with
  | none => .error (.raised .undefinedSymbol (undefinedInfo s.blkCount h sym))
  | some e => writeBits e.code e.len s

/-- A code, then the value bits of v where it has any (R157, R158). -/
def emitCoded (h : HTab) (sym : Byte) (v : Int) (s : State) : Except Stop State := do
  let t ← emitCode h sym s
  if category v = 0 then .ok t else writeBits (BitVec.ofNat 16 (valueBits v)) (category v) t

/-- DC encode (R157): code the difference from the predictor, which becomes the block's DC coefficient. -/
def dcEncode (c : Component) (z0 : Int) (h : HTab) (s : State) : Except Stop State :=
  let diff := z0 - (s.pred c).toInt
  emitCoded h (BitVec.ofNat 8 (category diff)) diff (s.setPred c (BitVec.ofInt 16 z0))

/-- The composite (run << 4) | size of an AC symbol (R158). -/
def compositeOf (run size : Nat) : Byte := BitVec.ofNat 8 (16 * run + size)

/-- One symbol of AC encode (R158). -/
def emitSym (h : HTab) (sym : RleSym) (s : State) : Except Stop State :=
  match sym with
  | .eob => emitCode h 0x00#8 s
  | .zrl => emitCode h 0xF0#8 s
  | .rv run v => emitCoded h (compositeOf run (category v)) v s

/-- AC encode (R158): the symbols in order. -/
def acEncode (h : HTab) : List RleSym → State → Except Stop State
  | [], s => .ok s
  | sym :: syms, s => emitSym h sym s >>= acEncode h syms

end Sys2Proof.Machine
end

