-- ==== Sys2Proof/Machine/Transform.lean ====
section
/-! DEFINITION. Stages 1 and 2 of the block pipeline: level shift and forward DCT-II (40_transform.md), quantizer and table
generator (41_quantizer.md).

The coefficients of R102 are real numbers of the field generated by cos(π/16). They are held here exactly: with
r₁ = √2, r₂ = √(2 + r₁), r₃ = √(2 + r₂), every 2·cos(jπ/16) is an integer combination of the eight products of r₁, r₂, r₃,
so 16·F[n] is one too. `Root1`, `Root2`, `Root3` are the numbers a + b·r₁, a + b·r₂, a + b·r₃ over the level below, and
`nonneg` decides 0 ≤ x exactly by squaring. -/

namespace Sys2Proof.Machine

/-! ## Exact numbers -/

/-- The number a + b·√2. -/
structure Root1 where
  a : Int
  b : Int
  deriving DecidableEq, Repr

/-- The number a + b·√(2 + √2). -/
structure Root2 where
  a : Root1
  b : Root1
  deriving DecidableEq, Repr

/-- The number a + b·√(2 + √(2 + √2)). -/
structure Root3 where
  a : Root2
  b : Root2
  deriving DecidableEq, Repr

/-- Sum. -/
def Root1.add (x y : Root1) : Root1 := ⟨x.a + y.a, x.b + y.b⟩
/-- Difference. -/
def Root1.sub (x y : Root1) : Root1 := ⟨x.a - y.a, x.b - y.b⟩
/-- Integer multiple. -/
def Root1.smul (k : Int) (x : Root1) : Root1 := ⟨k * x.a, k * x.b⟩
/-- Product. -/
def Root1.mul (x y : Root1) : Root1 := ⟨x.a * y.a + 2 * (x.b * y.b), x.a * y.b + x.b * y.a⟩
/-- Product with 2 + √2, the square of the next root. -/
def Root1.mulNext (x : Root1) : Root1 := ⟨2 * x.a + 2 * x.b, x.a + 2 * x.b⟩
/-- Whether 0 ≤ a + b·√2: by the signs of a and b, and where they differ by comparing a² with 2·b². -/
def Root1.nonneg (x : Root1) : Bool :=
  if 0 ≤ x.a then
    if 0 ≤ x.b then true else decide (2 * (x.b * x.b) ≤ x.a * x.a)
  else
    if 0 ≤ x.b then decide (x.a * x.a ≤ 2 * (x.b * x.b)) else false

/-- Sum. -/
def Root2.add (x y : Root2) : Root2 := ⟨x.a.add y.a, x.b.add y.b⟩
/-- Difference. -/
def Root2.sub (x y : Root2) : Root2 := ⟨x.a.sub y.a, x.b.sub y.b⟩
/-- Integer multiple. -/
def Root2.smul (k : Int) (x : Root2) : Root2 := ⟨x.a.smul k, x.b.smul k⟩
/-- Square. -/
def Root2.sq (x : Root2) : Root2 := ⟨(x.a.mul x.a).add (x.b.mul x.b).mulNext, (x.a.mul x.b).smul 2⟩
/-- Product with 2 + √(2 + √2), the square of the next root. -/
def Root2.mulNext (x : Root2) : Root2 := ⟨(x.a.smul 2).add x.b.mulNext, x.a.add (x.b.smul 2)⟩
/-- Whether 0 ≤ a + b·√(2 + √2), as `Root1.nonneg` one level up. -/
def Root2.nonneg (x : Root2) : Bool :=
  if x.a.nonneg then
    if x.b.nonneg then true else ((x.a.mul x.a).sub (x.b.mul x.b).mulNext).nonneg
  else
    if x.b.nonneg then ((x.b.mul x.b).mulNext.sub (x.a.mul x.a)).nonneg else false

/-- Sum. -/
def Root3.add (x y : Root3) : Root3 := ⟨x.a.add y.a, x.b.add y.b⟩
/-- Integer multiple. -/
def Root3.smul (k : Int) (x : Root3) : Root3 := ⟨x.a.smul k, x.b.smul k⟩
/-- Whether 0 ≤ a + b·√(2 + √(2 + √2)), as `Root1.nonneg` two levels up. -/
def Root3.nonneg (x : Root3) : Bool :=
  if x.a.nonneg then
    if x.b.nonneg then true else (x.a.sq.sub x.b.sq.mulNext).nonneg
  else
    if x.b.nonneg then (x.b.sq.mulNext.sub x.a.sq).nonneg else false

/-- A number from its coefficients at 1, r₁, r₂, r₁r₂, r₃, r₁r₃, r₂r₃, r₁r₂r₃. -/
def Root3.mk8 (c0 c1 c2 c3 c4 c5 c6 c7 : Int) : Root3 := ⟨⟨⟨c0, c1⟩, ⟨c2, c3⟩⟩, ⟨⟨c4, c5⟩, ⟨c6, c7⟩⟩⟩

/-- An integer. -/
def Root3.ofInt (k : Int) : Root3 := Root3.mk8 k 0 0 0 0 0 0 0

/-- 2·cos(jπ/16) for j = 0..8. -/
def twoCosFirst : Nat → Root3
  | 0 => Root3.mk8 2 0 0 0 0 0 0 0
  | 1 => Root3.mk8 0 0 0 0 1 0 0 0
  | 2 => Root3.mk8 0 0 1 0 0 0 0 0
  | 3 => Root3.mk8 0 0 0 0 (-1) 0 1 0
  | 4 => Root3.mk8 0 1 0 0 0 0 0 0
  | 5 => Root3.mk8 0 0 0 0 1 1 (-1) 0
  | 6 => Root3.mk8 0 0 (-1) 1 0 0 0 0
  | 7 => Root3.mk8 0 0 0 0 (-1) (-1) 0 1
  | _ => Root3.ofInt 0

/-- 2·cos(kπ/16) for every k: the cosine has period 32 here and is even about 0 and 16, odd about 8. -/
def twoCos (k : Nat) : Root3 :=
  let r := k % 32
  if r ≤ 8 then twoCosFirst r
  else if r ≤ 16 then (twoCosFirst (16 - r)).smul (-1)
  else if r ≤ 24 then (twoCosFirst (r - 16)).smul (-1)
  else twoCosFirst (32 - r)

/-! ## Level shift and DCT -/

/-- Level shift: the sample minus 128 (40_transform.md R101). -/
def levelShift (b : Byte) : Int := (b.toNat : Int) - 128

/-- C(u)·cos((2x+1)uπ/16) is the cosine of this many sixteenths of π: C(0) = 1/√2 = cos(4π/16) (R102). -/
def dctAngle (u x : Nat) : Nat := if u = 0 then 4 else (2 * x + 1) * u

/-- The sum over the samples from index m on, of s·(2cos(α+β) + 2cos(α−β)), where α and β are the angles of column and
row: sixteen times R102's summand times 1/4, by 2·cos α·cos β = cos(α+β) + cos(α−β). -/
def dctSum (n : Nat) : List Int → Nat → Root3 → Root3
  | [], _, acc => acc
  | s :: rest, m, acc =>
    if s = 0 then dctSum n rest (m + 1) acc
    else
      let al := dctAngle (n % 8) (m % 8)
      let be := dctAngle (n / 8) (m / 8)
      dctSum n rest (m + 1) (acc.add (((twoCos (al + be)).add (twoCos (if be ≤ al then al - be else be - al))).smul s))

/-- 16·F[n] of R102, exactly, from the 64 level-shifted samples in natural order. -/
def coefTimes16 (s : List Int) (n : Nat) : Root3 := dctSum n s 0 (Root3.ofInt 0)

/-- S, the sum of the level-shifted samples (R104). -/
def sampleSum (s : List Int) : Int := s.foldl (· + ·) 0

/-! ## Quantizer -/

/-- DC quantization (41_quantizer.md R116): floor_div(S + 4·q0, 8·q0). Int division by a positive number rounds down. -/
def quantDc (sum : Int) (q0 : Nat) : Int := (sum + 4 * q0) / (8 * q0)

/-- Whether m ≤ (F + e·num/(8000·den))/q + 1/2, F sixteen times which is `f`: so whether floor(y + 1/2) is at least m for
the coefficient F moved by e times the bound. -/
def reaches (f : Root3) (q : Nat) (e : Int) (num den : Nat) (m : Int) : Bool :=
  ((f.smul (8000 * den)).add (Root3.ofInt (16 * e * num - 8 * q * (2 * m - 1) * (8000 * den)))).nonneg

/-- The greatest m of lo .. lo + 2^k − 1 that p holds of, for a p that holds of lo and of all below one it holds of. -/
def greatest (p : Int → Bool) : Nat → Int → Int
  | 0, lo => lo
  | k + 1, lo => if p (lo + 2 ^ k) then greatest p k (lo + 2 ^ k) else greatest p k lo

/-- AC quantization (R117): floor(F'/q + 1/2) for an F' within DCT_EPS of F (40_transform.md R105). The result is at least
the one for F − 1/8000 and at most one more; that one more is taken where every admitted F' gives it, left where none
does, and a free choice where both are admitted (log 4). |F| ≤ 1020 (R107), so the search from −4096 covers it. -/
def quantAc (f : Root3) (q : Nat) (roundsUp : Bool) : Int :=
  let m := greatest (reaches f q (-1) 1 1) 13 (-4096)
  if reaches f q 1 1 1 (m + 1) then
    if reaches f q (-1) Config.dctEpsNum Config.dctEpsDen (m + 1) then m + 1
    else if reaches f q 1 Config.dctEpsNum Config.dctEpsDen (m + 1) then
      if roundsUp then m + 1 else m
    else m
  else m

/-- Q[n] (R115): the DC coefficient by R116, the others by R117, a near-tie as the samples
alone decide (40_transform.md R105, R108; log 4). -/
def quantCoef (s : List Int) (q : Nat → Nat) (n : Nat) : Int :=
  if n = 0 then quantDc (sampleSum s) (q 0)
  else quantAc (coefTimes16 s n) (q n) (Config.dctRoundsUp s n)

/-- toZigZag of the quantized block (R115, 42_zigzag_rle.md R136): Z[k] = Q[ZZ[k]], k = 0..63. -/
def quantizedScan (s : List Int) (q : Nat → Nat) : List Int :=
  zigzagOrder.map (quantCoef s q)

/-! ## Table generator -/

/-- qual = clamp(QUALITY, 1, 100) (R123). -/
def clampQuality (quality : Nat) : Nat := min 100 (max 1 quality)

/-- scale (R124). -/
def qualityScale (qual : Nat) : Nat := if qual < 50 then 5000 / qual else 200 - 2 * qual

/-- A table entry (R125): clamp(floor_div(base·scale + 50, 100), 1, 255). -/
def scaledEntry (base scale : Nat) : Nat := min 255 (max 1 ((base * scale + 50) / 100))

/-- The 64 entries of one table (R126), each with its window offset. -/
def generatedTable (t : QTab) (base : List Nat) (scale : Nat) : List (Nat × Byte) :=
  (List.range 64).map fun i => (qtAddr t i, BitVec.ofNat 8 (scaledEntry (base.getD i 0) scale))

/-- The QGEN computation (R126). -/
def State.generateTables (s : State) : State :=
  let quality := s.quality.toNat
  let scale := qualityScale (clampQuality quality)
  let t := s.storeTables (generatedTable .qt0 lumaBase scale ++ generatedTable .qt1 chromaBase scale)
  if quality < 1 ∨ 100 < quality then t.setQclamp else t

end Sys2Proof.Machine
end

