-- ==== Sys2Proof/Machine/Framer.lean ====
section
/-! DEFINITION. The stream state machine, START's checks and header, block processing and termination (45_framer.md). -/

namespace Sys2Proof.Machine

/-- Color 4:2:0 (10_state.md R29). -/
def State.color (s : State) : Bool := s.cfgMode == 1#2

/-- tables_q(MODE) (45_framer.md R186). -/
def State.quantTabs (s : State) : List QTab := if s.color then [.qt0, .qt1] else [.qt0]

/-- tables_h(MODE) (R186). -/
def State.huffTabs (s : State) : List HTab := if s.color then [.dc0, .ac0, .dc1, .ac1] else [.dc0, .ac0]

/-! ## START -/

/-- The first index below 64 of a zero entry of a quantization table (R186). -/
def State.firstZero (s : State) (t : QTab) : Option Nat := (List.range 64).find? fun i => s.qt t i == 0#8

/-- The quantization-table check of R186, ascending t then i. -/
def checkQuant (s : State) : List QTab → Except Stop Unit
  | [] => .ok ()
  | t :: ts =>
    match s.firstZero t with
    | some i => .error (.raised .invalidQtable (0#16 ++ BitVec.ofNat 8 t.index ++ BitVec.ofNat 8 i))
    | none => checkQuant s ts

/-- Build the tables in use, ascending h (R186, 43_huffman.md R151); the others keep their codes. -/
def buildTables (s : State) : List HTab → EHuf → Except Stop EHuf
  | [], e => .ok e
  | h :: hs, e => do
    let l ← buildTable s h
    buildTables s hs (e.set h l)

/-- validate() (R186), with the code tables it builds. -/
def validate (s : State) : Except Stop EHuf :=
  if 1 < s.cfgMode.toNat then .error (.raised .unsupportedFormat (zext32 s.cfgMode))
  else if s.width = 0#16 ∨ s.height = 0#16 then
    .error (.raised .invalidArgument (0#30 ++ BitVec.ofBool (s.height = 0#16) ++ BitVec.ofBool (s.width = 0#16)))
  else do
    checkQuant s s.quantTabs
    buildTables s s.huffTabs s.ehuf

/-- ceil_div (00_scope.md R7). -/
def ceilDiv (a b : Nat) : Nat := (a + b - 1) / b

/-- BLK_TOTAL (45_framer.md R187). -/
def State.blocksOf (s : State) : Nat :=
  if s.color then ceilDiv s.width.toNat 16 * ceilDiv s.height.toNat 16 * 6
  else ceilDiv s.width.toNat 8 * ceilDiv s.height.toNat 8

/-- init_scan() (R187). -/
def State.initScan (s : State) : State := { s.clearDatapath with blkTotal := BitVec.ofNat 32 s.blocksOf }

/-- start_raw() (R194). -/
def State.startRaw (s : State) : State := { s.clearDatapath with blkTotal := 0#32, st := .raw }

/-! ## Marker segments (R200..R211) -/

/-- SOI (R201). -/
def soiBytes : List Byte := [0xFF, 0xD8]

/-- APP0 (R202). -/
def app0Bytes : List Byte :=
  [0xFF, 0xE0, 0x00, 0x10, 0x4A, 0x46, 0x49, 0x46, 0x00, 0x01, 0x01, 0x00, 0x00, 0x01, 0x00, 0x01, 0x00, 0x00]

/-- DQT of table t (R203), in zigzag order. -/
def State.dqtBytes (s : State) (t : QTab) : List Byte :=
  [0xFF, 0xDB, 0x00, 0x43, BitVec.ofNat 8 t.index] ++ zigzagOrder.map fun i => s.qt t i

/-- SOF0 (R204). -/
def State.sof0Bytes (s : State) : List Byte :=
  if s.color then
    [0xFF, 0xC0, 0x00, 0x11, 0x08] ++ be16 s.height ++ be16 s.width ++
      [0x03, 0x01, 0x22, 0x00, 0x02, 0x11, 0x01, 0x03, 0x11, 0x01]
  else [0xFF, 0xC0, 0x00, 0x0B, 0x08] ++ be16 s.height ++ be16 s.width ++ [0x01, 0x01, 0x11, 0x00]

/-- TcTh of a Huffman table (R205). -/
def tableClassId : HTab → Byte
  | .dc0 => 0x00
  | .ac0 => 0x10
  | .dc1 => 0x01
  | .ac1 => 0x11

/-- DHT of table h (R205). -/
def State.dhtBytes (s : State) (h : HTab) : List Byte :=
  [0xFF, 0xC4] ++ be16 (BitVec.ofNat 16 (19 + s.symbolCount h)) ++ [tableClassId h] ++
    (List.range 16).map (fun i => s.htBits h (i + 1)) ++ (List.range (s.symbolCount h)).map (s.htVal h)

/-- SOS (R206). -/
def State.sosBytes (s : State) : List Byte :=
  if s.color then [0xFF, 0xDA, 0x00, 0x0C, 0x03, 0x01, 0x00, 0x02, 0x11, 0x03, 0x11, 0x00, 0x3F, 0x00]
  else [0xFF, 0xDA, 0x00, 0x08, 0x01, 0x01, 0x00, 0x00, 0x3F, 0x00]

/-- The header (R209, R211). -/
def State.headerBytes (s : State) : List Byte :=
  soiBytes ++ app0Bytes ++ s.quantTabs.flatMap s.dqtBytes ++ s.sof0Bytes ++ s.huffTabs.flatMap s.dhtBytes ++ s.sosBytes

/-- EOI (R208). -/
def eoiBytes : List Byte := [0xFF, 0xD9]

/-- START with TEST = 0 (46_commands.md R222): validate, initialise, write the header, enter SCAN. -/
def startScan (s : State) : Except Stop State := do
  let e ← validate s
  let t ← emitBytes s.headerBytes { s.initScan with ehuf := e }
  .ok { t with st := .scan }

/-! ## Blocks -/

/-- The quantization table of a component (R190, 41_quantizer.md R119). -/
def quantTabOf : Component → QTab
  | .y => .qt0
  | .cb => .qt1
  | .cr => .qt1

/-- The DC code table of a component (R190). -/
def dcTabOf : Component → HTab
  | .y => .dc0
  | .cb => .dc1
  | .cr => .dc1

/-- The AC code table of a component (R190). -/
def acTabOf : Component → HTab
  | .y => .ac0
  | .cb => .ac1
  | .cr => .ac1

/-- The level-shifted samples of the block in IBUF (40_transform.md R100, R101). -/
def State.shifted (s : State) : List Int := s.ibuf.toList.map levelShift

/-- Z[0..63] of the block in IBUF: transform, quantize, zigzag (R189). -/
def State.scanned (s : State) : List Int :=
  quantizedScan s.shifted (fun i => (s.qt (quantTabOf s.comp) i).toNat)

/-- LASTBLK <- Z (42_zigzag_rle.md R136). -/
def State.keepScan (s : State) (z : List Int) : State :=
  { s with lastblk := blockOf fun k => BitVec.ofInt 16 (z.getD k 0) }

/-- BIM after a block (10_state.md R46). -/
def nextBim (mode : BitVec 2) (bim : BitVec 3) : BitVec 3 :=
  if mode = 1#2 then BitVec.ofNat 3 ((bim.toNat + 1) % 6) else 0#3

/-- The block is coded: BLK_COUNT and BIM advance (45_framer.md R189). -/
def State.countBlock (s : State) : State :=
  { s with blkCount := s.blkCount + 1#32, bim := nextBim s.cfgMode s.bim }

/-- terminate() (R191): flush, EOI unstuffed, DONE. -/
def terminate (s : State) : Except Stop State := do
  let t ← flush s
  let u ← emitBytes eoiBytes t
  .ok u.enterDone

/-- DC and AC coding of a scanned block (R189). -/
def codeBlock (z : List Int) (s : State) : Except Stop State := do
  let t ← dcEncode s.comp (z.headD 0) (dcTabOf s.comp) s
  acEncode (acTabOf s.comp) (rle z.tail) t

/-- process_block() (R189). A quantization entry of 0 stops the machine (R115, log 13). -/
def processBlock (s : State) : Except Stop State :=
  if (s.firstZero (quantTabOf s.comp)).isSome then .error (.fault .zeroQuantizer)
  else do
    let z := s.scanned
    let t ← codeBlock z (s.keepScan z)
    if t.countBlock.blkCount = t.countBlock.blkTotal then terminate t.countBlock else .ok t.countBlock

/-- The SAMPLE word w as word number SFILL of the block (46_commands.md R230). -/
def State.storeSamples (s : State) (w : Word) : State :=
  let j := 4 * s.sfill.toNat
  { s with
    ibuf := (((s.ibuf.setIfInBounds j (byteOf w 0)).setIfInBounds (j + 1) (byteOf w 1)).setIfInBounds (j + 2)
      (byteOf w 2)).setIfInBounds (j + 3) (byteOf w 3)
    sfill := s.sfill + 1#4 }

end Sys2Proof.Machine
end

