-- ==== Sys2Proof/Machine/Commands.lean ====
section
/-! DEFINITION. The meanings of NOP, START, QGEN, HDEFAULT, ABORT and SOFT_RESET (46_commands.md R221..R226). -/

namespace Sys2Proof.Machine

/-- NOP (R221): nothing, in every state. -/
def execNop (s : State) : Host.Outcome State Fault Refusal := command legalAlways 0x00#8 .ok s

/-- What START does in IDLE (R222): in test mode the entry to RAW, else validation, header and SCAN. -/
def startBody (s : State) : Except Stop State := if s.cfgTest then .ok s.startRaw else startScan s

/-- START (R222). -/
def execStart (s : State) : Host.Outcome State Fault Refusal := command legalIdle 0x01#8 startBody s

/-- QGEN (R223): the table generation of 41_quantizer.md R126. -/
def execQgen (s : State) : Host.Outcome State Fault Refusal :=
  command legalIdle 0x02#8 (fun s => .ok s.generateTables) s

/-- The default contents of one Huffman table, each entry with its window offset (R224): 16 counts, 256 symbols. -/
def defaultEntries (h : HTab) : List (Nat × Byte) :=
  (List.range 16).map (fun i => (bitsAddr h (i + 1), BitVec.ofNat 8 ((defaultBits h).getD i 0))) ++
    (List.range 256).map (fun k => (valAddr h k, BitVec.ofNat 8 ((defaultVals h).getD k 0)))

/-- The default tables loaded into HT0..HT3 (R224). -/
def State.loadDefaults (s : State) : State :=
  s.storeTables (defaultEntries .dc0 ++ defaultEntries .ac0 ++ defaultEntries .dc1 ++ defaultEntries .ac1)

/-- HDEFAULT (R224). -/
def execHdefault (s : State) : Host.Outcome State Fault Refusal :=
  command legalIdle 0x03#8 (fun s => .ok s.loadDefaults) s

/-- ABORT (R225), in every state. -/
def execAbort (s : State) : Host.Outcome State Fault Refusal :=
  command legalAlways 0x04#8 (fun s => .ok s.abortEncode) s

/-- SOFT_RESET (R226), in every state. -/
def execSoftReset (s : State) : Host.Outcome State Fault Refusal :=
  command legalAlways 0x05#8 (fun s => .ok s.resetCore) s

end Sys2Proof.Machine
end

