-- ==== Sys2Proof/Machine/RawMode.lean ====
section
/-! DEFINITION. The meanings of RAWBITS and RAWFLUSH (46_commands.md R227, R228), the RAW test mode of 45_framer.md R194. -/

namespace Sys2Proof.Machine

/-- The command word of RAWBITS n, v (R227). -/
def rawbitsWord (len : BitVec 5) (value : BitVec 16) : Word := value ++ 0#3 ++ len ++ 0x10#8

/-- RAWBITS (R227): write_bits(v, n). With LEN above 16 the word is illegal (30_encoding.md R84). -/
def execRawbits (len : BitVec 5) (value : BitVec 16) (s : State) : Host.Outcome State Fault Refusal :=
  if 16 < len.toNat then .next (illegalCommand (rawbitsWord len value) s)
  else command legalRaw 0x10#8 (writeBits value len.toNat) s

/-- What RAWFLUSH does in RAW (R228): flush, then DONE, with no EOI. -/
def rawflushBody (s : State) : Except Stop State := do
  let t ← flush s
  .ok t.enterDone

/-- RAWFLUSH (R228). -/
def execRawflush (s : State) : Host.Outcome State Fault Refusal := command legalRaw 0x11#8 rawflushBody s

end Sys2Proof.Machine
end

