-- ==== Sys2Proof/Machine/Registers.lean ====
section
/-! DEFINITION. The meanings of register reads and writes (46_commands.md R231, R232; 20_memory.md R61..R68). -/

namespace Sys2Proof.Machine

/-- A read (R231): the register's value; 0 with ACCERR at a reserved offset (20_memory.md R63) and for a misaligned or
narrow access (R62). -/
def execRegRead (off : Offset) (lanes : Lanes) (s : State) : Host.Outcome State Fault Refusal :=
  if isWordAccess off lanes && regAt off != .reserved then .next { s with rdata := regValue s (regAt off) }
  else .next { s.ignoreAccess with rdata := 0#32 }

/-- A write (R232), by the access kind of the register; misaligned and narrow ones are ignored (R62). A word write to CMD
or SAMPLE is no register write. -/
def execRegWrite (off : Offset) (lanes : Lanes) (v : Word) (s : State) : Host.Outcome State Fault Refusal :=
  if isWordAccess off lanes then
    match (regAt off).kind with
    | .ro => .next s.ignoreAccess
    | .reserved => .next s.ignoreAccess
    | .wo => .refused .notARegisterWrite
    | .cl => if s.locked then .next s.ignoreAccess else .next (storeReg s (regAt off) v)
    | .rw => .next (storeReg s (regAt off) v)
    | .w1c => .next (storeReg s (regAt off) v)
  else .next s.ignoreAccess

end Sys2Proof.Machine
end

