-- ==== Sys2Proof/Machine/Sample.lean ====
section
/-! DEFINITION. The meaning of a SAMPLE write (46_commands.md R230). -/

namespace Sys2Proof.Machine

/-- What a SAMPLE write does in SCAN: store four samples; the sixteenth word of a block processes it. -/
def sampleBody (w : Word) (s : State) : Except Stop State :=
  if s.sfill = 15#4 then processBlock (s.storeSamples w) else .ok (s.storeSamples w)

/-- SAMPLE write (R230, R229): in ERROR ignored, elsewhere outside SCAN a STATE_VIOLATION with OPC 0xFF. -/
def execSampleWrite (w : Word) (s : State) : Host.Outcome State Fault Refusal :=
  command (fun st => st == .scan) 0xFF#8 (sampleBody w) s

end Sys2Proof.Machine
end

