-- ==== Sys2Proof/Machine/Dispatch.lean ====
section
/-! DEFINITION. The meaning of every instruction, one arm per constructor. -/

namespace Sys2Proof.Machine

def exec (i : Instr) (s : State) : Host.Outcome State Fault Refusal :=
  match i with
  | .nop => Sys2Proof.Machine.execNop s
  | .start => Sys2Proof.Machine.execStart s
  | .qgen => Sys2Proof.Machine.execQgen s
  | .hdefault => Sys2Proof.Machine.execHdefault s
  | .abort => Sys2Proof.Machine.execAbort s
  | .softReset => Sys2Proof.Machine.execSoftReset s
  | .rawbits len value => Sys2Proof.Machine.execRawbits len value s
  | .rawflush => Sys2Proof.Machine.execRawflush s
  | .sampleWrite samples => Sys2Proof.Machine.execSampleWrite samples s
  | .regRead off lanes => Sys2Proof.Machine.execRegRead off lanes s
  | .regWrite off lanes value => Sys2Proof.Machine.execRegWrite off lanes value s

end Sys2Proof.Machine
end

