-- ==== Sys2Proof/Machine/Step.lean ====
section
/-! DEFINITION. One step: the next bus event (00_scope.md R9, 20_memory.md R72). -/

namespace Sys2Proof.Machine

/-- One step: take the oldest pending event. With none the core does nothing (70_reset_and_hazards.md R292). An access
that decodes is executed; a CMD word that does not decode is an illegal command (46_commands.md R220). -/
def step (s : State) : Host.Outcome State Fault Refusal :=
  match nextEvent s with
  | none => .next s
  | some (.reset, t) => .next t.resetCore
  | some (.access a, t) =>
    match decode a with
    | .ok i => exec i t
    | .error e => .next (illegalCommand e.word t)

/-- s with the access whose bits are `w`, as spec/opcode_table.json numbers them, lined up as the next event (log 1, log 2). -/
def State.withFetchWord (s : State) (nbits w : Nat) : State := s.pushEvent (.access (tableAccess nbits w))

end Sys2Proof.Machine
end

