-- ==== Sys2Proof/Safety.lean ====
section
/-! DEFINITION. The vocabulary of the claims: the invariant of runs, bit strings and the bytes they make, what a Huffman table
must be, which registers make the configuration. Nothing here is used by the machine. -/

namespace Sys2Proof.Machine

/-! ## Bit strings (44_bitwriter.md R173) -/

/-- The low n bits of v, most significant first. -/
def lowBits {w : Nat} (v : BitVec w) : Nat → List Bool
  | 0 => []
  | n + 1 => v.getLsbD n :: lowBits v n

/-- The byte of eight bits, most significant first. -/
def byteOfBits (bits : List Bool) : Byte := BitVec.ofNat 8 (bits.foldl (fun n b => 2 * n + b.toNat) 0)

/-- A bit string cut into bytes from its start, and the bits left over. -/
def cutBytes : List Bool → List Byte × List Bool
  | b7 :: b6 :: b5 :: b4 :: b3 :: b2 :: b1 :: b0 :: rest =>
    (byteOfBits [b7, b6, b5, b4, b3, b2, b1, b0] :: (cutBytes rest).1, (cutBytes rest).2)
  | short => ([], short)

/-- Entropy-coded bytes as they stand in the stream: each 0xFF followed by 0x00 (R171). -/
def stuffed : List Byte → List Byte
  | [] => []
  | b :: bs => if b = 0xFF#8 then b :: 0x00#8 :: stuffed bs else b :: stuffed bs

/-- The pending bits of the accumulator, earliest first (10_state.md R45, R52). -/
def State.pendingBits (s : State) : List Bool := lowBits s.acc s.nbits.toNat

/-- The bits of a symbol's code in a table, where it has one (43_huffman.md R153). -/
def codeBits (e : EHuf) (h : HTab) (sym : Byte) : List Bool :=
  match codeFor e h sym with
  | some x => lowBits x.code x.len
  | none => []

/-- A code and the value bits of v (R155, R157, R158). -/
def codedBits (e : EHuf) (h : HTab) (sym : Byte) (v : Int) : List Bool :=
  codeBits e h sym ++ lowBits (BitVec.ofNat 16 (valueBits v)) (category v)

/-- A symbol of a block: the code table, the symbol coded in it, and the value whose value bits follow the code. -/
structure CodedSym where
  table : HTab
  sym : Byte
  value : Int
  deriving DecidableEq, Repr

/-- The bits of a symbol sequence (R153, R155, R157, R158). -/
def codedAll (e : EHuf) (syms : List CodedSym) : List Bool := syms.flatMap fun x => codedBits e x.table x.sym x.value

/-- Every symbol of a sequence has a code (R153). -/
def codesDefined (e : EHuf) (syms : List CodedSym) : Prop := ∀ x ∈ syms, (codeFor e x.table x.sym).isSome = true

/-- `out` stands in the output buffer from index `at_` on. -/
def State.holdsAt (s : State) (at_ : Nat) (out : List Byte) : Prop :=
  ∀ j, j < out.length → s.outByte (at_ + j) = out.getD j 0#8

/-- t has the output of s, with `out` appended, and no other byte of OBUF changed. -/
def State.appends (s t : State) (out : List Byte) : Prop :=
  t.olen = s.olen + out.length ∧ t.holdsAt s.olen out ∧
    ∀ j, j < s.olen ∨ s.olen + out.length ≤ j → t.outByte j = s.outByte j

/-! ## The transform as real numbers (40_transform.md R102, R105) -/

/-- C(u) of R102. -/
noncomputable def dctC (u : Nat) : ℝ := if u = 0 then 1 / √2 else 1

/-- F[8v+u] of R102, from the level-shifted samples in natural order. -/
noncomputable def dctCoef (s : List Int) (n : Nat) : ℝ :=
  1 / 4 * dctC (n % 8) * dctC (n / 8) * ∑ m ∈ Finset.range 64, ((s.getD m 0 : Int) : ℝ) *
    (Real.cos ((2 * (m % 8 : Nat) + 1) * (n % 8 : Nat) * Real.pi / 16) *
      Real.cos ((2 * (m / 8 : Nat) + 1) * (n / 8 : Nat) * Real.pi / 16))

/-- DCT_EPS (00_scope.md R5). -/
noncomputable def dctEps : ℝ := Config.dctEpsNum / (8000 * Config.dctEpsDen)

/-! ## Run-length symbols back to coefficients (42_zigzag_rle.md R139) -/

/-- The coefficients a symbol stands for, EOB apart. -/
def RleSym.values : RleSym → List Int
  | .rv run v => List.replicate run 0 ++ [v]
  | .zrl => List.replicate 16 0
  | .eob => []

/-- The 63 coefficients of a symbol sequence: what the symbols stand for, then zeros (R139, R142). -/
def expandRle (syms : List RleSym) : List Int :=
  let l := syms.flatMap RleSym.values
  l ++ List.replicate (63 - l.length) 0

/-! ## A block spelled out, beside the machine's own definitions (45_framer.md R189, R190) -/

/-- The component of the block coming in (R190): in color 1 at BIM 4, 2 at BIM 5; else 0. -/
def State.blockComp (s : State) : Component :=
  if s.cfgMode = 1#2 ∧ s.bim = 4#3 then .cb else if s.cfgMode = 1#2 ∧ s.bim = 5#3 then .cr else .y

/-- The level-shifted samples of the block that w completes (30_encoding.md R87, 40_transform.md R100, R101): samples 60..63
are the bytes of w. -/
def State.blockSamples (s : State) (w : Word) : List Int :=
  (List.range 64).map fun m =>
    ((if m < 60 then s.ibuf.toList.getD m 0#8 else BitVec.ofNat 8 (w.toNat / 2 ^ (8 * (m % 4)))).toNat : Int) - 128

/-- Z of the block that w completes (42_zigzag_rle.md R136): at scan position k the quantized coefficient of natural index
ZZ[k], by QT0 (at 0x200) for component 0 and QT1 (at 0x300) for 1 and 2 (41_quantizer.md R119). -/
def State.blockScan (s : State) (w : Word) : List Int :=
  (List.range 64).map fun k =>
    quantCoef (s.blockSamples w) (fun i => (s.table ((if s.blockComp = .y then 0x200 else 0x300) + 4 * i)).toNat)
      (zigzagOrder.getD k 0)

/-- What a run-length symbol is coded as (R158): EOB as 0x00, ZRL as 0xF0, RV(run, v) as 16·run + category(v) with v. -/
def RleSym.coded : RleSym → Byte × Int
  | .eob => (0x00#8, 0)
  | .zrl => (0xF0#8, 0)
  | .rv run v => (BitVec.ofNat 8 (16 * run + category v), v)

/-- The symbols of a block with the scanned coefficients z, in order (43_huffman.md R157, R158): the category of the DC
difference in HT0, or HT2 for components 1 and 2; then the AC symbols in HT1 or HT3. -/
def State.blockSymbols (s : State) (z : List Int) : List CodedSym :=
  let pred := match s.blockComp with
    | .y => s.predY
    | .cb => s.predCb
    | .cr => s.predCr
  let diff := z.headD 0 - pred.toInt
  ⟨if s.blockComp = .y then .dc0 else .dc1, BitVec.ofNat 8 (category diff), diff⟩ ::
    (rle z.tail).map fun x => ⟨if s.blockComp = .y then .ac0 else .ac1, x.coded.1, x.coded.2⟩

/-! ## Huffman tables (43_huffman.md R150) -/

/-- What the canonical codes of the first L lengths take of the code space, in codes of length L. -/
def State.codeSpace (s : State) (h : HTab) (len : Nat) : Nat :=
  ((List.range len).map fun i => (s.htBits h (i + 1)).toNat * 2 ^ (len - (i + 1))).sum

/-- A valid table (R150): at most 256 symbols, no length out of codes, no symbol twice. -/
def State.validTable (s : State) (h : HTab) : Prop :=
  s.symbolCount h ≤ 256 ∧ (∀ len, 1 ≤ len → len ≤ 16 → s.codeSpace h len ≤ 2 ^ len) ∧
    ((List.range (s.symbolCount h)).map (s.htVal h)).Nodup

/-! ## Configuration -/

/-- t has the configuration registers and tables of s (20_memory.md R66). -/
def sameConfig (s t : State) : Prop :=
  t.cfgMode = s.cfgMode ∧ t.cfgTest = s.cfgTest ∧ t.width = s.width ∧ t.height = s.height ∧ t.quality = s.quality ∧
    t.tables = s.tables

/-- The datapath state 60_exceptions.md R265 leaves unspecified after an error. -/
def sameDatapath (s t : State) : Prop :=
  t.sfill = s.sfill ∧ t.bim = s.bim ∧ t.errComp = s.errComp ∧ t.blkCount = s.blkCount ∧ t.blkTotal = s.blkTotal ∧
    t.predY = s.predY ∧ t.predCb = s.predCb ∧ t.predCr = s.predCr ∧ t.lastblk = s.lastblk ∧ t.ibuf = s.ibuf ∧
    t.ehuf = s.ehuf ∧ t.acc = s.acc ∧ t.nbits = s.nbits ∧ t.flushed = s.flushed

/-- What two cores in the same encode have in common (70_reset_and_hazards.md R301): everything of the encode that an access
can still show or use. OBUF from OLEN on, the samples not yet written and the codes of the tables not in use are left out. -/
structure State.Agrees (s t : State) : Prop where
  config : sameConfig s t
  st : t.st = s.st
  errCode : t.errCode = s.errCode
  errInfo : t.errInfo = s.errInfo
  olen : t.olen = s.olen
  out : ∀ j, j < s.olen → t.outByte j = s.outByte j
  blkTotal : t.blkTotal = s.blkTotal
  blkCount : t.blkCount = s.blkCount
  sfill : t.sfill = s.sfill
  bim : t.bim = s.bim
  preds : t.predY = s.predY ∧ t.predCb = s.predCb ∧ t.predCr = s.predCr
  lastblk : t.lastblk = s.lastblk
  samples : ∀ m : Fin 64, m.val < 4 * s.sfill.toNat → t.ibuf[m] = s.ibuf[m]
  packer : t.acc = s.acc ∧ t.nbits = s.nbits ∧ t.flushed = s.flushed
  codes : s.st = .scan → ∀ h ∈ s.huffTabs, t.ehuf.get h = s.ehuf.get h

/-! ## Accesses -/

/-- A word read at offset a returns v and changes nothing but the bus read data. -/
def readsAs (s : State) (a : Nat) (v : Word) : Prop :=
  exec (.regRead (BitVec.ofNat 14 a) 0xF#4) s = .next { s with rdata := v }

/-- The offsets of the config-locked registers and table entries (10_state.md R22). -/
def configOffset (a : Nat) : Prop :=
  a % 4 = 0 ∧ (0x018 ≤ a ∧ a ≤ 0x024 ∨ 0x200 ≤ a ∧ a < 0x400 ∨
    0x1000 ≤ a ∧ a < 0x3000 ∧ (a % 0x800 < 0x40 ∨ 0x400 ≤ a % 0x800))

/-- The reserved word offsets of the window (R22, R41). -/
def reservedOffset (a : Nat) : Prop :=
  a % 4 = 0 ∧ a < 0x4000 ∧ (0x060 ≤ a ∧ a < 0x100 ∨ 0x400 ≤ a ∧ a < 0x1000 ∨ 0x3000 ≤ a ∨
    0x1000 ≤ a ∧ a < 0x3000 ∧ 0x40 ≤ a % 0x800 ∧ a % 0x800 < 0x400)

/-- The offsets of the read-only registers (R22). -/
def readOnlyOffset (a : Nat) : Prop :=
  a ∈ [0x000, 0x004, 0x00C, 0x010, 0x014, 0x038, 0x03C, 0x040, 0x048, 0x04C, 0x050, 0x054, 0x058, 0x05C] ∨
    a % 4 = 0 ∧ 0x100 ≤ a ∧ a < 0x200

/-- The CMD words that are no command (30_encoding.md R84, R85), by their number. -/
def illegalWord (n : Nat) : Prop :=
  (n % 256 ≤ 5 ∨ n % 256 = 0x11) ∧ n / 256 ≠ 0 ∨ n % 256 = 0x10 ∧ (n / 8192 % 8 ≠ 0 ∨ 16 < n / 256 % 32) ∨
    6 ≤ n % 256 ∧ n % 256 ≤ 0x0F ∨ 0x12 ≤ n % 256

/-! ## The invariant of runs -/

/-- What holds in SCAN: START's checks passed and the configuration is locked since (45_framer.md R186, R187; 20_memory.md R66). -/
structure State.ScanInv (s : State) : Prop where
  mode : s.cfgMode.toNat ≤ 1
  quant : ∀ t ∈ s.quantTabs, ∀ i, i < 64 → s.qt t i ≠ 0#8
  total : s.blkTotal.toNat = s.blocksOf
  count : s.blkCount.toNat < s.blkTotal.toNat
  bim : s.bim.toNat = if s.color then s.blkCount.toNat % 6 else 0
  codes : ∀ h ∈ s.huffTabs, ∀ x ∈ s.ehuf.get h, 1 ≤ x.len ∧ x.len ≤ 16 ∧ x.code.toNat < 2 ^ x.len

/-- The invariant of every run from reset. -/
structure State.Inv (s : State) : Prop where
  tablesCanonical : Memory.wf .tables s.tables = true
  outputCanonical : Memory.wf .output s.obuf = true
  outputFits : s.olen ≤ Config.obufBytes
  packer : s.st ≠ .error → s.nbits.toNat ≤ 7 ∧ s.acc.toNat < 2 ^ s.nbits.toNat
  oneShot : s.st = .scan ∨ s.st = .raw → s.flushed = false
  errorCode : s.st = .error ↔ s.errCode ≠ .none
  noOutput : s.st = .idle ∨ s.st = .error → s.olen = 0
  betweenBlocks : s.st = .idle ∨ s.st = .done ∨ s.st = .raw → s.sfill = 0#4 ∧ s.bim = 0#3
  counts : s.st = .idle ∨ s.st = .done ∨ s.st = .raw → s.blkCount = s.blkTotal
  noBlocks : s.st = .idle ∨ s.st = .raw → s.blkTotal = 0#32
  predictors : s.st ≠ .error → ∀ c, -1024 ≤ (s.pred c).toInt ∧ (s.pred c).toInt ≤ 1016
  scan : s.st = .scan → s.ScanInv

/-- Where the entropy-coded bytes begin in OBUF: after the header in SCAN, at 0 in RAW (45_framer.md R194, R196). -/
def State.entropyStart (s : State) : Nat := if s.st = .scan then s.headerBytes.length else 0

/-- In SCAN and RAW every 0xFF of the entropy-coded bytes is followed by 0x00 (45_framer.md R207). -/
def State.Stuffed (s : State) : Prop :=
  s.st = .scan ∨ s.st = .raw → s.entropyStart ≤ s.olen ∧ ∀ j, s.entropyStart ≤ j → j < s.olen → s.outByte j = 0xFF#8 →
    j + 1 < s.olen ∧ s.outByte (j + 1) = 0x00#8

end Sys2Proof.Machine
end

