-- ==== Sys2Proof/Certificates/Slice0/Obligations.lean ====
section
/-! DEFINITION. The statements for the provers. OBLIGATIONS.json lists each with its tier, title, basis and rules. -/

open Sys2Proof Sys2Proof.Machine

/-! ## Encoding (30_encoding.md) -/

/-- Decoding the access of a well-formed instruction gives the instruction back. -/
def Obligations.DecodeOfEncode : Prop := ∀ i : Instr, i.wf = true → decode (encode i) = .ok i

/-- Each access that decodes is the access of the instruction it decodes to. -/
def Obligations.EncodeOfDecode : Prop := ∀ (a : Access) (i : Instr), decode a = .ok i → encode i = a

/-- R86, the decode procedure, with the word as a number. -/
def Obligations.CommandWordsDecode : Prop :=
  ∀ w : Word,
    (w.toNat = 0 → decode (cmdWrite w) = .ok .nop) ∧ (w.toNat = 1 → decode (cmdWrite w) = .ok .start) ∧
    (w.toNat = 2 → decode (cmdWrite w) = .ok .qgen) ∧ (w.toNat = 3 → decode (cmdWrite w) = .ok .hdefault) ∧
    (w.toNat = 4 → decode (cmdWrite w) = .ok .abort) ∧ (w.toNat = 5 → decode (cmdWrite w) = .ok .softReset) ∧
    (w.toNat = 0x11 → decode (cmdWrite w) = .ok .rawflush) ∧
    (w.toNat % 256 = 0x10 → w.toNat / 8192 % 8 = 0 → w.toNat / 256 % 32 ≤ 16 →
      decode (cmdWrite w) = .ok (.rawbits (BitVec.ofNat 5 (w.toNat / 256)) (BitVec.ofNat 16 (w.toNat / 65536)))) ∧
    (illegalWord w.toNat → ∃ r, decode (cmdWrite w) = .error ⟨r, w⟩)

/-- Words written out from the patterns of R82 and the examples of 46_commands.md. -/
def Obligations.SpecCommandWords : Prop :=
  decode (.write 0x008 0xF 0x00000000) = .ok .nop ∧ decode (.write 0x008 0xF 0x00000001) = .ok .start ∧
  decode (.write 0x008 0xF 0x00000004) = .ok .abort ∧ decode (.write 0x008 0xF 0x00000011) = .ok .rawflush ∧
  decode (.write 0x008 0xF 0x00FF0810) = .ok (.rawbits 8 0x00FF) ∧
  decode (.write 0x008 0xF 0x00000101) = .error ⟨.reservedBits, 0x00000101⟩ ∧
  decode (.write 0x034 0xF 0x80808080) = .ok (.sampleWrite 0x80808080) ∧
  decode (.read 0x000 0xF) = .ok (.regRead 0x000 0xF) ∧
  decode (.write 0x01C 0xF 0x00000040) = .ok (.regWrite 0x01C 0xF 0x00000040)

/-! ## Steps (00_scope.md R9) -/

/-- A step takes the oldest pending access off the queue and executes the instruction it decodes to. -/
def Obligations.StepRunsDecodedAccess : Prop :=
  ∀ (s : State) (a : Access) (rest : List BusEvent) (i : Instr), s.pending = .access a :: rest → decode a = .ok i →
    step s = exec i { s with pending := rest }

/-- R84, R85: an illegal CMD word raises ILLEGAL_COMMAND with the word, and in ERROR it is ignored. -/
def Obligations.IllegalWordRaises : Prop :=
  ∀ (s : State) (w : Word) (rest : List BusEvent), s.pending = .access (cmdWrite w) :: rest → illegalWord w.toNat →
    (s.st ≠ .error → step s = .next (errorEntry .illegalCommand w { s with pending := rest })) ∧
    (s.st = .error → step s = .next { s with pending := rest, flags := s.flags ||| 2#2 })

/-- R292: with no access the core does nothing, START with a zero dimension starts no encode but raises an error, and right
after reset that is INVALID_ARGUMENT with 3. -/
def Obligations.IdleAfterReset : Prop :=
  (∀ s : State, s.pending = [] → step s = .next s) ∧ step State.reset = .next State.reset ∧
    (∀ s : State, s.st = .idle → s.cfgTest = false → s.width = 0#16 ∨ s.height = 0#16 →
      ∃ e info, e ≠ .none ∧ exec .start s = .next (errorEntry e info s)) ∧
    exec .start State.reset = .next (errorEntry .invalidArgument 3#32 State.reset)

/-- R290: the reset input and SOFT_RESET give the reset values to every piece of state of the core. What the model holds
besides (read data, pending accesses, draws: log 1, log 6, log 10) stays. -/
def Obligations.BothResets : Prop :=
  (∀ (s : State) (rest : List BusEvent), s.pending = .reset :: rest →
    step s = .next { State.reset with rdata := s.rdata, pending := rest, drawn := s.drawn }) ∧
  ∀ s : State, exec .softReset s = .next { State.reset with rdata := s.rdata, pending := s.pending, drawn := s.drawn }

/-! ## Register accesses (20_memory.md, 46_commands.md R231, R232) -/

/-- R67: a read changes the read data only (`rdata`, the model's own field, log 10), and ACCERR for a misaligned, narrow or
reserved access; read again, it returns the same. -/
def Obligations.ReadsHaveNoSideEffect : Prop :=
  ∀ (s : State) (off : Offset) (lanes : Lanes), ∃ t, exec (.regRead off lanes) s = .next t ∧
    t = { s with rdata := t.rdata, flags := t.flags } ∧
    (t.flags = s.flags ∨ t.flags = s.flags ||| 2#2 ∧ (lanes ≠ 0xF#4 ∨ off.toNat % 4 ≠ 0 ∨ reservedOffset off.toNat)) ∧
    exec (.regRead off lanes) t = .next t

/-- R62, R63, R64: misaligned, narrow and reserved accesses: a write is ignored, a read returns 0; both set ACCERR and change
nothing else. -/
def Obligations.AccessesOutsideTheMap : Prop :=
  ∀ (s : State) (off : Offset) (lanes : Lanes) (v : Word),
    off.toNat % 4 ≠ 0 ∨ lanes ≠ 0xF#4 ∨ reservedOffset off.toNat →
    exec (.regWrite off lanes v) s = .next { s with flags := s.flags ||| 2#2 } ∧
    exec (.regRead off lanes) s = .next { s with flags := s.flags ||| 2#2, rdata := 0#32 }

/-- R65: writes to read-only registers are ignored; CMD and SAMPLE read 0 and set no flag. -/
def Obligations.ReadOnlyAndWriteOnly : Prop :=
  (∀ (s : State) (off : Offset) (v : Word), readOnlyOffset off.toNat →
    exec (.regWrite off 0xF#4 v) s = .next { s with flags := s.flags ||| 2#2 }) ∧
  ∀ s : State, readsAs s 0x008 0#32 ∧ readsAs s 0x034 0#32

/-- R66: in SCAN and RAW a write to a configuration register or table entry is ignored; in IDLE, DONE and ERROR it stores the
defined bits. Nothing else changes, and no other table entry. -/
def Obligations.ConfigurationWrites : Prop :=
  (∀ (s : State) (off : Offset) (v : Word), configOffset off.toNat → s.st = .scan ∨ s.st = .raw →
    exec (.regWrite off 0xF#4 v) s = .next { s with flags := s.flags ||| 2#2 }) ∧
  ∀ (s : State) (v : Word), s.st = .idle ∨ s.st = .done ∨ s.st = .error →
    exec (.regWrite 0x018 0xF#4 v) s = .next { s with cfgMode := BitVec.ofNat 2 v.toNat, cfgTest := v.toNat.testBit 8 } ∧
    exec (.regWrite 0x01C 0xF#4 v) s = .next { s with width := BitVec.ofNat 16 v.toNat } ∧
    exec (.regWrite 0x020 0xF#4 v) s = .next { s with height := BitVec.ofNat 16 v.toNat } ∧
    exec (.regWrite 0x024 0xF#4 v) s = .next { s with quality := BitVec.ofNat 8 v.toNat } ∧
    ∀ off : Offset, configOffset off.toNat → 0x200 ≤ off.toNat → Memory.wf .tables s.tables = true →
      ∃ t, exec (.regWrite off 0xF#4 v) s = .next t ∧ t = { s with tables := t.tables } ∧
        t.table off.toNat = BitVec.ofNat 8 v.toNat ∧ ∀ a, a ≠ off.toNat → t.table a = s.table a

/-- R232, the registers that are writable in every state: INT_STATUS and FLAGS clear the bits written 1, INT_ENABLE and
OUT_INDEX store their defined bits; nothing else changes. -/
def Obligations.UnlockedRegistersWritten : Prop :=
  ∀ (s : State) (v : Word),
    (∃ t, exec (.regWrite 0x028 0xF#4 v) s = .next t ∧ t = { s with intStatus := t.intStatus } ∧
      ∀ i, i < 2 → t.intStatus.getLsbD i = (s.intStatus.getLsbD i && !v.getLsbD i)) ∧
    (∃ t, exec (.regWrite 0x030 0xF#4 v) s = .next t ∧ t = { s with flags := t.flags } ∧
      ∀ i, i < 2 → t.flags.getLsbD i = (s.flags.getLsbD i && !v.getLsbD i)) ∧
    exec (.regWrite 0x02C 0xF#4 v) s = .next { s with intEnable := BitVec.ofNat 2 v.toNat } ∧
    exec (.regWrite 0x044 0xF#4 v) s = .next { s with outIndex := BitVec.ofNat 30 v.toNat }

/-- What the identity, error, configuration, interrupt, counter, predictor and capacity registers, LASTBLK and the table
entries read: R23, R24, R27..R35, R37, R38, R40..R43, R47..R49. STATUS, OUT_LEN, OUT_DATA, BITSTATE, CMD and SAMPLE have
statements of their own. -/
def Obligations.RegistersRead : Prop :=
  ∀ s : State,
    readsAs s 0x000 0x4A504547#32 ∧ readsAs s 0x004 0x00010000#32 ∧
    readsAs s 0x010 (s.errCode.code.setWidth 32) ∧ readsAs s 0x014 s.errInfo ∧
    readsAs s 0x018 (BitVec.ofNat 32 (s.cfgMode.toNat + 256 * s.cfgTest.toNat)) ∧
    readsAs s 0x01C (s.width.setWidth 32) ∧ readsAs s 0x020 (s.height.setWidth 32) ∧
    readsAs s 0x024 (s.quality.setWidth 32) ∧ readsAs s 0x028 (s.intStatus.setWidth 32) ∧
    readsAs s 0x02C (s.intEnable.setWidth 32) ∧ readsAs s 0x030 (s.flags.setWidth 32) ∧
    readsAs s 0x038 s.blkTotal ∧ readsAs s 0x03C s.blkCount ∧ readsAs s 0x044 (s.outIndex.setWidth 32) ∧
    readsAs s 0x050 (s.predY.signExtend 32) ∧ readsAs s 0x054 (s.predCb.signExtend 32) ∧
    readsAs s 0x058 (s.predCr.signExtend 32) ∧ readsAs s 0x05C (BitVec.ofNat 32 Config.obufBytes) ∧
    (∀ k : Fin 64, readsAs s (0x100 + 4 * k.val) (s.lastblk[k].signExtend 32)) ∧
    (∀ i, i < 64 → readsAs s (0x200 + 4 * i) ((s.table (0x200 + 4 * i)).setWidth 32) ∧
      readsAs s (0x300 + 4 * i) ((s.table (0x300 + 4 * i)).setWidth 32)) ∧
    ∀ h, h < 4 → (∀ len, 1 ≤ len → len ≤ 16 →
        readsAs s (0x1000 + 0x800 * h + 4 * (len - 1)) ((s.table (0x1000 + 0x800 * h + 4 * (len - 1))).setWidth 32)) ∧
      ∀ k, k < 256 →
        readsAs s (0x1000 + 0x800 * h + 0x400 + 4 * k) ((s.table (0x1000 + 0x800 * h + 0x400 + 4 * k)).setWidth 32)

/-- R26, R46, R272: the fields of STATUS; outside ERROR NEXT_COMP is comp(BIM). For MODE 2 and 3, to which R46 gives no
components, that it is 0 is the model's choice (log 14). -/
def Obligations.StatusFields : Prop :=
  ∀ s : State, ∃ v : Word, readsAs s 0x00C v ∧
    v.extractLsb' 0 3 = s.st.code ∧ s.st.code.toNat ≤ 4 ∧ v.getLsbD 3 = false ∧ v.extractLsb' 4 4 = s.sfill ∧
    v.getLsbD 8 = ((s.intStatus.getLsbD 0 && s.intEnable.getLsbD 0) || (s.intStatus.getLsbD 1 && s.intEnable.getLsbD 1)) ∧
    v.extractLsb' 9 3 = s.bim ∧ v.toNat / 4096 % 4 ≤ 2 ∧ v.toNat / 16384 = 0 ∧
    (s.st ≠ .error → (s.cfgMode ≠ 1#2 → v.toNat / 4096 % 4 = 0) ∧
      (s.cfgMode = 1#2 → s.bim.toNat ≤ 5 →
        v.toNat / 4096 % 4 = if s.bim.toNat ≤ 3 then 0 else s.bim.toNat - 3))

/-- R39, R44, R88: OUT_LEN and OUT_DATA show the stream in DONE, and 0 in every other state. -/
def Obligations.OutputReadsOnlyInDone : Prop :=
  ∀ s : State, ∃ v : Word, readsAs s 0x048 v ∧
    (s.st = .done → readsAs s 0x040 (BitVec.ofNat 32 s.olen) ∧
      ∀ k, k < 4 → v.extractLsb' (8 * k) 8 =
        if 4 * s.outIndex.toNat + k < s.olen then s.outByte (4 * s.outIndex.toNat + k) else 0#8) ∧
    (s.st ≠ .done → v = 0#32 ∧ readsAs s 0x040 0#32)

/-- R45: the fields of BITSTATE; outside ERROR at most 7 bits are pending, and the field holds nothing else. -/
def Obligations.BitstateFields : Prop :=
  ∀ s : State, ∃ v : Word, readsAs s 0x04C v ∧ v.extractLsb' 0 8 = s.acc ∧ v.extractLsb' 8 4 = s.nbits ∧
    v.getLsbD 12 = s.flushed ∧ v.toNat / 8192 = 0 ∧
    (s.Inv → s.st ≠ .error → s.nbits.toNat ≤ 7 ∧ s.acc.toNat < 2 ^ s.nbits.toNat)

/-- R234: in DONE, with OUT_INDEX written k / 4, OUT_DATA returns stream byte k in its byte k mod 4. -/
def Obligations.ReadoutReturnsStream : Prop :=
  ∀ (s : State) (k : Nat), s.st = .done → k < s.olen → k < 2 ^ 32 →
    ∃ t u, exec (.regWrite 0x044 0xF#4 (BitVec.ofNat 32 (k / 4))) s = .next t ∧ exec (.regRead 0x048 0xF#4) t = .next u ∧
      u.rdata.extractLsb' (8 * (k % 4)) 8 = s.outByte k ∧ u.st = .done ∧ u.olen = s.olen ∧ u.obuf = s.obuf

/-- R291: what every register and table entry reads after reset, and that no symbol has a code. -/
def Obligations.ResetValues : Prop :=
  (∀ x ∈ [(0x000, 0x4A504547#32), (0x004, 0x00010000#32), (0x00C, 0#32), (0x010, 0#32), (0x014, 0#32), (0x018, 0#32),
      (0x01C, 0#32), (0x020, 0#32), (0x024, 50#32), (0x028, 0#32), (0x02C, 0#32), (0x030, 0#32), (0x038, 0#32),
      (0x03C, 0#32), (0x040, 0#32), (0x044, 0#32), (0x048, 0#32), (0x04C, 0#32), (0x050, 0#32), (0x054, 0#32),
      (0x058, 0#32), (0x05C, BitVec.ofNat 32 Config.obufBytes)], readsAs State.reset x.1 x.2) ∧
    (∀ k, k < 64 → readsAs State.reset (0x100 + 4 * k) 0#32 ∧
      readsAs State.reset (0x200 + 4 * k) (BitVec.ofNat 32 (lumaBase.getD k 0)) ∧
      readsAs State.reset (0x300 + 4 * k) (BitVec.ofNat 32 (chromaBase.getD k 0))) ∧
    (∀ h : HTab, (∀ i, i < 16 → readsAs State.reset (htBase h + 4 * i) (BitVec.ofNat 32 ((defaultBits h).getD i 0))) ∧
      (∀ k, k < 256 → readsAs State.reset (htBase h + 0x400 + 4 * k) (BitVec.ofNat 32 ((defaultVals h).getD k 0))) ∧
      ∀ sym, codeFor State.reset.ehuf h sym = none)

/-! ## Commands (46_commands.md) -/

/-- R221: NOP changes nothing, in every state; a NOP word with another bit set is ILLEGAL_COMMAND outside ERROR. -/
def Obligations.NopChangesNothing : Prop :=
  (∀ s : State, exec .nop s = .next s) ∧
    ∀ (s : State) (w : Word) (rest : List BusEvent), w.toNat % 256 = 0 → w.toNat ≠ 0 → s.st ≠ .error →
      s.pending = .access (cmdWrite w) :: rest → step s = .next (errorEntry .illegalCommand w { s with pending := rest })

/-- R225: what ABORT clears, in every state; everything else is kept. Only ABORT, SOFT_RESET and reset leave ERROR. -/
def Obligations.AbortClears : Prop :=
  (∀ s : State, exec .abort s = .next { s with
    st := .idle, errCode := .none, errInfo := 0#32, olen := 0, sfill := 0#4, bim := 0#3, blkCount := 0#32, blkTotal := 0#32
    predY := 0#16, predCb := 0#16, predCr := 0#16, lastblk := Vector.replicate 64 0#16
    acc := 0#8, nbits := 0#4, flushed := false }) ∧
  ∀ s t : State, s.st = .error → step s = .next t → t.st ≠ .error → ∃ e rest, s.pending = e :: rest ∧
    (e = .reset ∨ e = .access (cmdWrite 4#32) ∨ e = .access (cmdWrite 5#32))

/-- R126, R223: QGEN in IDLE writes every entry of QT0 and QT1 and QCLAMP, and changes nothing else; with the corner cases of
R126: QUALITY 50 gives the base tables, 100 and more all ones, 0 and 1 all 255. -/
def Obligations.QgenGeneratesTables : Prop :=
  ∀ s : State, s.st = .idle → Memory.wf .tables s.tables = true →
    let qual := max 1 (min 100 s.quality.toNat)
    let scale := if qual < 50 then 5000 / qual else 200 - 2 * qual
    ∃ t, exec .qgen s = .next t ∧
      t = { s with
        tables := t.tables
        flags := if s.quality.toNat < 1 ∨ 100 < s.quality.toNat then s.flags ||| 1#2 else s.flags } ∧
      (∀ i, i < 64 → (t.qt .qt0 i).toNat = max 1 (min 255 ((lumaBase.getD i 0 * scale + 50) / 100)) ∧
        (t.qt .qt1 i).toNat = max 1 (min 255 ((chromaBase.getD i 0 * scale + 50) / 100)) ∧
        (s.quality.toNat = 50 → (t.qt .qt0 i).toNat = lumaBase.getD i 0 ∧ (t.qt .qt1 i).toNat = chromaBase.getD i 0) ∧
        (100 ≤ s.quality.toNat → t.qt .qt0 i = 1#8 ∧ t.qt .qt1 i = 1#8) ∧
        (s.quality.toNat ≤ 1 → t.qt .qt0 i = 255#8 ∧ t.qt .qt1 i = 255#8)) ∧
      ∀ a, a < 0x200 ∨ 0x400 ≤ a → t.table a = s.table a

/-- R224: HDEFAULT in IDLE loads the default Huffman tables, and changes nothing else. -/
def Obligations.HdefaultLoadsDefaults : Prop :=
  ∀ s : State, s.st = .idle → Memory.wf .tables s.tables = true →
    ∃ t, exec .hdefault s = .next t ∧ t = { s with tables := t.tables } ∧
      (∀ h : HTab, (∀ len, 1 ≤ len → len ≤ 16 → (t.htBits h len).toNat = (defaultBits h).getD (len - 1) 0) ∧
        ∀ k, k < 256 → (t.htVal h k).toNat = (defaultVals h).getD k 0) ∧
      ∀ a, a < 0x1000 → t.table a = s.table a

/-- R229: the accesses that raise STATE_VIOLATION, with STATE and OPC in ERR_INFO. -/
def Obligations.StateViolations : Prop :=
  ∀ s : State, s.st ≠ .error →
    (s.st ≠ .idle → ∀ x ∈ [(Instr.start, 0x01), (.qgen, 0x02), (.hdefault, 0x03)],
      exec x.1 s = .next (errorEntry .stateViolation (BitVec.ofNat 32 (256 * s.st.code.toNat + x.2)) s)) ∧
    (s.st ≠ .raw → (∀ (len : BitVec 5) (v : BitVec 16), len.toNat ≤ 16 →
        exec (.rawbits len v) s = .next (errorEntry .stateViolation (BitVec.ofNat 32 (256 * s.st.code.toNat + 0x10)) s)) ∧
      exec .rawflush s = .next (errorEntry .stateViolation (BitVec.ofNat 32 (256 * s.st.code.toNat + 0x11)) s)) ∧
    (s.st ≠ .scan → ∀ w : Word,
      exec (.sampleWrite w) s = .next (errorEntry .stateViolation (BitVec.ofNat 32 (256 * s.st.code.toNat + 0xFF)) s))

/-! ## Errors and interrupts (60_exceptions.md) -/

/-- R265: what error entry does, and what it leaves unchanged (the model's own `rdata` and `pending` too: log 10, log 1). -/
def Obligations.ErrorEntryEffect : Prop :=
  ∀ (e : ErrorCode) (info : Word) (s t : State), t = errorEntry e info s →
    t.errCode = e ∧ t.errInfo = info ∧ t.olen = 0 ∧ t.st = .error ∧ t.intStatus = s.intStatus ||| 2#2 ∧
    sameConfig s t ∧ t.intEnable = s.intEnable ∧ t.flags = s.flags ∧ t.outIndex = s.outIndex ∧
    t.rdata = s.rdata ∧ t.pending = s.pending ∧ readsAs t 0x040 0#32 ∧ readsAs t 0x048 0#32 ∧ readsAs t 0x014 info ∧
    readsAs t 0x010 (e.code.setWidth 32)

/-- R266: in ERROR every command word but NOP, ABORT and SOFT_RESET and every SAMPLE write is ignored with ACCERR. -/
def Obligations.ErrorIgnoresCommands : Prop :=
  ∀ (s : State) (w : Word) (rest : List BusEvent), s.st = .error →
    (s.pending = .access (cmdWrite w) :: rest → w ≠ 0#32 → w ≠ 4#32 → w ≠ 5#32 →
      step s = .next { s with pending := rest, flags := s.flags ||| 2#2 }) ∧
    (s.pending = .access (.write sampleOffset 0xF#4 w) :: rest →
      step s = .next { s with pending := rest, flags := s.flags ||| 2#2 })

/-- R265, R266, R267: while the core stays in ERROR, the first error and the unspecified datapath state stay as they are;
ERROR is left only to IDLE, by ABORT, SOFT_RESET or reset. -/
def Obligations.ErrorIsSticky : Prop :=
  ∀ s t : State, s.st = .error → step s = .next t →
    (t.st = .error ∧ t.errCode = s.errCode ∧ t.errInfo = s.errInfo ∧ sameDatapath s t ∧ t.olen = s.olen) ∨
    (t.st = .idle ∧ t.errCode = .none ∧ t.errInfo = 0#32 ∧
      ∃ e rest, s.pending = e :: rest ∧ (e = .reset ∨ e = .access (cmdWrite 4#32) ∨ e = .access (cmdWrite 5#32)))

/-- R270, R264: a step sets DONE exactly on entering DONE and ERROR exactly on entering ERROR, never both, and only a write
to INT_STATUS or a reset clears them. -/
def Obligations.InterruptSources : Prop :=
  ∀ s t : State, step s = .next t →
    (t.intStatus.getLsbD 0 = true → s.intStatus.getLsbD 0 = true ∨ (s.st ≠ .done ∧ t.st = .done)) ∧
    (t.intStatus.getLsbD 1 = true → s.intStatus.getLsbD 1 = true ∨ (s.st ≠ .error ∧ t.st = .error)) ∧
    (s.st ≠ .done → t.st = .done → t.intStatus = s.intStatus ||| 1#2) ∧
    (s.st ≠ .error → t.st = .error → t.intStatus = s.intStatus ||| 2#2) ∧
    (∀ i, i < 2 → s.intStatus.getLsbD i = true → t.intStatus.getLsbD i = false → ∃ e rest, s.pending = e :: rest ∧
      (e = .reset ∨ e = .access (cmdWrite 5#32) ∨ ∃ v : Word, v.getLsbD i = true ∧ e = .access (.write 0x028 0xF#4 v)))

/-! ## Start (45_framer.md R186..R194) -/

/-- R194: START in test mode enters RAW with the datapath cleared; nothing is checked and nothing else changes. -/
def Obligations.StartEntersRaw : Prop :=
  ∀ s : State, s.st = .idle → s.cfgTest = true → exec .start s = .next { s with
    st := .raw, blkTotal := 0#32, blkCount := 0#32, bim := 0#3, sfill := 0#4
    predY := 0#16, predCb := 0#16, predCr := 0#16, lastblk := Vector.replicate 64 0#16
    acc := 0#8, nbits := 0#4, flushed := false, olen := 0 }

/-- R186, R262, R264: the checks of START in order, the first that fails raising its error with its detail. -/
def Obligations.StartRejects : Prop :=
  ∀ s : State, s.st = .idle → s.cfgTest = false →
    let quants := if s.cfgMode = 1#2 then [QTab.qt0, .qt1] else [.qt0]
    let huffs := if s.cfgMode = 1#2 then [HTab.dc0, .ac0, .dc1, .ac1] else [.dc0, .ac0]
    (2 ≤ s.cfgMode.toNat → exec .start s = .next (errorEntry .unsupportedFormat (s.cfgMode.setWidth 32) s)) ∧
    (s.cfgMode.toNat ≤ 1 → s.width = 0#16 ∨ s.height = 0#16 →
      exec .start s = .next (errorEntry .invalidArgument
        (BitVec.ofNat 32 ((if s.width = 0#16 then 1 else 0) + (if s.height = 0#16 then 2 else 0))) s)) ∧
    (s.cfgMode.toNat ≤ 1 → s.width ≠ 0#16 → s.height ≠ 0#16 →
      (∀ t i, t ∈ quants → i < 64 → s.qt t i = 0#8 → (∀ j, j < i → s.qt t j ≠ 0#8) →
        (∀ t' j, t'.index < t.index → j < 64 → s.qt t' j ≠ 0#8) →
        exec .start s = .next (errorEntry .invalidQtable (BitVec.ofNat 32 (256 * t.index + i)) s)) ∧
      ((∀ t i, t ∈ quants → i < 64 → s.qt t i ≠ 0#8) → ∀ h, h ∈ huffs → ¬ s.validTable h →
        (∀ h' : HTab, h'.index < h.index → s.validTable h') →
        ∃ reason, exec .start s = .next (errorEntry .invalidHtable (BitVec.ofNat 32 (256 * h.index + reason)) s) ∧
          (reason = 1 ∨ reason = 2 ∨ reason = 3) ∧ (reason = 1 ↔ 256 < s.symbolCount h) ∧
          (reason = 2 → ∃ len, 1 ≤ len ∧ len ≤ 16 ∧ 2 ^ len < s.codeSpace h len) ∧
          (reason = 3 → ¬ ((List.range (s.symbolCount h)).map (s.htVal h)).Nodup)))

/-- R150, R151: build succeeds exactly on the valid tables. -/
def Obligations.BuildSucceedsOnValidTables : Prop :=
  ∀ (s : State) (h : HTab), (∃ l, buildTable s h = .ok l) ↔ s.validTable h

/-- R151, R152: the codes build gives. The i-th symbol of length L has the code "first code of length L" + i, where the first
code of a length is twice what the shorter lengths took; each symbol of the list, and no other, has a code; lengths are 1 to
16, codes fit them, and no code is a prefix of another. -/
def Obligations.BuiltCodesAreCanonical : Prop :=
  ∀ (s : State) (h : HTab) (l : List HuffEntry), buildTable s h = .ok l →
    (∀ len i, 1 ≤ len → len ≤ 16 → i < (s.htBits h len).toNat →
      (⟨s.htVal h (((List.range (len - 1)).map fun j => (s.htBits h (j + 1)).toNat).sum + i),
        BitVec.ofNat 16 (2 * s.codeSpace h (len - 1) + i), len⟩ : HuffEntry) ∈ l) ∧
    l.length = s.symbolCount h ∧ (l.map HuffEntry.sym).Nodup ∧
    (∀ sym, (∃ x ∈ l, x.sym = sym) ↔ ∃ k, k < s.symbolCount h ∧ s.htVal h k = sym) ∧
    (∀ x ∈ l, 1 ≤ x.len ∧ x.len ≤ 16 ∧ x.code.toNat < 2 ^ x.len) ∧
    ∀ x ∈ l, ∀ y ∈ l, x.sym ≠ y.sym → x.len ≤ y.len → y.code.toNat / 2 ^ (y.len - x.len) ≠ x.code.toNat

/-- R187, R188: START with every check passed initialises the scan, builds the code tables in use, writes the header and
enters SCAN, or raises OUTPUT_OVERFLOW with 0 where the header does not fit. -/
def Obligations.StartEntersScan : Prop :=
  ∀ s : State, s.st = .idle → s.cfgTest = false → s.cfgMode.toNat ≤ 1 → s.width ≠ 0#16 → s.height ≠ 0#16 →
    Memory.wf .output s.obuf = true →
    let huffs := if s.cfgMode = 1#2 then [HTab.dc0, .ac0, .dc1, .ac1] else [.dc0, .ac0]
    (∀ t i, t ∈ (if s.cfgMode = 1#2 then [QTab.qt0, .qt1] else [.qt0]) → i < 64 → s.qt t i ≠ 0#8) →
    (∀ h, h ∈ huffs → s.validTable h) →
    (s.headerBytes.length ≤ Config.obufBytes → ∃ t, exec .start s = .next t ∧
      t = { s with
        st := .scan, blkCount := 0#32, bim := 0#3, sfill := 0#4
        blkTotal := BitVec.ofNat 32 (if s.cfgMode = 1#2
          then ((s.width.toNat + 15) / 16) * ((s.height.toNat + 15) / 16) * 6
          else ((s.width.toNat + 7) / 8) * ((s.height.toNat + 7) / 8))
        predY := 0#16, predCb := 0#16, predCr := 0#16, lastblk := Vector.replicate 64 0#16
        acc := 0#8, nbits := 0#4, flushed := false
        ehuf := t.ehuf, obuf := t.obuf, olen := s.headerBytes.length } ∧
      (∀ h, h ∈ huffs → buildTable s h = .ok (t.ehuf.get h)) ∧ (∀ h, h ∉ huffs → t.ehuf.get h = s.ehuf.get h) ∧
      t.holdsAt 0 s.headerBytes) ∧
    (Config.obufBytes < s.headerBytes.length → exec .start s = .next (errorEntry .outputOverflow 0#32 s))

/-- R197: the length of the header. -/
def Obligations.HeaderLength : Prop :=
  (∀ s : State, s.cfgMode = 0#2 → s.headerBytes.length =
    2 + 18 + 69 + 13 + (21 + s.symbolCount .dc0) + (21 + s.symbolCount .ac0) + 10) ∧
  (∀ s : State, s.cfgMode = 1#2 → s.headerBytes.length = 2 + 18 + 2 * 69 + 19 + ((21 + s.symbolCount .dc0) +
    (21 + s.symbolCount .ac0) + (21 + s.symbolCount .dc1) + (21 + s.symbolCount .ac1)) + 14) ∧
  State.reset.headerBytes.length = 328 ∧ ({ State.reset with cfgMode := 1#2 } : State).headerBytes.length = 623

/-- R201..R206, R209 in grayscale: the bytes of the header at their positions. -/
def Obligations.GrayHeader : Prop :=
  ∀ s : State, s.cfgMode = 0#2 →
    let byte := fun j => s.headerBytes.getD j 0#8
    let n0 := s.symbolCount .dc0
    let n1 := s.symbolCount .ac0
    s.headerBytes.take 25 = [0xFF, 0xD8, 0xFF, 0xE0, 0x00, 0x10, 0x4A, 0x46, 0x49, 0x46, 0x00, 0x01, 0x01, 0x00, 0x00, 0x01,
      0x00, 0x01, 0x00, 0x00, 0xFF, 0xDB, 0x00, 0x43, 0x00] ∧
    (∀ k, k < 64 → byte (25 + k) = s.qt .qt0 (zigzagOrder.getD k 0)) ∧
    (s.headerBytes.drop 89).take 13 = [0xFF, 0xC0, 0x00, 0x0B, 0x08, s.height.extractLsb' 8 8, s.height.extractLsb' 0 8,
      s.width.extractLsb' 8 8, s.width.extractLsb' 0 8, 0x01, 0x01, 0x11, 0x00] ∧
    (s.headerBytes.drop 102).take 5 = [0xFF, 0xC4, BitVec.ofNat 8 ((19 + n0) / 256), BitVec.ofNat 8 (19 + n0), 0x00] ∧
    (∀ len, 1 ≤ len → len ≤ 16 → byte (106 + len) = s.htBits .dc0 len) ∧
    (∀ k, k < n0 → byte (123 + k) = s.htVal .dc0 k) ∧
    (s.headerBytes.drop (123 + n0)).take 5 = [0xFF, 0xC4, BitVec.ofNat 8 ((19 + n1) / 256), BitVec.ofNat 8 (19 + n1), 0x10] ∧
    (∀ len, 1 ≤ len → len ≤ 16 → byte (127 + n0 + len) = s.htBits .ac0 len) ∧
    (∀ k, k < n1 → byte (144 + n0 + k) = s.htVal .ac0 k) ∧
    s.headerBytes.drop (144 + n0 + n1) = [0xFF, 0xDA, 0x00, 0x08, 0x01, 0x01, 0x00, 0x00, 0x3F, 0x00]

/-- R201..R206, R209 in color: the bytes of the header at their positions. -/
def Obligations.ColorHeader : Prop :=
  ∀ s : State, s.cfgMode = 1#2 →
    let byte := fun j => s.headerBytes.getD j 0#8
    let pos := fun h : HTab => match h with
      | .dc0 => 177
      | .ac0 => 198 + s.symbolCount .dc0
      | .dc1 => 219 + s.symbolCount .dc0 + s.symbolCount .ac0
      | .ac1 => 240 + s.symbolCount .dc0 + s.symbolCount .ac0 + s.symbolCount .dc1
    s.headerBytes.take 25 = [0xFF, 0xD8, 0xFF, 0xE0, 0x00, 0x10, 0x4A, 0x46, 0x49, 0x46, 0x00, 0x01, 0x01, 0x00, 0x00, 0x01,
      0x00, 0x01, 0x00, 0x00, 0xFF, 0xDB, 0x00, 0x43, 0x00] ∧
    (∀ k, k < 64 → byte (25 + k) = s.qt .qt0 (zigzagOrder.getD k 0)) ∧
    (s.headerBytes.drop 89).take 5 = [0xFF, 0xDB, 0x00, 0x43, 0x01] ∧
    (∀ k, k < 64 → byte (94 + k) = s.qt .qt1 (zigzagOrder.getD k 0)) ∧
    (s.headerBytes.drop 158).take 19 = [0xFF, 0xC0, 0x00, 0x11, 0x08, s.height.extractLsb' 8 8, s.height.extractLsb' 0 8,
      s.width.extractLsb' 8 8, s.width.extractLsb' 0 8, 0x03, 0x01, 0x22, 0x00, 0x02, 0x11, 0x01, 0x03, 0x11, 0x01] ∧
    (∀ h : HTab, (s.headerBytes.drop (pos h)).take 5 = [0xFF, 0xC4, BitVec.ofNat 8 ((19 + s.symbolCount h) / 256),
        BitVec.ofNat 8 (19 + s.symbolCount h), BitVec.ofNat 8 (16 * (h.index % 2) + h.index / 2)] ∧
      (∀ len, 1 ≤ len → len ≤ 16 → byte (pos h + 4 + len) = s.htBits h len) ∧
      ∀ k, k < s.symbolCount h → byte (pos h + 21 + k) = s.htVal h k) ∧
    s.headerBytes.drop (pos .ac1 + 21 + s.symbolCount .ac1) =
      [0xFF, 0xDA, 0x00, 0x0C, 0x03, 0x01, 0x00, 0x02, 0x11, 0x03, 0x11, 0x00, 0x3F, 0x00]

/-! ## RAW mode and the bit packer (44_bitwriter.md) -/

/-- R172, R173: RAWBITS in RAW appends the low n bits of v to the pending bits; whole bytes go out, stuffed, and the rest
stays pending. Nothing else changes. R170, R262: without the room for them it is OUTPUT_OVERFLOW with BLK_COUNT, 0 in RAW. -/
def Obligations.RawbitsPacksBits : Prop :=
  ∀ (s : State) (len : BitVec 5) (v : BitVec 16), s.st = .raw → s.Inv → len.toNat ≤ 16 →
    let cut := cutBytes (s.pendingBits ++ lowBits v len.toNat)
    (s.olen + (stuffed cut.1).length ≤ Config.obufBytes → ∃ t, exec (.rawbits len v) s = .next t ∧
      t = { s with obuf := t.obuf, olen := t.olen, acc := t.acc, nbits := t.nbits } ∧
      s.appends t (stuffed cut.1) ∧ t.pendingBits = cut.2 ∧ t.nbits.toNat ≤ 7 ∧ t.acc.toNat < 2 ^ t.nbits.toNat) ∧
    (Config.obufBytes < s.olen + (stuffed cut.1).length →
      exec (.rawbits len v) s = .next (errorEntry .outputOverflow 0#32 s))

/-- R173: two RAWBITS in a row leave what one RAWBITS of both bit strings leaves. -/
def Obligations.RawbitsConcatenate : Prop :=
  ∀ (s t u : State) (m n : Nat) (a b : BitVec 16), m + n ≤ 16 → b.toNat < 2 ^ n → s.st = .raw →
    exec (.rawbits (BitVec.ofNat 5 m) a) s = .next t → t.st = .raw →
    exec (.rawbits (BitVec.ofNat 5 n) b) t = .next u → u.st = .raw →
    exec (.rawbits (BitVec.ofNat 5 (m + n)) (BitVec.ofNat 16 (a.toNat * 2 ^ n + b.toNat))) s = .next u

/-- R174, R228: RAWFLUSH in RAW pads the pending bits with 1-bits to a byte, outputs it stuffed, and enters DONE; or
OUTPUT_OVERFLOW for want of room (R170). -/
def Obligations.RawflushFinishes : Prop :=
  ∀ s : State, s.st = .raw → s.Inv →
    let out := if s.nbits = 0#4 then [] else
      stuffed [byteOfBits (s.pendingBits ++ List.replicate (8 - s.nbits.toNat) true)]
    (s.olen + out.length ≤ Config.obufBytes → ∃ t, exec .rawflush s = .next t ∧
      t = { s with
        obuf := t.obuf, olen := t.olen, acc := 0#8, nbits := 0#4, flushed := true, st := .done
        intStatus := s.intStatus ||| 1#2 } ∧
      s.appends t out) ∧
    (Config.obufBytes < s.olen + out.length → exec .rawflush s = .next (errorEntry .outputOverflow 0#32 s))

/-! ## Samples and blocks (45_framer.md R189..R191) -/

/-- R87, R230: a SAMPLE write in SCAN before the sixteenth stores four samples and counts, and changes nothing else. -/
def Obligations.SampleStored : Prop :=
  ∀ (s : State) (w : Word), s.st = .scan → s.sfill.toNat < 15 →
    ∃ t, exec (.sampleWrite w) s = .next t ∧ t = { s with ibuf := t.ibuf, sfill := s.sfill + 1#4 } ∧
      ∀ m : Fin 64, t.ibuf[m] =
        if m.val / 4 = s.sfill.toNat then BitVec.ofNat 8 (w.toNat / 2 ^ (8 * (m.val % 4))) else s.ibuf[m]

/-- R189, R190: the sixteenth SAMPLE write of a block that is not the last, all of whose symbols have codes: LASTBLK and the
predictor, the bits of the symbols behind the pending ones, the counters; nothing else changes. R170, R262: without the room
for the bits it is OUTPUT_OVERFLOW with BLK_COUNT. What `blockScan` and `blockSymbols` say is in Safety.lean. Which
integer Z takes at a near-tie is the model's free value of the samples (log 4). -/
def Obligations.BlockCoded : Prop :=
  ∀ (s : State) (w : Word), s.st = .scan → s.Inv → s.sfill = 15#4 → s.blkCount.toNat + 1 < s.blkTotal.toNat →
    let z := s.blockScan w
    let syms := s.blockSymbols z
    let cut := cutBytes (s.pendingBits ++ codedAll s.ehuf syms)
    codesDefined s.ehuf syms →
    (s.olen + (stuffed cut.1).length ≤ Config.obufBytes → ∃ t, exec (.sampleWrite w) s = .next t ∧
      t = { s with
        ibuf := t.ibuf, sfill := 0#4, lastblk := t.lastblk
        predY := if s.blockComp = .y then BitVec.ofInt 16 (z.headD 0) else s.predY
        predCb := if s.blockComp = .cb then BitVec.ofInt 16 (z.headD 0) else s.predCb
        predCr := if s.blockComp = .cr then BitVec.ofInt 16 (z.headD 0) else s.predCr
        blkCount := s.blkCount + 1#32
        bim := if s.cfgMode = 1#2 then BitVec.ofNat 3 ((s.bim.toNat + 1) % 6) else 0#3
        obuf := t.obuf, olen := t.olen, acc := t.acc, nbits := t.nbits } ∧
      (∀ m : Fin 64, t.ibuf[m] =
        if m.val < 60 then s.ibuf[m] else BitVec.ofNat 8 (w.toNat / 2 ^ (8 * (m.val % 4)))) ∧
      (∀ k : Fin 64, t.lastblk[k].toInt = z.getD k 0) ∧ s.appends t (stuffed cut.1) ∧ t.pendingBits = cut.2) ∧
    (Config.obufBytes < s.olen + (stuffed cut.1).length →
      exec (.sampleWrite w) s = .next (errorEntry .outputOverflow s.blkCount s))

/-- R189, R191: the sixteenth SAMPLE write of the last block, all of whose symbols have codes, codes it, pads and outputs the
pending bits, appends EOI and enters DONE; nothing else changes. R170, R262: without the room for the block's bits it is
OUTPUT_OVERFLOW with BLK_COUNT, and without the room for the padded byte and EOI with BLK_COUNT as the block left it,
BLK_TOTAL. Which integer Z takes at a near-tie is the model's free value of the samples (log 4). -/
def Obligations.LastBlockEndsStream : Prop :=
  ∀ (s : State) (w : Word), s.st = .scan → s.Inv → s.sfill = 15#4 → s.blkCount.toNat + 1 = s.blkTotal.toNat →
    let z := s.blockScan w
    let syms := s.blockSymbols z
    let cut := cutBytes (s.pendingBits ++ codedAll s.ehuf syms)
    let out := stuffed (cut.1 ++ if cut.2 = [] then [] else [byteOfBits (cut.2 ++ List.replicate (8 - cut.2.length) true)]) ++
      [0xFF#8, 0xD9#8]
    codesDefined s.ehuf syms →
    (s.olen + out.length ≤ Config.obufBytes → ∃ t, exec (.sampleWrite w) s = .next t ∧
      t = { s with
        st := .done, intStatus := s.intStatus ||| 1#2
        ibuf := t.ibuf, sfill := 0#4, lastblk := t.lastblk
        predY := if s.blockComp = .y then BitVec.ofInt 16 (z.headD 0) else s.predY
        predCb := if s.blockComp = .cb then BitVec.ofInt 16 (z.headD 0) else s.predCb
        predCr := if s.blockComp = .cr then BitVec.ofInt 16 (z.headD 0) else s.predCr
        blkCount := s.blkTotal, bim := 0#3
        obuf := t.obuf, olen := t.olen, acc := 0#8, nbits := 0#4, flushed := true } ∧
      (∀ m : Fin 64, t.ibuf[m] =
        if m.val < 60 then s.ibuf[m] else BitVec.ofNat 8 (w.toNat / 2 ^ (8 * (m.val % 4)))) ∧
      (∀ k : Fin 64, t.lastblk[k].toInt = z.getD k 0) ∧ s.appends t out) ∧
    (Config.obufBytes < s.olen + (stuffed cut.1).length →
      exec (.sampleWrite w) s = .next (errorEntry .outputOverflow s.blkCount s)) ∧
    (s.olen + (stuffed cut.1).length ≤ Config.obufBytes → Config.obufBytes < s.olen + out.length →
      exec (.sampleWrite w) s = .next (errorEntry .outputOverflow s.blkTotal s))

/-- R153, R158, R262: the first symbol of a block without a code, be it the DC category, EOB, ZRL or a composite, raises
UNDEFINED_SYMBOL with block, table and symbol; unless the bits before it had no room, which is OUTPUT_OVERFLOW (R264). Which
integer Z takes at a near-tie is the model's free value of the samples (log 4). -/
def Obligations.UndefinedSymbolRaises : Prop :=
  ∀ (s : State) (w : Word) (pre post : List CodedSym) (x : CodedSym), s.st = .scan → s.Inv → s.sfill = 15#4 →
    s.blockSymbols (s.blockScan w) = pre ++ x :: post →
    codesDefined s.ehuf pre → codeFor s.ehuf x.table x.sym = none →
    let cut := cutBytes (s.pendingBits ++ codedAll s.ehuf pre)
    (s.olen + (stuffed cut.1).length ≤ Config.obufBytes →
      exec (.sampleWrite w) s = .next (errorEntry .undefinedSymbol
        (BitVec.ofNat 32 (s.blkCount.toNat % 65536 * 65536 + 256 * x.table.index + x.sym.toNat)) s)) ∧
    (Config.obufBytes < s.olen + (stuffed cut.1).length →
      exec (.sampleWrite w) s = .next (errorEntry .outputOverflow s.blkCount s))

/-! ## Transform and quantizer (40_transform.md, 41_quantizer.md) -/

/-- R104, R116: the DC coefficient is S / 8 exactly, and its quantization is floor(S / (8·q0) + 1/2). -/
def Obligations.DcIsExact : Prop :=
  ∀ (samples : List Byte) (q : Nat → Nat), samples.length = 64 → 1 ≤ q 0 →
    let s := samples.map levelShift
    dctCoef s 0 = (s.sum : ℝ) / 8 ∧ quantCoef s q 0 = ⌊(s.sum : ℝ) / (8 * q 0) + 1 / 2⌋

/-- R105, R108, R117: the 64 samples alone fix one F' within DCT_EPS of the coefficient of R102, and with any table the AC
result is floor(F'/q + 1/2); and every such F' is what one value of the free choice stands for, again with any table. That a
Boolean stands for F', and the rational bound of `quantAc`, are the model's choice (log 4). -/
def Obligations.AcIsAdmitted : Prop :=
  ∀ (samples : List Byte) (n : Nat), samples.length = 64 → 1 ≤ n → n < 64 →
    let s := samples.map levelShift
    (∃ F' : ℝ, |F' - dctCoef s n| ≤ dctEps ∧ ∀ q : Nat → Nat, 1 ≤ q n → quantCoef s q n = ⌊F' / q n + 1 / 2⌋) ∧
    ∀ F' : ℝ, |F' - dctCoef s n| ≤ dctEps →
      ∃ up : Bool, ∀ q : Nat, 1 ≤ q → quantAc (coefTimes16 s n) q up = ⌊F' / q + 1 / 2⌋

/-- R118: the ranges of the quantized coefficients. -/
def Obligations.QuantizedRanges : Prop :=
  ∀ (samples : List Byte) (q : Nat → Nat) (n : Nat), samples.length = 64 → n < 64 → 1 ≤ q n →
    let c := quantCoef (samples.map levelShift) q n
    (n = 0 → -1024 ≤ c ∧ c ≤ 1016) ∧ (n ≠ 0 → -1024 ≤ c ∧ c ≤ 1020)

/-- R106 (a): a constant block has the DC coefficient 8·K and no AC coefficient, before and after quantization. -/
def Obligations.ConstantBlock : Prop :=
  ∀ (b : Byte) (q : Nat → Nat) (n : Nat), n < 64 → (∀ i, 1 ≤ q i) →
    let s := (List.replicate 64 b).map levelShift
    dctCoef s n = (if n = 0 then 8 * (levelShift b : ℝ) else 0) ∧ (n ≠ 0 → quantCoef s q n = 0)

/-! ## Zigzag and run lengths (42_zigzag_rle.md) -/

/-- R135, R137: ZZ is a bijection of 0..63 with the inverse IZZ as listed, position 0 is (0,0) and position 63 is (7,7). -/
def Obligations.ZigzagIsBijection : Prop :=
  let izz := [0, 1, 5, 6, 14, 15, 27, 28, 2, 4, 7, 13, 16, 26, 29, 42, 3, 8, 12, 17, 25, 30, 41, 43, 9, 11, 18, 24, 31, 40, 44, 53] ++
    [10, 19, 23, 32, 39, 45, 52, 54, 20, 22, 33, 38, 46, 51, 55, 60, 21, 34, 37, 47, 50, 56, 59, 61, 35, 36, 48, 49, 57, 58, 62, 63]
  zigzagOrder.length = 64 ∧ (∀ k, k < 64 → izz.getD (zigzagOrder.getD k 99) 99 = k) ∧
    (∀ n, n < 64 → zigzagOrder.getD (izz.getD n 99) 99 = n) ∧ zigzagOrder.getD 0 99 = 0 ∧ zigzagOrder.getD 63 99 = 63

/-- R138, R139, R142: the symbols of a block stand for exactly its 63 AC coefficients. -/
def Obligations.RleExpandsBack : Prop := ∀ ac : List Int, ac.length = 63 → expandRle (rle ac) = ac

/-- R139, R140, R141: EOB stands at the end exactly when the last coefficient is zero, and nowhere else; a block of zeros is
one EOB; runs are at most 15 and values nonzero; a ZRL is never the last symbol, nor before an EOB. -/
def Obligations.RleSymbolRules : Prop :=
  ∀ ac : List Int, ac.length = 63 →
    (ac.getD 62 0 = 0 → ∃ l, rle ac = l ++ [.eob] ∧ RleSym.eob ∉ l ∧ l.getLast? ≠ some .zrl) ∧
    (ac.getD 62 0 ≠ 0 → RleSym.eob ∉ rle ac ∧ (rle ac).getLast? ≠ some .zrl) ∧
    ((∀ v ∈ ac, v = 0) → rle ac = [.eob]) ∧
    (∀ run v, RleSym.rv run v ∈ rle ac → run ≤ 15 ∧ v ≠ 0 ∧ v ∈ ac) ∧ 1 ≤ (rle ac).length ∧ (rle ac).length ≤ 63

/-! ## Huffman coding (43_huffman.md) -/

/-- R154, R155: category is the number of bits of |v|; the value bits are v, or v + 2^c − 1 for a negative v, which are the
complement of the bits of |v|. -/
def Obligations.CategoryAndValueBits : Prop :=
  (∀ v : Int, (v = 0 → category v = 0) ∧
    (v ≠ 0 → 2 ^ (category v - 1) ≤ v.natAbs ∧ v.natAbs ≤ 2 ^ category v - 1)) ∧
  ∀ v : Int, v ≠ 0 → category v ≤ 16 →
    (0 < v → (valueBits v : Int) = v ∧ (lowBits (BitVec.ofNat 16 (valueBits v)) (category v)).head? = some true) ∧
    (v < 0 → (valueBits v : Int) = v + 2 ^ category v - 1 ∧
      lowBits (BitVec.ofNat 16 (valueBits v)) (category v) =
        (lowBits (BitVec.ofNat 16 v.natAbs) (category v)).map (!·))

/-- R163: the default tables build, define the symbols of R156 and R158, give no code of all 1-bits and none shorter than 2;
the longest codes, and those of EOB and ZRL. -/
def Obligations.DefaultTablesComplete : Prop :=
  ∀ h : HTab, ∃ l, buildTable State.reset h = .ok l ∧
    (∀ x ∈ l, 2 ≤ x.len ∧ x.code.toNat + 1 < 2 ^ x.len) ∧
    (∀ sym : Byte, (∃ x ∈ l, x.sym = sym) ↔
      if h = .dc0 ∨ h = .dc1 then sym.toNat ≤ 11
      else sym = 0x00#8 ∨ sym = 0xF0#8 ∨ 1 ≤ sym.toNat % 16 ∧ sym.toNat % 16 ≤ 10) ∧
    match h with
    | .dc0 => ⟨0x0B#8, 0b111111110#16, 9⟩ ∈ l ∧ ∀ x ∈ l, x.len ≤ 9
    | .dc1 => ⟨0x0B#8, 0b11111111110#16, 11⟩ ∈ l ∧ ∀ x ∈ l, x.len ≤ 11
    | .ac0 => (∃ x ∈ l, x.code = 0xFFFE#16 ∧ x.len = 16) ∧ ⟨0x00#8, 0b1010#16, 4⟩ ∈ l ∧ ⟨0xF0#8, 0b11111111001#16, 11⟩ ∈ l
    | .ac1 => (∃ x ∈ l, x.code = 0xFFFE#16 ∧ x.len = 16) ∧ ⟨0x00#8, 0b00#16, 2⟩ ∈ l ∧ ⟨0xF0#8, 0b1111111010#16, 10⟩ ∈ l

/-! ## Whole-machine rules -/

/-- Every step keeps the invariant of runs. -/
def Obligations.StepKeepsInvariant : Prop := ∀ s t : State, s.Inv → step s = .next t → t.Inv

/-- The state after reset has the invariant. -/
def Obligations.ResetMeetsInvariant : Prop := State.reset.Inv

/-- R10: every access has an outcome: in a state with the invariant the machine never stops. -/
def Obligations.InvariantNeverStops : Prop := ∀ s : State, s.Inv → ∃ t, step s = .next t

/-- R207: in SCAN and RAW every 0xFF of the entropy-coded bytes is followed by 0x00, and every step keeps it so. -/
def Obligations.StepKeepsStuffing : Prop :=
  (∀ s t : State, s.Inv → s.Stuffed → step s = .next t → t.Stuffed) ∧ State.reset.Stuffed

/-- R71, R195: the core only appends to the output, or discards all of it; a finished stream stays as it is. -/
def Obligations.OutputOnlyGrows : Prop :=
  ∀ s t : State, s.Inv → step s = .next t →
    (t.olen = 0 ∨ (s.olen ≤ t.olen ∧ ∀ j, j < s.olen → t.outByte j = s.outByte j)) ∧
    (s.st = .done → t.st = .done → t.olen = s.olen ∧ t.obuf = s.obuf)

/-- R185: the transitions of STATE. -/
def Obligations.FramerTransitions : Prop :=
  ∀ s t : State, step s = .next t → t.st ≠ s.st → ∃ e rest, s.pending = e :: rest ∧
    ((s.st = .idle ∧ t.st = .scan ∧ e = .access (cmdWrite 1#32) ∧ s.cfgTest = false) ∨
     (s.st = .idle ∧ t.st = .raw ∧ e = .access (cmdWrite 1#32) ∧ s.cfgTest = true) ∨
     (s.st = .scan ∧ t.st = .done ∧ s.sfill = 15#4 ∧ s.blkCount + 1#32 = s.blkTotal ∧
       ∃ w, e = .access (.write sampleOffset 0xF#4 w)) ∨
     (s.st = .raw ∧ t.st = .done ∧ e = .access (cmdWrite 0x11#32)) ∨
     (s.st ≠ .error ∧ t.st = .error ∧ t.errCode ≠ .none) ∨
     (t.st = .idle ∧ (e = .reset ∨ e = .access (cmdWrite 4#32) ∨ e = .access (cmdWrite 5#32))))

/-- R66, R75, R297: during an encode no step changes the configuration, the tables or, in SCAN, the code tables built from
them, unless it resets the core. -/
def Obligations.TablesFixedDuringEncode : Prop :=
  ∀ s t : State, s.Inv → s.st = .scan ∨ s.st = .raw → step s = .next t → t.st ≠ .idle →
    sameConfig s t ∧ (t.st ≠ .error → t.ehuf = s.ehuf)

/-- R301: what START makes of two machines with the same configuration and tables is the same encode, whatever came before;
and two machines in the same encode stay so on every further SAMPLE write, RAWBITS and RAWFLUSH. -/
def Obligations.EncodesAreIndependent : Prop :=
  (∀ s s' : State, s.Inv → s'.Inv → sameConfig s s' →
    ∃ a a' t t', exec .abort s = .next a ∧ exec .abort s' = .next a' ∧ exec .start a = .next t ∧ exec .start a' = .next t' ∧
      t'.st = t.st ∧ t'.errCode = t.errCode ∧ t'.errInfo = t.errInfo ∧ t'.olen = t.olen ∧ (t.st ≠ .error → t.Agrees t')) ∧
  ∀ (s s' : State) (i : Instr), s.Inv → s'.Inv → s.Agrees s' → s.st ≠ .error →
    (∃ w, i = .sampleWrite w) ∨ (∃ len v, i = .rawbits len v) ∨ i = .rawflush →
    ∃ t t', exec i s = .next t ∧ exec i s' = .next t' ∧
      t'.st = t.st ∧ t'.errCode = t.errCode ∧ t'.errInfo = t.errInfo ∧ t'.olen = t.olen ∧ (t.st ≠ .error → t.Agrees t')
end

