-- ==== Sys2Proof/Laws/Memory.lean ====
section
/-! SUPPORT. The laws of the byte memories: what a read after a write gives, and that every write keeps the canonical form. -/

namespace Sys2Proof.Machine

variable {sp : Space} {m : Memory} {a c : Nat} {b : Byte}

/-- A canonical memory read in its parts. -/
theorem Memory.wf_cons : Memory.wf sp ((a, b) :: m) = true ↔
    b ≠ blank sp a ∧ (∀ c ∈ m, a < c.1) ∧ Memory.wf sp m = true := by
  simp [Memory.wf, and_assoc]

theorem Memory.read_of_lt (h : ∀ x ∈ m, a < x.1) : Memory.read sp m a = blank sp a := by
  induction m with
  | nil => rfl
  | cons x m ih =>
    have hx : a < x.1 := h x (by simp)
    simp only [Memory.read]
    rw [if_neg (by omega)]
    exact ih fun y hy => h y (by simp [hy])

theorem Memory.mem_erase_of_mem {x : Host.Cell} (h : x ∈ Memory.erase m a) : x ∈ m := by
  induction m with
  | nil => exact h
  | cons y m ih =>
    simp only [Memory.erase] at h
    split at h
    · simp [h]
    · rcases List.mem_cons.1 h with h | h
      · simp [h]
      · simp [ih h]

theorem Memory.mem_put {x : Host.Cell} (h : x ∈ Memory.put m a b) : x = (a, b) ∨ x ∈ m := by
  induction m with
  | nil => simpa [Memory.put] using h
  | cons y m ih =>
    simp only [Memory.put] at h
    split at h
    · simpa using h
    · split at h
      · rcases List.mem_cons.1 h with h | h
        · exact .inl h
        · simp [h]
      · rcases List.mem_cons.1 h with h | h
        · simp [h]
        · rcases ih h with h | h
          · exact .inl h
          · simp [h]

theorem Memory.wf_erase (h : Memory.wf sp m = true) : Memory.wf sp (Memory.erase m a) = true := by
  induction m with
  | nil => rfl
  | cons x m ih =>
    obtain ⟨hb, hlt, hm⟩ := Memory.wf_cons.1 h
    simp only [Memory.erase]
    split
    · exact hm
    · exact Memory.wf_cons.2 ⟨hb, fun y hy => hlt y (Memory.mem_erase_of_mem hy), ih hm⟩

theorem Memory.wf_put (h : Memory.wf sp m = true) (hb : b ≠ blank sp a) : Memory.wf sp (Memory.put m a b) = true := by
  induction m with
  | nil => simpa [Memory.put, Memory.wf] using hb
  | cons x m ih =>
    obtain ⟨hx, hlt, hm⟩ := Memory.wf_cons.1 h
    simp only [Memory.put]
    split
    · rename_i hlt'
      refine Memory.wf_cons.2 ⟨hb, fun y hy => ?_, h⟩
      rcases List.mem_cons.1 hy with rfl | hy
      · exact hlt'
      · exact hlt'.trans (hlt y hy)
    · split
      · rename_i heq
        subst heq
        exact Memory.wf_cons.2 ⟨hb, hlt, hm⟩
      · refine Memory.wf_cons.2 ⟨hx, fun y hy => ?_, ih hm⟩
        rcases Memory.mem_put hy with rfl | hy
        · simp only; omega
        · exact hlt y hy

/-- Every write keeps the canonical form. -/
theorem Memory.wf_write (h : Memory.wf sp m = true) : Memory.wf sp (Memory.write sp m a b) = true := by
  unfold Memory.write
  split
  · exact Memory.wf_erase h
  · exact Memory.wf_put h ‹_›

theorem Memory.wf_writeAll {ws : List (Nat × Byte)} (h : Memory.wf sp m = true) :
    Memory.wf sp (Memory.writeAll sp m ws) = true := by
  unfold Memory.writeAll
  induction ws generalizing m with
  | nil => exact h
  | cons w ws ih => exact ih (Memory.wf_write h)

theorem Memory.read_erase_other (h : c ≠ a) : Memory.read sp (Memory.erase m a) c = Memory.read sp m c := by
  induction m with
  | nil => rfl
  | cons x m ih =>
    simp only [Memory.erase, Memory.read]
    split
    · rename_i hx
      rw [if_neg (by omega)]
    · simp only [Memory.read, ih]

theorem Memory.read_erase_same (h : Memory.wf sp m = true) : Memory.read sp (Memory.erase m a) a = blank sp a := by
  induction m with
  | nil => rfl
  | cons x m ih =>
    obtain ⟨-, hlt, hm⟩ := Memory.wf_cons.1 h
    simp only [Memory.erase]
    split
    · rename_i hx
      subst hx
      exact Memory.read_of_lt hlt
    · rename_i hx
      simp only [Memory.read, if_neg hx, ih hm]

theorem Memory.read_put_other (h : c ≠ a) : Memory.read sp (Memory.put m a b) c = Memory.read sp m c := by
  induction m with
  | nil => simp [Memory.put, Memory.read, Ne.symm h]
  | cons x m ih =>
    simp only [Memory.put]
    split
    · simp [Memory.read, Ne.symm h]
    · split
      · rename_i hx
        subst hx
        simp [Memory.read, Ne.symm h]
      · simp [Memory.read, ih]

theorem Memory.read_put_same : Memory.read sp (Memory.put m a b) a = b := by
  induction m with
  | nil => simp [Memory.put, Memory.read]
  | cons x m ih =>
    simp only [Memory.put]
    split
    · simp [Memory.read]
    · split
      · simp [Memory.read]
      · rename_i hx
        rw [Memory.read, if_neg (Ne.symm hx), ih]

/-- A read elsewhere does not see a write. -/
theorem Memory.read_write_other (h : c ≠ a) : Memory.read sp (Memory.write sp m a b) c = Memory.read sp m c := by
  unfold Memory.write
  split
  · exact Memory.read_erase_other h
  · exact Memory.read_put_other h

/-- A read after a write to the same place gives the byte written. -/
theorem Memory.read_write_same (h : Memory.wf sp m = true) : Memory.read sp (Memory.write sp m a b) a = b := by
  unfold Memory.write
  split
  · rename_i hb
    rw [Memory.read_erase_same h, hb]
  · exact Memory.read_put_same

/-- Stores of a list do not touch an address that is not in it. -/
theorem Memory.read_writeAll_other {ws : List (Nat × Byte)} (h : ∀ w ∈ ws, w.1 ≠ c) :
    Memory.read sp (Memory.writeAll sp m ws) c = Memory.read sp m c := by
  unfold Memory.writeAll
  induction ws generalizing m with
  | nil => rfl
  | cons w ws ih =>
    rw [List.foldl_cons, ih fun x hx => h x (by simp [hx]), Memory.read_write_other (Ne.symm (h w (by simp)))]

/-- Stores of a list whose addresses do not repeat: each byte reads back. -/
theorem Memory.read_writeAll_mem {ws : List (Nat × Byte)} {w : Nat × Byte} (hm : Memory.wf sp m = true)
    (hn : (ws.map Prod.fst).Nodup) (hw : w ∈ ws) : Memory.read sp (Memory.writeAll sp m ws) w.1 = w.2 := by
  induction ws generalizing m with
  | nil => simp at hw
  | cons x ws ih =>
    rw [List.map_cons, List.nodup_cons] at hn
    have hstep : Memory.writeAll sp m (x :: ws) = Memory.writeAll sp (Memory.write sp m x.1 x.2) ws := rfl
    rw [hstep]
    rcases List.mem_cons.1 hw with rfl | hw
    · rw [Memory.read_writeAll_other, Memory.read_write_same hm]
      intro y hy hyw
      exact hn.1 (hyw ▸ List.mem_map_of_mem hy)
    · exact ih (Memory.wf_write hm) hn.2 hw

end Sys2Proof.Machine
end

