-- ==== Sys2Proof/Laws/State.lean ====
section
/-! SUPPORT. One lemma per field and per named update of the state, all by definition, so that no proof unfolds a record
update. -/

namespace Sys2Proof.Machine

variable (s : State)

@[simp] theorem State.ignoreAccess_st : s.ignoreAccess.st = s.st := rfl
@[simp] theorem State.ignoreAccess_errCode : s.ignoreAccess.errCode = s.errCode := rfl
@[simp] theorem State.ignoreAccess_errInfo : s.ignoreAccess.errInfo = s.errInfo := rfl
@[simp] theorem State.ignoreAccess_cfgMode : s.ignoreAccess.cfgMode = s.cfgMode := rfl
@[simp] theorem State.ignoreAccess_cfgTest : s.ignoreAccess.cfgTest = s.cfgTest := rfl
@[simp] theorem State.ignoreAccess_width : s.ignoreAccess.width = s.width := rfl
@[simp] theorem State.ignoreAccess_height : s.ignoreAccess.height = s.height := rfl
@[simp] theorem State.ignoreAccess_quality : s.ignoreAccess.quality = s.quality := rfl
@[simp] theorem State.ignoreAccess_intStatus : s.ignoreAccess.intStatus = s.intStatus := rfl
@[simp] theorem State.ignoreAccess_intEnable : s.ignoreAccess.intEnable = s.intEnable := rfl
@[simp] theorem State.ignoreAccess_flags : s.ignoreAccess.flags = s.flags ||| accerrBit := rfl
@[simp] theorem State.ignoreAccess_outIndex : s.ignoreAccess.outIndex = s.outIndex := rfl
@[simp] theorem State.ignoreAccess_tables : s.ignoreAccess.tables = s.tables := rfl
@[simp] theorem State.ignoreAccess_sfill : s.ignoreAccess.sfill = s.sfill := rfl
@[simp] theorem State.ignoreAccess_bim : s.ignoreAccess.bim = s.bim := rfl
@[simp] theorem State.ignoreAccess_errComp : s.ignoreAccess.errComp = s.errComp := rfl
@[simp] theorem State.ignoreAccess_blkTotal : s.ignoreAccess.blkTotal = s.blkTotal := rfl
@[simp] theorem State.ignoreAccess_blkCount : s.ignoreAccess.blkCount = s.blkCount := rfl
@[simp] theorem State.ignoreAccess_predY : s.ignoreAccess.predY = s.predY := rfl
@[simp] theorem State.ignoreAccess_predCb : s.ignoreAccess.predCb = s.predCb := rfl
@[simp] theorem State.ignoreAccess_predCr : s.ignoreAccess.predCr = s.predCr := rfl
@[simp] theorem State.ignoreAccess_lastblk : s.ignoreAccess.lastblk = s.lastblk := rfl
@[simp] theorem State.ignoreAccess_ibuf : s.ignoreAccess.ibuf = s.ibuf := rfl
@[simp] theorem State.ignoreAccess_ehuf : s.ignoreAccess.ehuf = s.ehuf := rfl
@[simp] theorem State.ignoreAccess_acc : s.ignoreAccess.acc = s.acc := rfl
@[simp] theorem State.ignoreAccess_nbits : s.ignoreAccess.nbits = s.nbits := rfl
@[simp] theorem State.ignoreAccess_flushed : s.ignoreAccess.flushed = s.flushed := rfl
@[simp] theorem State.ignoreAccess_obuf : s.ignoreAccess.obuf = s.obuf := rfl
@[simp] theorem State.ignoreAccess_olen : s.ignoreAccess.olen = s.olen := rfl
@[simp] theorem State.ignoreAccess_rdata : s.ignoreAccess.rdata = s.rdata := rfl
@[simp] theorem State.ignoreAccess_pending : s.ignoreAccess.pending = s.pending := rfl
@[simp] theorem State.ignoreAccess_drawn : s.ignoreAccess.drawn = s.drawn := rfl

@[simp] theorem State.setQclamp_st : s.setQclamp.st = s.st := rfl
@[simp] theorem State.setQclamp_errCode : s.setQclamp.errCode = s.errCode := rfl
@[simp] theorem State.setQclamp_errInfo : s.setQclamp.errInfo = s.errInfo := rfl
@[simp] theorem State.setQclamp_cfgMode : s.setQclamp.cfgMode = s.cfgMode := rfl
@[simp] theorem State.setQclamp_cfgTest : s.setQclamp.cfgTest = s.cfgTest := rfl
@[simp] theorem State.setQclamp_width : s.setQclamp.width = s.width := rfl
@[simp] theorem State.setQclamp_height : s.setQclamp.height = s.height := rfl
@[simp] theorem State.setQclamp_quality : s.setQclamp.quality = s.quality := rfl
@[simp] theorem State.setQclamp_intStatus : s.setQclamp.intStatus = s.intStatus := rfl
@[simp] theorem State.setQclamp_intEnable : s.setQclamp.intEnable = s.intEnable := rfl
@[simp] theorem State.setQclamp_flags : s.setQclamp.flags = s.flags ||| qclampBit := rfl
@[simp] theorem State.setQclamp_outIndex : s.setQclamp.outIndex = s.outIndex := rfl
@[simp] theorem State.setQclamp_tables : s.setQclamp.tables = s.tables := rfl
@[simp] theorem State.setQclamp_sfill : s.setQclamp.sfill = s.sfill := rfl
@[simp] theorem State.setQclamp_bim : s.setQclamp.bim = s.bim := rfl
@[simp] theorem State.setQclamp_errComp : s.setQclamp.errComp = s.errComp := rfl
@[simp] theorem State.setQclamp_blkTotal : s.setQclamp.blkTotal = s.blkTotal := rfl
@[simp] theorem State.setQclamp_blkCount : s.setQclamp.blkCount = s.blkCount := rfl
@[simp] theorem State.setQclamp_predY : s.setQclamp.predY = s.predY := rfl
@[simp] theorem State.setQclamp_predCb : s.setQclamp.predCb = s.predCb := rfl
@[simp] theorem State.setQclamp_predCr : s.setQclamp.predCr = s.predCr := rfl
@[simp] theorem State.setQclamp_lastblk : s.setQclamp.lastblk = s.lastblk := rfl
@[simp] theorem State.setQclamp_ibuf : s.setQclamp.ibuf = s.ibuf := rfl
@[simp] theorem State.setQclamp_ehuf : s.setQclamp.ehuf = s.ehuf := rfl
@[simp] theorem State.setQclamp_acc : s.setQclamp.acc = s.acc := rfl
@[simp] theorem State.setQclamp_nbits : s.setQclamp.nbits = s.nbits := rfl
@[simp] theorem State.setQclamp_flushed : s.setQclamp.flushed = s.flushed := rfl
@[simp] theorem State.setQclamp_obuf : s.setQclamp.obuf = s.obuf := rfl
@[simp] theorem State.setQclamp_olen : s.setQclamp.olen = s.olen := rfl
@[simp] theorem State.setQclamp_rdata : s.setQclamp.rdata = s.rdata := rfl
@[simp] theorem State.setQclamp_pending : s.setQclamp.pending = s.pending := rfl
@[simp] theorem State.setQclamp_drawn : s.setQclamp.drawn = s.drawn := rfl

@[simp] theorem State.enterDone_st : s.enterDone.st = .done := rfl
@[simp] theorem State.enterDone_errCode : s.enterDone.errCode = s.errCode := rfl
@[simp] theorem State.enterDone_errInfo : s.enterDone.errInfo = s.errInfo := rfl
@[simp] theorem State.enterDone_cfgMode : s.enterDone.cfgMode = s.cfgMode := rfl
@[simp] theorem State.enterDone_cfgTest : s.enterDone.cfgTest = s.cfgTest := rfl
@[simp] theorem State.enterDone_width : s.enterDone.width = s.width := rfl
@[simp] theorem State.enterDone_height : s.enterDone.height = s.height := rfl
@[simp] theorem State.enterDone_quality : s.enterDone.quality = s.quality := rfl
@[simp] theorem State.enterDone_intStatus : s.enterDone.intStatus = s.intStatus ||| doneBit := rfl
@[simp] theorem State.enterDone_intEnable : s.enterDone.intEnable = s.intEnable := rfl
@[simp] theorem State.enterDone_flags : s.enterDone.flags = s.flags := rfl
@[simp] theorem State.enterDone_outIndex : s.enterDone.outIndex = s.outIndex := rfl
@[simp] theorem State.enterDone_tables : s.enterDone.tables = s.tables := rfl
@[simp] theorem State.enterDone_sfill : s.enterDone.sfill = s.sfill := rfl
@[simp] theorem State.enterDone_bim : s.enterDone.bim = s.bim := rfl
@[simp] theorem State.enterDone_errComp : s.enterDone.errComp = s.errComp := rfl
@[simp] theorem State.enterDone_blkTotal : s.enterDone.blkTotal = s.blkTotal := rfl
@[simp] theorem State.enterDone_blkCount : s.enterDone.blkCount = s.blkCount := rfl
@[simp] theorem State.enterDone_predY : s.enterDone.predY = s.predY := rfl
@[simp] theorem State.enterDone_predCb : s.enterDone.predCb = s.predCb := rfl
@[simp] theorem State.enterDone_predCr : s.enterDone.predCr = s.predCr := rfl
@[simp] theorem State.enterDone_lastblk : s.enterDone.lastblk = s.lastblk := rfl
@[simp] theorem State.enterDone_ibuf : s.enterDone.ibuf = s.ibuf := rfl
@[simp] theorem State.enterDone_ehuf : s.enterDone.ehuf = s.ehuf := rfl
@[simp] theorem State.enterDone_acc : s.enterDone.acc = s.acc := rfl
@[simp] theorem State.enterDone_nbits : s.enterDone.nbits = s.nbits := rfl
@[simp] theorem State.enterDone_flushed : s.enterDone.flushed = s.flushed := rfl
@[simp] theorem State.enterDone_obuf : s.enterDone.obuf = s.obuf := rfl
@[simp] theorem State.enterDone_olen : s.enterDone.olen = s.olen := rfl
@[simp] theorem State.enterDone_rdata : s.enterDone.rdata = s.rdata := rfl
@[simp] theorem State.enterDone_pending : s.enterDone.pending = s.pending := rfl
@[simp] theorem State.enterDone_drawn : s.enterDone.drawn = s.drawn := rfl

@[simp] theorem State.storeTables_st (ws : List (Nat × Byte)) : (s.storeTables ws).st = s.st := rfl
@[simp] theorem State.storeTables_errCode (ws : List (Nat × Byte)) : (s.storeTables ws).errCode = s.errCode := rfl
@[simp] theorem State.storeTables_errInfo (ws : List (Nat × Byte)) : (s.storeTables ws).errInfo = s.errInfo := rfl
@[simp] theorem State.storeTables_cfgMode (ws : List (Nat × Byte)) : (s.storeTables ws).cfgMode = s.cfgMode := rfl
@[simp] theorem State.storeTables_cfgTest (ws : List (Nat × Byte)) : (s.storeTables ws).cfgTest = s.cfgTest := rfl
@[simp] theorem State.storeTables_width (ws : List (Nat × Byte)) : (s.storeTables ws).width = s.width := rfl
@[simp] theorem State.storeTables_height (ws : List (Nat × Byte)) : (s.storeTables ws).height = s.height := rfl
@[simp] theorem State.storeTables_quality (ws : List (Nat × Byte)) : (s.storeTables ws).quality = s.quality := rfl
@[simp] theorem State.storeTables_intStatus (ws : List (Nat × Byte)) : (s.storeTables ws).intStatus = s.intStatus := rfl
@[simp] theorem State.storeTables_intEnable (ws : List (Nat × Byte)) : (s.storeTables ws).intEnable = s.intEnable := rfl
@[simp] theorem State.storeTables_flags (ws : List (Nat × Byte)) : (s.storeTables ws).flags = s.flags := rfl
@[simp] theorem State.storeTables_outIndex (ws : List (Nat × Byte)) : (s.storeTables ws).outIndex = s.outIndex := rfl
@[simp] theorem State.storeTables_tables (ws : List (Nat × Byte)) : (s.storeTables ws).tables = Memory.writeAll .tables s.tables ws := rfl
@[simp] theorem State.storeTables_sfill (ws : List (Nat × Byte)) : (s.storeTables ws).sfill = s.sfill := rfl
@[simp] theorem State.storeTables_bim (ws : List (Nat × Byte)) : (s.storeTables ws).bim = s.bim := rfl
@[simp] theorem State.storeTables_errComp (ws : List (Nat × Byte)) : (s.storeTables ws).errComp = s.errComp := rfl
@[simp] theorem State.storeTables_blkTotal (ws : List (Nat × Byte)) : (s.storeTables ws).blkTotal = s.blkTotal := rfl
@[simp] theorem State.storeTables_blkCount (ws : List (Nat × Byte)) : (s.storeTables ws).blkCount = s.blkCount := rfl
@[simp] theorem State.storeTables_predY (ws : List (Nat × Byte)) : (s.storeTables ws).predY = s.predY := rfl
@[simp] theorem State.storeTables_predCb (ws : List (Nat × Byte)) : (s.storeTables ws).predCb = s.predCb := rfl
@[simp] theorem State.storeTables_predCr (ws : List (Nat × Byte)) : (s.storeTables ws).predCr = s.predCr := rfl
@[simp] theorem State.storeTables_lastblk (ws : List (Nat × Byte)) : (s.storeTables ws).lastblk = s.lastblk := rfl
@[simp] theorem State.storeTables_ibuf (ws : List (Nat × Byte)) : (s.storeTables ws).ibuf = s.ibuf := rfl
@[simp] theorem State.storeTables_ehuf (ws : List (Nat × Byte)) : (s.storeTables ws).ehuf = s.ehuf := rfl
@[simp] theorem State.storeTables_acc (ws : List (Nat × Byte)) : (s.storeTables ws).acc = s.acc := rfl
@[simp] theorem State.storeTables_nbits (ws : List (Nat × Byte)) : (s.storeTables ws).nbits = s.nbits := rfl
@[simp] theorem State.storeTables_flushed (ws : List (Nat × Byte)) : (s.storeTables ws).flushed = s.flushed := rfl
@[simp] theorem State.storeTables_obuf (ws : List (Nat × Byte)) : (s.storeTables ws).obuf = s.obuf := rfl
@[simp] theorem State.storeTables_olen (ws : List (Nat × Byte)) : (s.storeTables ws).olen = s.olen := rfl
@[simp] theorem State.storeTables_rdata (ws : List (Nat × Byte)) : (s.storeTables ws).rdata = s.rdata := rfl
@[simp] theorem State.storeTables_pending (ws : List (Nat × Byte)) : (s.storeTables ws).pending = s.pending := rfl
@[simp] theorem State.storeTables_drawn (ws : List (Nat × Byte)) : (s.storeTables ws).drawn = s.drawn := rfl

@[simp] theorem State.clearDatapath_st : s.clearDatapath.st = s.st := rfl
@[simp] theorem State.clearDatapath_errCode : s.clearDatapath.errCode = s.errCode := rfl
@[simp] theorem State.clearDatapath_errInfo : s.clearDatapath.errInfo = s.errInfo := rfl
@[simp] theorem State.clearDatapath_cfgMode : s.clearDatapath.cfgMode = s.cfgMode := rfl
@[simp] theorem State.clearDatapath_cfgTest : s.clearDatapath.cfgTest = s.cfgTest := rfl
@[simp] theorem State.clearDatapath_width : s.clearDatapath.width = s.width := rfl
@[simp] theorem State.clearDatapath_height : s.clearDatapath.height = s.height := rfl
@[simp] theorem State.clearDatapath_quality : s.clearDatapath.quality = s.quality := rfl
@[simp] theorem State.clearDatapath_intStatus : s.clearDatapath.intStatus = s.intStatus := rfl
@[simp] theorem State.clearDatapath_intEnable : s.clearDatapath.intEnable = s.intEnable := rfl
@[simp] theorem State.clearDatapath_flags : s.clearDatapath.flags = s.flags := rfl
@[simp] theorem State.clearDatapath_outIndex : s.clearDatapath.outIndex = s.outIndex := rfl
@[simp] theorem State.clearDatapath_tables : s.clearDatapath.tables = s.tables := rfl
@[simp] theorem State.clearDatapath_sfill : s.clearDatapath.sfill = 0#4 := rfl
@[simp] theorem State.clearDatapath_bim : s.clearDatapath.bim = 0#3 := rfl
@[simp] theorem State.clearDatapath_errComp : s.clearDatapath.errComp = s.errComp := rfl
@[simp] theorem State.clearDatapath_blkTotal : s.clearDatapath.blkTotal = s.blkTotal := rfl
@[simp] theorem State.clearDatapath_blkCount : s.clearDatapath.blkCount = 0#32 := rfl
@[simp] theorem State.clearDatapath_predY : s.clearDatapath.predY = 0#16 := rfl
@[simp] theorem State.clearDatapath_predCb : s.clearDatapath.predCb = 0#16 := rfl
@[simp] theorem State.clearDatapath_predCr : s.clearDatapath.predCr = 0#16 := rfl
@[simp] theorem State.clearDatapath_lastblk : s.clearDatapath.lastblk = Vector.replicate 64 0#16 := rfl
@[simp] theorem State.clearDatapath_ibuf : s.clearDatapath.ibuf = s.ibuf := rfl
@[simp] theorem State.clearDatapath_ehuf : s.clearDatapath.ehuf = s.ehuf := rfl
@[simp] theorem State.clearDatapath_acc : s.clearDatapath.acc = 0#8 := rfl
@[simp] theorem State.clearDatapath_nbits : s.clearDatapath.nbits = 0#4 := rfl
@[simp] theorem State.clearDatapath_flushed : s.clearDatapath.flushed = false := rfl
@[simp] theorem State.clearDatapath_obuf : s.clearDatapath.obuf = s.obuf := rfl
@[simp] theorem State.clearDatapath_olen : s.clearDatapath.olen = 0 := rfl
@[simp] theorem State.clearDatapath_rdata : s.clearDatapath.rdata = s.rdata := rfl
@[simp] theorem State.clearDatapath_pending : s.clearDatapath.pending = s.pending := rfl
@[simp] theorem State.clearDatapath_drawn : s.clearDatapath.drawn = s.drawn := rfl

@[simp] theorem State.initScan_st : s.initScan.st = s.st := rfl
@[simp] theorem State.initScan_errCode : s.initScan.errCode = s.errCode := rfl
@[simp] theorem State.initScan_errInfo : s.initScan.errInfo = s.errInfo := rfl
@[simp] theorem State.initScan_cfgMode : s.initScan.cfgMode = s.cfgMode := rfl
@[simp] theorem State.initScan_cfgTest : s.initScan.cfgTest = s.cfgTest := rfl
@[simp] theorem State.initScan_width : s.initScan.width = s.width := rfl
@[simp] theorem State.initScan_height : s.initScan.height = s.height := rfl
@[simp] theorem State.initScan_quality : s.initScan.quality = s.quality := rfl
@[simp] theorem State.initScan_intStatus : s.initScan.intStatus = s.intStatus := rfl
@[simp] theorem State.initScan_intEnable : s.initScan.intEnable = s.intEnable := rfl
@[simp] theorem State.initScan_flags : s.initScan.flags = s.flags := rfl
@[simp] theorem State.initScan_outIndex : s.initScan.outIndex = s.outIndex := rfl
@[simp] theorem State.initScan_tables : s.initScan.tables = s.tables := rfl
@[simp] theorem State.initScan_sfill : s.initScan.sfill = 0#4 := rfl
@[simp] theorem State.initScan_bim : s.initScan.bim = 0#3 := rfl
@[simp] theorem State.initScan_errComp : s.initScan.errComp = s.errComp := rfl
@[simp] theorem State.initScan_blkTotal : s.initScan.blkTotal = BitVec.ofNat 32 s.blocksOf := rfl
@[simp] theorem State.initScan_blkCount : s.initScan.blkCount = 0#32 := rfl
@[simp] theorem State.initScan_predY : s.initScan.predY = 0#16 := rfl
@[simp] theorem State.initScan_predCb : s.initScan.predCb = 0#16 := rfl
@[simp] theorem State.initScan_predCr : s.initScan.predCr = 0#16 := rfl
@[simp] theorem State.initScan_lastblk : s.initScan.lastblk = Vector.replicate 64 0#16 := rfl
@[simp] theorem State.initScan_ibuf : s.initScan.ibuf = s.ibuf := rfl
@[simp] theorem State.initScan_ehuf : s.initScan.ehuf = s.ehuf := rfl
@[simp] theorem State.initScan_acc : s.initScan.acc = 0#8 := rfl
@[simp] theorem State.initScan_nbits : s.initScan.nbits = 0#4 := rfl
@[simp] theorem State.initScan_flushed : s.initScan.flushed = false := rfl
@[simp] theorem State.initScan_obuf : s.initScan.obuf = s.obuf := rfl
@[simp] theorem State.initScan_olen : s.initScan.olen = 0 := rfl
@[simp] theorem State.initScan_rdata : s.initScan.rdata = s.rdata := rfl
@[simp] theorem State.initScan_pending : s.initScan.pending = s.pending := rfl
@[simp] theorem State.initScan_drawn : s.initScan.drawn = s.drawn := rfl

@[simp] theorem State.startRaw_st : s.startRaw.st = .raw := rfl
@[simp] theorem State.startRaw_errCode : s.startRaw.errCode = s.errCode := rfl
@[simp] theorem State.startRaw_errInfo : s.startRaw.errInfo = s.errInfo := rfl
@[simp] theorem State.startRaw_cfgMode : s.startRaw.cfgMode = s.cfgMode := rfl
@[simp] theorem State.startRaw_cfgTest : s.startRaw.cfgTest = s.cfgTest := rfl
@[simp] theorem State.startRaw_width : s.startRaw.width = s.width := rfl
@[simp] theorem State.startRaw_height : s.startRaw.height = s.height := rfl
@[simp] theorem State.startRaw_quality : s.startRaw.quality = s.quality := rfl
@[simp] theorem State.startRaw_intStatus : s.startRaw.intStatus = s.intStatus := rfl
@[simp] theorem State.startRaw_intEnable : s.startRaw.intEnable = s.intEnable := rfl
@[simp] theorem State.startRaw_flags : s.startRaw.flags = s.flags := rfl
@[simp] theorem State.startRaw_outIndex : s.startRaw.outIndex = s.outIndex := rfl
@[simp] theorem State.startRaw_tables : s.startRaw.tables = s.tables := rfl
@[simp] theorem State.startRaw_sfill : s.startRaw.sfill = 0#4 := rfl
@[simp] theorem State.startRaw_bim : s.startRaw.bim = 0#3 := rfl
@[simp] theorem State.startRaw_errComp : s.startRaw.errComp = s.errComp := rfl
@[simp] theorem State.startRaw_blkTotal : s.startRaw.blkTotal = 0#32 := rfl
@[simp] theorem State.startRaw_blkCount : s.startRaw.blkCount = 0#32 := rfl
@[simp] theorem State.startRaw_predY : s.startRaw.predY = 0#16 := rfl
@[simp] theorem State.startRaw_predCb : s.startRaw.predCb = 0#16 := rfl
@[simp] theorem State.startRaw_predCr : s.startRaw.predCr = 0#16 := rfl
@[simp] theorem State.startRaw_lastblk : s.startRaw.lastblk = Vector.replicate 64 0#16 := rfl
@[simp] theorem State.startRaw_ibuf : s.startRaw.ibuf = s.ibuf := rfl
@[simp] theorem State.startRaw_ehuf : s.startRaw.ehuf = s.ehuf := rfl
@[simp] theorem State.startRaw_acc : s.startRaw.acc = 0#8 := rfl
@[simp] theorem State.startRaw_nbits : s.startRaw.nbits = 0#4 := rfl
@[simp] theorem State.startRaw_flushed : s.startRaw.flushed = false := rfl
@[simp] theorem State.startRaw_obuf : s.startRaw.obuf = s.obuf := rfl
@[simp] theorem State.startRaw_olen : s.startRaw.olen = 0 := rfl
@[simp] theorem State.startRaw_rdata : s.startRaw.rdata = s.rdata := rfl
@[simp] theorem State.startRaw_pending : s.startRaw.pending = s.pending := rfl
@[simp] theorem State.startRaw_drawn : s.startRaw.drawn = s.drawn := rfl

@[simp] theorem State.abortEncode_st : s.abortEncode.st = .idle := rfl
@[simp] theorem State.abortEncode_errCode : s.abortEncode.errCode = .none := rfl
@[simp] theorem State.abortEncode_errInfo : s.abortEncode.errInfo = 0#32 := rfl
@[simp] theorem State.abortEncode_cfgMode : s.abortEncode.cfgMode = s.cfgMode := rfl
@[simp] theorem State.abortEncode_cfgTest : s.abortEncode.cfgTest = s.cfgTest := rfl
@[simp] theorem State.abortEncode_width : s.abortEncode.width = s.width := rfl
@[simp] theorem State.abortEncode_height : s.abortEncode.height = s.height := rfl
@[simp] theorem State.abortEncode_quality : s.abortEncode.quality = s.quality := rfl
@[simp] theorem State.abortEncode_intStatus : s.abortEncode.intStatus = s.intStatus := rfl
@[simp] theorem State.abortEncode_intEnable : s.abortEncode.intEnable = s.intEnable := rfl
@[simp] theorem State.abortEncode_flags : s.abortEncode.flags = s.flags := rfl
@[simp] theorem State.abortEncode_outIndex : s.abortEncode.outIndex = s.outIndex := rfl
@[simp] theorem State.abortEncode_tables : s.abortEncode.tables = s.tables := rfl
@[simp] theorem State.abortEncode_sfill : s.abortEncode.sfill = 0#4 := rfl
@[simp] theorem State.abortEncode_bim : s.abortEncode.bim = 0#3 := rfl
@[simp] theorem State.abortEncode_errComp : s.abortEncode.errComp = s.errComp := rfl
@[simp] theorem State.abortEncode_blkTotal : s.abortEncode.blkTotal = 0#32 := rfl
@[simp] theorem State.abortEncode_blkCount : s.abortEncode.blkCount = 0#32 := rfl
@[simp] theorem State.abortEncode_predY : s.abortEncode.predY = 0#16 := rfl
@[simp] theorem State.abortEncode_predCb : s.abortEncode.predCb = 0#16 := rfl
@[simp] theorem State.abortEncode_predCr : s.abortEncode.predCr = 0#16 := rfl
@[simp] theorem State.abortEncode_lastblk : s.abortEncode.lastblk = Vector.replicate 64 0#16 := rfl
@[simp] theorem State.abortEncode_ibuf : s.abortEncode.ibuf = s.ibuf := rfl
@[simp] theorem State.abortEncode_ehuf : s.abortEncode.ehuf = s.ehuf := rfl
@[simp] theorem State.abortEncode_acc : s.abortEncode.acc = 0#8 := rfl
@[simp] theorem State.abortEncode_nbits : s.abortEncode.nbits = 0#4 := rfl
@[simp] theorem State.abortEncode_flushed : s.abortEncode.flushed = false := rfl
@[simp] theorem State.abortEncode_obuf : s.abortEncode.obuf = s.obuf := rfl
@[simp] theorem State.abortEncode_olen : s.abortEncode.olen = 0 := rfl
@[simp] theorem State.abortEncode_rdata : s.abortEncode.rdata = s.rdata := rfl
@[simp] theorem State.abortEncode_pending : s.abortEncode.pending = s.pending := rfl
@[simp] theorem State.abortEncode_drawn : s.abortEncode.drawn = s.drawn := rfl

@[simp] theorem State.keepScan_st (z : List Int) : (s.keepScan z).st = s.st := rfl
@[simp] theorem State.keepScan_errCode (z : List Int) : (s.keepScan z).errCode = s.errCode := rfl
@[simp] theorem State.keepScan_errInfo (z : List Int) : (s.keepScan z).errInfo = s.errInfo := rfl
@[simp] theorem State.keepScan_cfgMode (z : List Int) : (s.keepScan z).cfgMode = s.cfgMode := rfl
@[simp] theorem State.keepScan_cfgTest (z : List Int) : (s.keepScan z).cfgTest = s.cfgTest := rfl
@[simp] theorem State.keepScan_width (z : List Int) : (s.keepScan z).width = s.width := rfl
@[simp] theorem State.keepScan_height (z : List Int) : (s.keepScan z).height = s.height := rfl
@[simp] theorem State.keepScan_quality (z : List Int) : (s.keepScan z).quality = s.quality := rfl
@[simp] theorem State.keepScan_intStatus (z : List Int) : (s.keepScan z).intStatus = s.intStatus := rfl
@[simp] theorem State.keepScan_intEnable (z : List Int) : (s.keepScan z).intEnable = s.intEnable := rfl
@[simp] theorem State.keepScan_flags (z : List Int) : (s.keepScan z).flags = s.flags := rfl
@[simp] theorem State.keepScan_outIndex (z : List Int) : (s.keepScan z).outIndex = s.outIndex := rfl
@[simp] theorem State.keepScan_tables (z : List Int) : (s.keepScan z).tables = s.tables := rfl
@[simp] theorem State.keepScan_sfill (z : List Int) : (s.keepScan z).sfill = s.sfill := rfl
@[simp] theorem State.keepScan_bim (z : List Int) : (s.keepScan z).bim = s.bim := rfl
@[simp] theorem State.keepScan_errComp (z : List Int) : (s.keepScan z).errComp = s.errComp := rfl
@[simp] theorem State.keepScan_blkTotal (z : List Int) : (s.keepScan z).blkTotal = s.blkTotal := rfl
@[simp] theorem State.keepScan_blkCount (z : List Int) : (s.keepScan z).blkCount = s.blkCount := rfl
@[simp] theorem State.keepScan_predY (z : List Int) : (s.keepScan z).predY = s.predY := rfl
@[simp] theorem State.keepScan_predCb (z : List Int) : (s.keepScan z).predCb = s.predCb := rfl
@[simp] theorem State.keepScan_predCr (z : List Int) : (s.keepScan z).predCr = s.predCr := rfl
@[simp] theorem State.keepScan_lastblk (z : List Int) : (s.keepScan z).lastblk = blockOf fun k => BitVec.ofInt 16 (z.getD k 0) := rfl
@[simp] theorem State.keepScan_ibuf (z : List Int) : (s.keepScan z).ibuf = s.ibuf := rfl
@[simp] theorem State.keepScan_ehuf (z : List Int) : (s.keepScan z).ehuf = s.ehuf := rfl
@[simp] theorem State.keepScan_acc (z : List Int) : (s.keepScan z).acc = s.acc := rfl
@[simp] theorem State.keepScan_nbits (z : List Int) : (s.keepScan z).nbits = s.nbits := rfl
@[simp] theorem State.keepScan_flushed (z : List Int) : (s.keepScan z).flushed = s.flushed := rfl
@[simp] theorem State.keepScan_obuf (z : List Int) : (s.keepScan z).obuf = s.obuf := rfl
@[simp] theorem State.keepScan_olen (z : List Int) : (s.keepScan z).olen = s.olen := rfl
@[simp] theorem State.keepScan_rdata (z : List Int) : (s.keepScan z).rdata = s.rdata := rfl
@[simp] theorem State.keepScan_pending (z : List Int) : (s.keepScan z).pending = s.pending := rfl
@[simp] theorem State.keepScan_drawn (z : List Int) : (s.keepScan z).drawn = s.drawn := rfl

@[simp] theorem State.countBlock_st : s.countBlock.st = s.st := rfl
@[simp] theorem State.countBlock_errCode : s.countBlock.errCode = s.errCode := rfl
@[simp] theorem State.countBlock_errInfo : s.countBlock.errInfo = s.errInfo := rfl
@[simp] theorem State.countBlock_cfgMode : s.countBlock.cfgMode = s.cfgMode := rfl
@[simp] theorem State.countBlock_cfgTest : s.countBlock.cfgTest = s.cfgTest := rfl
@[simp] theorem State.countBlock_width : s.countBlock.width = s.width := rfl
@[simp] theorem State.countBlock_height : s.countBlock.height = s.height := rfl
@[simp] theorem State.countBlock_quality : s.countBlock.quality = s.quality := rfl
@[simp] theorem State.countBlock_intStatus : s.countBlock.intStatus = s.intStatus := rfl
@[simp] theorem State.countBlock_intEnable : s.countBlock.intEnable = s.intEnable := rfl
@[simp] theorem State.countBlock_flags : s.countBlock.flags = s.flags := rfl
@[simp] theorem State.countBlock_outIndex : s.countBlock.outIndex = s.outIndex := rfl
@[simp] theorem State.countBlock_tables : s.countBlock.tables = s.tables := rfl
@[simp] theorem State.countBlock_sfill : s.countBlock.sfill = s.sfill := rfl
@[simp] theorem State.countBlock_bim : s.countBlock.bim = nextBim s.cfgMode s.bim := rfl
@[simp] theorem State.countBlock_errComp : s.countBlock.errComp = s.errComp := rfl
@[simp] theorem State.countBlock_blkTotal : s.countBlock.blkTotal = s.blkTotal := rfl
@[simp] theorem State.countBlock_blkCount : s.countBlock.blkCount = s.blkCount + 1#32 := rfl
@[simp] theorem State.countBlock_predY : s.countBlock.predY = s.predY := rfl
@[simp] theorem State.countBlock_predCb : s.countBlock.predCb = s.predCb := rfl
@[simp] theorem State.countBlock_predCr : s.countBlock.predCr = s.predCr := rfl
@[simp] theorem State.countBlock_lastblk : s.countBlock.lastblk = s.lastblk := rfl
@[simp] theorem State.countBlock_ibuf : s.countBlock.ibuf = s.ibuf := rfl
@[simp] theorem State.countBlock_ehuf : s.countBlock.ehuf = s.ehuf := rfl
@[simp] theorem State.countBlock_acc : s.countBlock.acc = s.acc := rfl
@[simp] theorem State.countBlock_nbits : s.countBlock.nbits = s.nbits := rfl
@[simp] theorem State.countBlock_flushed : s.countBlock.flushed = s.flushed := rfl
@[simp] theorem State.countBlock_obuf : s.countBlock.obuf = s.obuf := rfl
@[simp] theorem State.countBlock_olen : s.countBlock.olen = s.olen := rfl
@[simp] theorem State.countBlock_rdata : s.countBlock.rdata = s.rdata := rfl
@[simp] theorem State.countBlock_pending : s.countBlock.pending = s.pending := rfl
@[simp] theorem State.countBlock_drawn : s.countBlock.drawn = s.drawn := rfl

@[simp] theorem State.pushEvent_st (e : BusEvent) : (s.pushEvent e).st = s.st := rfl
@[simp] theorem State.pushEvent_errCode (e : BusEvent) : (s.pushEvent e).errCode = s.errCode := rfl
@[simp] theorem State.pushEvent_errInfo (e : BusEvent) : (s.pushEvent e).errInfo = s.errInfo := rfl
@[simp] theorem State.pushEvent_cfgMode (e : BusEvent) : (s.pushEvent e).cfgMode = s.cfgMode := rfl
@[simp] theorem State.pushEvent_cfgTest (e : BusEvent) : (s.pushEvent e).cfgTest = s.cfgTest := rfl
@[simp] theorem State.pushEvent_width (e : BusEvent) : (s.pushEvent e).width = s.width := rfl
@[simp] theorem State.pushEvent_height (e : BusEvent) : (s.pushEvent e).height = s.height := rfl
@[simp] theorem State.pushEvent_quality (e : BusEvent) : (s.pushEvent e).quality = s.quality := rfl
@[simp] theorem State.pushEvent_intStatus (e : BusEvent) : (s.pushEvent e).intStatus = s.intStatus := rfl
@[simp] theorem State.pushEvent_intEnable (e : BusEvent) : (s.pushEvent e).intEnable = s.intEnable := rfl
@[simp] theorem State.pushEvent_flags (e : BusEvent) : (s.pushEvent e).flags = s.flags := rfl
@[simp] theorem State.pushEvent_outIndex (e : BusEvent) : (s.pushEvent e).outIndex = s.outIndex := rfl
@[simp] theorem State.pushEvent_tables (e : BusEvent) : (s.pushEvent e).tables = s.tables := rfl
@[simp] theorem State.pushEvent_sfill (e : BusEvent) : (s.pushEvent e).sfill = s.sfill := rfl
@[simp] theorem State.pushEvent_bim (e : BusEvent) : (s.pushEvent e).bim = s.bim := rfl
@[simp] theorem State.pushEvent_errComp (e : BusEvent) : (s.pushEvent e).errComp = s.errComp := rfl
@[simp] theorem State.pushEvent_blkTotal (e : BusEvent) : (s.pushEvent e).blkTotal = s.blkTotal := rfl
@[simp] theorem State.pushEvent_blkCount (e : BusEvent) : (s.pushEvent e).blkCount = s.blkCount := rfl
@[simp] theorem State.pushEvent_predY (e : BusEvent) : (s.pushEvent e).predY = s.predY := rfl
@[simp] theorem State.pushEvent_predCb (e : BusEvent) : (s.pushEvent e).predCb = s.predCb := rfl
@[simp] theorem State.pushEvent_predCr (e : BusEvent) : (s.pushEvent e).predCr = s.predCr := rfl
@[simp] theorem State.pushEvent_lastblk (e : BusEvent) : (s.pushEvent e).lastblk = s.lastblk := rfl
@[simp] theorem State.pushEvent_ibuf (e : BusEvent) : (s.pushEvent e).ibuf = s.ibuf := rfl
@[simp] theorem State.pushEvent_ehuf (e : BusEvent) : (s.pushEvent e).ehuf = s.ehuf := rfl
@[simp] theorem State.pushEvent_acc (e : BusEvent) : (s.pushEvent e).acc = s.acc := rfl
@[simp] theorem State.pushEvent_nbits (e : BusEvent) : (s.pushEvent e).nbits = s.nbits := rfl
@[simp] theorem State.pushEvent_flushed (e : BusEvent) : (s.pushEvent e).flushed = s.flushed := rfl
@[simp] theorem State.pushEvent_obuf (e : BusEvent) : (s.pushEvent e).obuf = s.obuf := rfl
@[simp] theorem State.pushEvent_olen (e : BusEvent) : (s.pushEvent e).olen = s.olen := rfl
@[simp] theorem State.pushEvent_rdata (e : BusEvent) : (s.pushEvent e).rdata = s.rdata := rfl
@[simp] theorem State.pushEvent_pending (e : BusEvent) : (s.pushEvent e).pending = e :: s.pending := rfl
@[simp] theorem State.pushEvent_drawn (e : BusEvent) : (s.pushEvent e).drawn = s.drawn := rfl

@[simp] theorem State.storeSamples_st (w : Word) : (s.storeSamples w).st = s.st := rfl
@[simp] theorem State.storeSamples_errCode (w : Word) : (s.storeSamples w).errCode = s.errCode := rfl
@[simp] theorem State.storeSamples_errInfo (w : Word) : (s.storeSamples w).errInfo = s.errInfo := rfl
@[simp] theorem State.storeSamples_cfgMode (w : Word) : (s.storeSamples w).cfgMode = s.cfgMode := rfl
@[simp] theorem State.storeSamples_cfgTest (w : Word) : (s.storeSamples w).cfgTest = s.cfgTest := rfl
@[simp] theorem State.storeSamples_width (w : Word) : (s.storeSamples w).width = s.width := rfl
@[simp] theorem State.storeSamples_height (w : Word) : (s.storeSamples w).height = s.height := rfl
@[simp] theorem State.storeSamples_quality (w : Word) : (s.storeSamples w).quality = s.quality := rfl
@[simp] theorem State.storeSamples_intStatus (w : Word) : (s.storeSamples w).intStatus = s.intStatus := rfl
@[simp] theorem State.storeSamples_intEnable (w : Word) : (s.storeSamples w).intEnable = s.intEnable := rfl
@[simp] theorem State.storeSamples_flags (w : Word) : (s.storeSamples w).flags = s.flags := rfl
@[simp] theorem State.storeSamples_outIndex (w : Word) : (s.storeSamples w).outIndex = s.outIndex := rfl
@[simp] theorem State.storeSamples_tables (w : Word) : (s.storeSamples w).tables = s.tables := rfl
@[simp] theorem State.storeSamples_sfill (w : Word) : (s.storeSamples w).sfill = s.sfill + 1#4 := rfl
@[simp] theorem State.storeSamples_bim (w : Word) : (s.storeSamples w).bim = s.bim := rfl
@[simp] theorem State.storeSamples_errComp (w : Word) : (s.storeSamples w).errComp = s.errComp := rfl
@[simp] theorem State.storeSamples_blkTotal (w : Word) : (s.storeSamples w).blkTotal = s.blkTotal := rfl
@[simp] theorem State.storeSamples_blkCount (w : Word) : (s.storeSamples w).blkCount = s.blkCount := rfl
@[simp] theorem State.storeSamples_predY (w : Word) : (s.storeSamples w).predY = s.predY := rfl
@[simp] theorem State.storeSamples_predCb (w : Word) : (s.storeSamples w).predCb = s.predCb := rfl
@[simp] theorem State.storeSamples_predCr (w : Word) : (s.storeSamples w).predCr = s.predCr := rfl
@[simp] theorem State.storeSamples_lastblk (w : Word) : (s.storeSamples w).lastblk = s.lastblk := rfl
@[simp] theorem State.storeSamples_ehuf (w : Word) : (s.storeSamples w).ehuf = s.ehuf := rfl
@[simp] theorem State.storeSamples_acc (w : Word) : (s.storeSamples w).acc = s.acc := rfl
@[simp] theorem State.storeSamples_nbits (w : Word) : (s.storeSamples w).nbits = s.nbits := rfl
@[simp] theorem State.storeSamples_flushed (w : Word) : (s.storeSamples w).flushed = s.flushed := rfl
@[simp] theorem State.storeSamples_obuf (w : Word) : (s.storeSamples w).obuf = s.obuf := rfl
@[simp] theorem State.storeSamples_olen (w : Word) : (s.storeSamples w).olen = s.olen := rfl
@[simp] theorem State.storeSamples_rdata (w : Word) : (s.storeSamples w).rdata = s.rdata := rfl
@[simp] theorem State.storeSamples_pending (w : Word) : (s.storeSamples w).pending = s.pending := rfl
@[simp] theorem State.storeSamples_drawn (w : Word) : (s.storeSamples w).drawn = s.drawn := rfl

@[simp] theorem State.resetCore_st : s.resetCore.st = State.reset.st := rfl
@[simp] theorem State.resetCore_errCode : s.resetCore.errCode = State.reset.errCode := rfl
@[simp] theorem State.resetCore_errInfo : s.resetCore.errInfo = State.reset.errInfo := rfl
@[simp] theorem State.resetCore_cfgMode : s.resetCore.cfgMode = State.reset.cfgMode := rfl
@[simp] theorem State.resetCore_cfgTest : s.resetCore.cfgTest = State.reset.cfgTest := rfl
@[simp] theorem State.resetCore_width : s.resetCore.width = State.reset.width := rfl
@[simp] theorem State.resetCore_height : s.resetCore.height = State.reset.height := rfl
@[simp] theorem State.resetCore_quality : s.resetCore.quality = State.reset.quality := rfl
@[simp] theorem State.resetCore_intStatus : s.resetCore.intStatus = State.reset.intStatus := rfl
@[simp] theorem State.resetCore_intEnable : s.resetCore.intEnable = State.reset.intEnable := rfl
@[simp] theorem State.resetCore_flags : s.resetCore.flags = State.reset.flags := rfl
@[simp] theorem State.resetCore_outIndex : s.resetCore.outIndex = State.reset.outIndex := rfl
@[simp] theorem State.resetCore_tables : s.resetCore.tables = State.reset.tables := rfl
@[simp] theorem State.resetCore_sfill : s.resetCore.sfill = State.reset.sfill := rfl
@[simp] theorem State.resetCore_bim : s.resetCore.bim = State.reset.bim := rfl
@[simp] theorem State.resetCore_errComp : s.resetCore.errComp = State.reset.errComp := rfl
@[simp] theorem State.resetCore_blkTotal : s.resetCore.blkTotal = State.reset.blkTotal := rfl
@[simp] theorem State.resetCore_blkCount : s.resetCore.blkCount = State.reset.blkCount := rfl
@[simp] theorem State.resetCore_predY : s.resetCore.predY = State.reset.predY := rfl
@[simp] theorem State.resetCore_predCb : s.resetCore.predCb = State.reset.predCb := rfl
@[simp] theorem State.resetCore_predCr : s.resetCore.predCr = State.reset.predCr := rfl
@[simp] theorem State.resetCore_lastblk : s.resetCore.lastblk = State.reset.lastblk := rfl
@[simp] theorem State.resetCore_ibuf : s.resetCore.ibuf = State.reset.ibuf := rfl
@[simp] theorem State.resetCore_ehuf : s.resetCore.ehuf = State.reset.ehuf := rfl
@[simp] theorem State.resetCore_acc : s.resetCore.acc = State.reset.acc := rfl
@[simp] theorem State.resetCore_nbits : s.resetCore.nbits = State.reset.nbits := rfl
@[simp] theorem State.resetCore_flushed : s.resetCore.flushed = State.reset.flushed := rfl
@[simp] theorem State.resetCore_obuf : s.resetCore.obuf = State.reset.obuf := rfl
@[simp] theorem State.resetCore_olen : s.resetCore.olen = State.reset.olen := rfl
@[simp] theorem State.resetCore_rdata : s.resetCore.rdata = s.rdata := rfl
@[simp] theorem State.resetCore_pending : s.resetCore.pending = s.pending := rfl
@[simp] theorem State.resetCore_drawn : s.resetCore.drawn = s.drawn := rfl

@[simp] theorem errorEntry_st (e : ErrorCode) (info : Word) : (errorEntry e info s).st = .error := rfl
@[simp] theorem errorEntry_errCode (e : ErrorCode) (info : Word) : (errorEntry e info s).errCode = e := rfl
@[simp] theorem errorEntry_errInfo (e : ErrorCode) (info : Word) : (errorEntry e info s).errInfo = info := rfl
@[simp] theorem errorEntry_cfgMode (e : ErrorCode) (info : Word) : (errorEntry e info s).cfgMode = s.cfgMode := rfl
@[simp] theorem errorEntry_cfgTest (e : ErrorCode) (info : Word) : (errorEntry e info s).cfgTest = s.cfgTest := rfl
@[simp] theorem errorEntry_width (e : ErrorCode) (info : Word) : (errorEntry e info s).width = s.width := rfl
@[simp] theorem errorEntry_height (e : ErrorCode) (info : Word) : (errorEntry e info s).height = s.height := rfl
@[simp] theorem errorEntry_quality (e : ErrorCode) (info : Word) : (errorEntry e info s).quality = s.quality := rfl
@[simp] theorem errorEntry_intStatus (e : ErrorCode) (info : Word) : (errorEntry e info s).intStatus = s.intStatus ||| errorBit := rfl
@[simp] theorem errorEntry_intEnable (e : ErrorCode) (info : Word) : (errorEntry e info s).intEnable = s.intEnable := rfl
@[simp] theorem errorEntry_flags (e : ErrorCode) (info : Word) : (errorEntry e info s).flags = s.flags := rfl
@[simp] theorem errorEntry_outIndex (e : ErrorCode) (info : Word) : (errorEntry e info s).outIndex = s.outIndex := rfl
@[simp] theorem errorEntry_tables (e : ErrorCode) (info : Word) : (errorEntry e info s).tables = s.tables := rfl
@[simp] theorem errorEntry_obuf (e : ErrorCode) (info : Word) : (errorEntry e info s).obuf = s.obuf := rfl
@[simp] theorem errorEntry_olen (e : ErrorCode) (info : Word) : (errorEntry e info s).olen = 0 := rfl
@[simp] theorem errorEntry_rdata (e : ErrorCode) (info : Word) : (errorEntry e info s).rdata = s.rdata := rfl
@[simp] theorem errorEntry_pending (e : ErrorCode) (info : Word) : (errorEntry e info s).pending = s.pending := rfl
@[simp] theorem errorEntry_drawn (e : ErrorCode) (info : Word) : (errorEntry e info s).drawn = s.drawn + 2048 := rfl

@[simp] theorem State.setPred_st (c : Component) (v : BitVec 16) : (s.setPred c v).st = s.st := by cases c <;> rfl
@[simp] theorem State.setPred_errCode (c : Component) (v : BitVec 16) : (s.setPred c v).errCode = s.errCode := by cases c <;> rfl
@[simp] theorem State.setPred_errInfo (c : Component) (v : BitVec 16) : (s.setPred c v).errInfo = s.errInfo := by cases c <;> rfl
@[simp] theorem State.setPred_cfgMode (c : Component) (v : BitVec 16) : (s.setPred c v).cfgMode = s.cfgMode := by cases c <;> rfl
@[simp] theorem State.setPred_cfgTest (c : Component) (v : BitVec 16) : (s.setPred c v).cfgTest = s.cfgTest := by cases c <;> rfl
@[simp] theorem State.setPred_width (c : Component) (v : BitVec 16) : (s.setPred c v).width = s.width := by cases c <;> rfl
@[simp] theorem State.setPred_height (c : Component) (v : BitVec 16) : (s.setPred c v).height = s.height := by cases c <;> rfl
@[simp] theorem State.setPred_quality (c : Component) (v : BitVec 16) : (s.setPred c v).quality = s.quality := by cases c <;> rfl
@[simp] theorem State.setPred_intStatus (c : Component) (v : BitVec 16) : (s.setPred c v).intStatus = s.intStatus := by cases c <;> rfl
@[simp] theorem State.setPred_intEnable (c : Component) (v : BitVec 16) : (s.setPred c v).intEnable = s.intEnable := by cases c <;> rfl
@[simp] theorem State.setPred_flags (c : Component) (v : BitVec 16) : (s.setPred c v).flags = s.flags := by cases c <;> rfl
@[simp] theorem State.setPred_outIndex (c : Component) (v : BitVec 16) : (s.setPred c v).outIndex = s.outIndex := by cases c <;> rfl
@[simp] theorem State.setPred_tables (c : Component) (v : BitVec 16) : (s.setPred c v).tables = s.tables := by cases c <;> rfl
@[simp] theorem State.setPred_sfill (c : Component) (v : BitVec 16) : (s.setPred c v).sfill = s.sfill := by cases c <;> rfl
@[simp] theorem State.setPred_bim (c : Component) (v : BitVec 16) : (s.setPred c v).bim = s.bim := by cases c <;> rfl
@[simp] theorem State.setPred_errComp (c : Component) (v : BitVec 16) : (s.setPred c v).errComp = s.errComp := by cases c <;> rfl
@[simp] theorem State.setPred_blkTotal (c : Component) (v : BitVec 16) : (s.setPred c v).blkTotal = s.blkTotal := by cases c <;> rfl
@[simp] theorem State.setPred_blkCount (c : Component) (v : BitVec 16) : (s.setPred c v).blkCount = s.blkCount := by cases c <;> rfl
@[simp] theorem State.setPred_lastblk (c : Component) (v : BitVec 16) : (s.setPred c v).lastblk = s.lastblk := by cases c <;> rfl
@[simp] theorem State.setPred_ibuf (c : Component) (v : BitVec 16) : (s.setPred c v).ibuf = s.ibuf := by cases c <;> rfl
@[simp] theorem State.setPred_ehuf (c : Component) (v : BitVec 16) : (s.setPred c v).ehuf = s.ehuf := by cases c <;> rfl
@[simp] theorem State.setPred_acc (c : Component) (v : BitVec 16) : (s.setPred c v).acc = s.acc := by cases c <;> rfl
@[simp] theorem State.setPred_nbits (c : Component) (v : BitVec 16) : (s.setPred c v).nbits = s.nbits := by cases c <;> rfl
@[simp] theorem State.setPred_flushed (c : Component) (v : BitVec 16) : (s.setPred c v).flushed = s.flushed := by cases c <;> rfl
@[simp] theorem State.setPred_obuf (c : Component) (v : BitVec 16) : (s.setPred c v).obuf = s.obuf := by cases c <;> rfl
@[simp] theorem State.setPred_olen (c : Component) (v : BitVec 16) : (s.setPred c v).olen = s.olen := by cases c <;> rfl
@[simp] theorem State.setPred_rdata (c : Component) (v : BitVec 16) : (s.setPred c v).rdata = s.rdata := by cases c <;> rfl
@[simp] theorem State.setPred_pending (c : Component) (v : BitVec 16) : (s.setPred c v).pending = s.pending := by cases c <;> rfl
@[simp] theorem State.setPred_drawn (c : Component) (v : BitVec 16) : (s.setPred c v).drawn = s.drawn := by cases c <;> rfl

@[simp] theorem State.setPred_pred_same (c : Component) (v : BitVec 16) : (s.setPred c v).pred c = v := by
  cases c <;> rfl

theorem State.setPred_pred_other (c d : Component) (v : BitVec 16) (h : d ≠ c) : (s.setPred c v).pred d = s.pred d := by
  cases c <;> cases d <;> first | rfl | exact absurd rfl h

end Sys2Proof.Machine
end

