-- ==== Sys2Proof/Laws/Bits.lean ====
section
/-! SUPPORT. Bit strings, the bytes they are cut into, and what appending output to OBUF composes to. -/

namespace Sys2Proof.Machine

/-! ## Bit strings -/

@[simp] theorem length_lowBits {w : Nat} (v : BitVec w) (n : Nat) : (lowBits v n).length = n := by
  induction n with
  | zero => rfl
  | succ n ih => simp [lowBits, ih]

theorem lowBits_congr {w w' : Nat} {v : BitVec w} {v' : BitVec w'} {n : Nat}
    (h : ∀ i, i < n → v.getLsbD i = v'.getLsbD i) : lowBits v n = lowBits v' n := by
  induction n with
  | zero => rfl
  | succ n ih => simp [lowBits, h n (by omega), ih fun i hi => h i (by omega)]

/-- The last bit of a bit string is bit 0. -/
theorem lowBits_succ_last {w : Nat} (v : BitVec w) (n : Nat) :
    lowBits v (n + 1) = lowBits (v >>> 1) n ++ [v.getLsbD 0] := by
  induction n with
  | zero => rfl
  | succ n ih =>
    rw [lowBits, ih, lowBits]
    simp [BitVec.getLsbD_ushiftRight, Nat.add_comm]

/-- Shifting a bit into the accumulator puts it behind the pending bits. -/
theorem lowBits_shift_in (acc : Byte) (bit : Bool) {n : Nat} (h : n + 1 ≤ 8) :
    lowBits (acc <<< 1 ||| (BitVec.ofBool bit).setWidth 8) (n + 1) = lowBits acc n ++ [bit] := by
  rw [lowBits_succ_last]
  congr 1
  · apply lowBits_congr
    intro i hi
    have : 1 + i < 8 := by omega
    rw [BitVec.getLsbD_ushiftRight, BitVec.getLsbD_or, BitVec.getLsbD_shiftLeft, BitVec.getLsbD_setWidth]
    have h0 : (BitVec.ofBool bit).getLsbD (1 + i) = false := BitVec.getLsbD_of_ge _ _ (by omega)
    have h1 : ¬ 1 + i < 1 := by omega
    simp only [h0, h1, this, Nat.add_sub_cancel_left]
    simp
  · cases bit <;> simp

theorem byteOfBits_lowBits (b : Byte) : byteOfBits (lowBits b 8) = b := by
  revert b; decide +kernel

theorem cutBytes_short {l : List Bool} (h : l.length < 8) : cutBytes l = ([], l) := by
  unfold cutBytes
  split
  · simp only [List.length_cons] at h; omega
  · rfl

theorem cutBytes_eight {l rest : List Bool} (h : l.length = 8) :
    cutBytes (l ++ rest) = (byteOfBits l :: (cutBytes rest).1, (cutBytes rest).2) := by
  match l, h with
  | [_, _, _, _, _, _, _, _], _ => rfl

theorem length_cutBytes_snd (l : List Bool) : (cutBytes l).2.length < 8 := by
  fun_induction cutBytes l with
  | case1 => assumption
  | case2 l h =>
    match l, h with
    | [], _ | [_], _ | [_, _], _ | [_, _, _], _ | [_, _, _, _], _ | [_, _, _, _, _], _
    | [_, _, _, _, _, _], _ | [_, _, _, _, _, _, _], _ => simp
    | b7 :: b6 :: b5 :: b4 :: b3 :: b2 :: b1 :: b0 :: rest, h => exact (h _ _ _ _ _ _ _ _ _ rfl).elim

/-- Cutting a longer string goes on from the bits left over (R173). -/
theorem cutBytes_append (l m : List Bool) :
    cutBytes (l ++ m) = ((cutBytes l).1 ++ (cutBytes ((cutBytes l).2 ++ m)).1, (cutBytes ((cutBytes l).2 ++ m)).2) := by
  fun_induction cutBytes l with
  | case1 _ _ _ _ _ _ _ _ _ ih => simp only [List.cons_append, cutBytes, ih]
  | case2 => rfl

theorem length_cutBytes (l : List Bool) : 8 * (cutBytes l).1.length + (cutBytes l).2.length = l.length := by
  fun_induction cutBytes l with
  | case1 _ _ _ _ _ _ _ _ _ ih => simp only [List.length_cons]; omega
  | case2 => simp

theorem stuffed_append (a b : List Byte) : stuffed (a ++ b) = stuffed a ++ stuffed b := by
  induction a with
  | nil => rfl
  | cons x a ih =>
    simp only [List.cons_append, stuffed]
    split <;> simp [ih]

theorem length_stuffed_le (a : List Byte) : (stuffed a).length ≤ 2 * a.length := by
  induction a with
  | nil => simp [stuffed]
  | cons x a ih =>
    simp only [stuffed]
    split <;> simp only [List.length_cons] <;> omega

/-! ## Appended output -/

theorem State.appends_nil {s t : State} (h1 : t.olen = s.olen) (h2 : t.obuf = s.obuf) : s.appends t [] :=
  ⟨by simpa using h1, fun j hj => by simp at hj, fun j _ => by simp only [State.outByte, h2]⟩

theorem State.appends_trans {s t u : State} {a b : List Byte} (h : s.appends t a) (h' : t.appends u b) :
    s.appends u (a ++ b) := by
  obtain ⟨hl, hh, hr⟩ := h
  obtain ⟨hl', hh', hr'⟩ := h'
  refine ⟨by simp only [List.length_append]; omega, fun j hj => ?_, fun j hj => ?_⟩
  · by_cases hja : j < a.length
    · rw [List.getD_append _ _ _ _ hja, ← hh j hja]
      exact hr' _ (by omega)
    · simp only [List.length_append] at hj
      have hj' := hh' (j - a.length) (by omega)
      rw [List.getD_append_right _ _ _ _ (by omega), ← hj', hl]
      congr 1; omega
  · simp only [List.length_append] at hj
    rw [hr' j (by omega), hr j (by omega)]

/-- Appending does not look at anything but OBUF and OLEN. -/
theorem State.appends_congr {s s' t t' : State} {a : List Byte} (hs : s'.obuf = s.obuf) (hs' : s'.olen = s.olen)
    (ht : t'.obuf = t.obuf) (ht' : t'.olen = t.olen) (h : s.appends t a) : s'.appends t' a := by
  simpa only [State.appends, State.holdsAt, State.outByte, hs, hs', ht, ht'] using h

end Sys2Proof.Machine
end

