-- ==== Sys2Proof/Laws/Packer.lean ====
section
/-! SUPPORT. What the output primitives of Machine/Packer.lean do: one lemma each that says all of it. -/

namespace Sys2Proof.Machine

theorem obufBytes_ge : 1024 ≤ Config.obufBytes := by
  have h : (2 : Nat) ^ 10 ≤ 2 ^ (10 + Config.obufLog % 22) := Nat.pow_le_pow_right (by norm_num) (by omega)
  simpa [Config.obufBytes] using h

theorem obufBytes_le : Config.obufBytes ≤ 2 ^ 31 :=
  Nat.pow_le_pow_right (by norm_num) (by have := Nat.mod_lt Config.obufLog (show 0 < 22 by norm_num); omega)

/-- The full test is `OLEN = OBUF_BYTES` (R170). -/
theorem obufFull_iff (s : State) : s.obufFull = true ↔ s.olen = Config.obufBytes := by
  have := obufBytes_ge
  simp only [State.obufFull, Bool.and_eq_true, decide_eq_true_eq]
  omega

/-- t is s but for OBUF and OLEN. -/
def State.outputOnly (s t : State) : Prop := t = { s with obuf := t.obuf, olen := t.olen }

/-- t is s but for OBUF, OLEN and the accumulator. -/
def State.packerOnly (s t : State) : Prop := t = { s with obuf := t.obuf, olen := t.olen, acc := t.acc, nbits := t.nbits }

theorem State.outputOnly_trans {s t u : State} (h : s.outputOnly t) (h' : t.outputOnly u) : s.outputOnly u := by
  rw [State.outputOnly] at *; rw [h', h]

theorem State.packerOnly_trans {s t u : State} (h : s.packerOnly t) (h' : t.packerOnly u) : s.packerOnly u := by
  rw [State.packerOnly] at *; rw [h', h]

theorem State.packerOnly_refl (s : State) : s.packerOnly s := rfl

/-- emit_byte into a full buffer raises OUTPUT_OVERFLOW with BLK_COUNT. -/
theorem emitByte_full {b : Byte} {s : State} (h : s.olen = Config.obufBytes) :
    emitByte b s = .error (.raised .outputOverflow s.blkCount) := by
  rw [emitByte, if_pos ((obufFull_iff s).2 h)]

/-- emit_byte into a buffer with room. -/
theorem emitByte_room {b : Byte} {s : State} (h : s.olen ≠ Config.obufBytes) :
    emitByte b s = .ok { s with obuf := Memory.write .output s.obuf s.olen b, olen := s.olen + 1 } := by
  rw [emitByte, if_neg (by rwa [obufFull_iff])]

/-- The state emit_byte leaves has the byte appended. -/
theorem appends_write {s : State} {b : Byte} (hw : Memory.wf .output s.obuf = true) :
    s.appends { s with obuf := Memory.write .output s.obuf s.olen b, olen := s.olen + 1 } [b] := by
  refine ⟨rfl, fun j hj => ?_, fun j hj => ?_⟩
  · obtain rfl : j = 0 := by simpa using hj
    exact Memory.read_write_same hw
  · simp only [List.length_singleton] at hj
    exact Memory.read_write_other (by omega)

/-- emit_byte of a list: what it leaves, and the one error it can raise, for want of room. -/
theorem emitBytes_cases {bs : List Byte} {s : State} :
    (∃ t, emitBytes bs s = .ok t ∧ s.outputOnly t ∧ t.olen = s.olen + bs.length ∧
      (s.olen ≤ Config.obufBytes → t.olen ≤ Config.obufBytes) ∧
      (Memory.wf .output s.obuf = true → s.appends t bs ∧ Memory.wf .output t.obuf = true)) ∨
    (emitBytes bs s = .error (.raised .outputOverflow s.blkCount) ∧ Config.obufBytes < s.olen + bs.length) := by
  induction bs generalizing s with
  | nil => exact .inl ⟨s, rfl, rfl, rfl, id, fun hw => ⟨State.appends_nil rfl rfl, hw⟩⟩
  | cons b bs ih =>
    by_cases h : s.olen = Config.obufBytes
    · exact .inr ⟨by rw [emitBytes, emitByte_full h]; rfl, by simp only [List.length_cons]; omega⟩
    · have h1 := emitByte_room (b := b) h
      rcases ih (s := { s with obuf := Memory.write .output s.obuf s.olen b, olen := s.olen + 1 }) with
        ⟨t, ht, hf, hl, hb, ha⟩ | ⟨ht, hroom⟩
      · refine .inl ⟨t, by rw [emitBytes, h1]; exact ht, ?_, ?_, ?_, fun hw => ?_⟩
        · rw [State.outputOnly] at *; rw [hf]
        · rw [hl]; simp only [List.length_cons]; omega
        · intro hs; exact hb (by simp only; omega)
        · have := ha (Memory.wf_write hw)
          exact ⟨State.appends_trans (appends_write hw) this.1, this.2⟩
      · refine .inr ⟨by rw [emitBytes, h1]; exact ht, ?_⟩
        simp only [List.length_cons] at *; omega

/-- emit_byte of a list: all of it is appended where it fits. -/
theorem emitBytes_room {bs : List Byte} {s : State} (hw : Memory.wf .output s.obuf = true)
    (h : s.olen + bs.length ≤ Config.obufBytes) :
    ∃ t, emitBytes bs s = .ok t ∧ s.outputOnly t ∧ s.appends t bs ∧ Memory.wf .output t.obuf = true := by
  rcases emitBytes_cases (bs := bs) (s := s) with ⟨t, ht, hf, -, -, ha⟩ | ⟨-, hn⟩
  · exact ⟨t, ht, hf, (ha hw).1, (ha hw).2⟩
  · omega

theorem emitEntropyByte_eq (b : Byte) (s : State) : emitEntropyByte b s = emitBytes (stuffed [b]) s := by
  simp only [emitEntropyByte, stuffed]
  split
  · simp only [emitBytes]
    cases emitByte b s with
    | error e => rfl
    | ok t =>
      show emitByte 0x00#8 t = (emitByte 0x00#8 t >>= fun u => .ok u)
      cases emitByte 0x00#8 t <;> rfl
  · simp only [emitBytes]
    cases emitByte b s <;> rfl

/-- The bit accumulator between calls (10_state.md R52). -/
def State.accOk (s : State) : Prop := s.nbits.toNat ≤ 7 ∧ s.acc.toNat < 2 ^ s.nbits.toNat

/-- What writing a bit string does where it succeeds: output and pending bits are those of the concatenation (R173). -/
structure State.PacksTo (s t : State) (bits : List Bool) : Prop where
  frame : s.packerOnly t
  fits : s.olen ≤ Config.obufBytes → t.olen ≤ Config.obufBytes
  canonical : Memory.wf .output s.obuf = true → Memory.wf .output t.obuf = true
  acc : t.accOk
  len : t.olen = s.olen + (stuffed (cutBytes (s.pendingBits ++ bits)).1).length
  out : Memory.wf .output s.obuf = true → s.appends t (stuffed (cutBytes (s.pendingBits ++ bits)).1)
  pending : t.pendingBits = (cutBytes (s.pendingBits ++ bits)).2

theorem State.pendingBits_short {s : State} (h : s.accOk) : s.pendingBits.length < 8 := by
  have := h.1
  simp only [State.pendingBits, length_lowBits]; omega

theorem State.PacksTo.refl {s : State} (h : s.accOk) : s.PacksTo s [] := by
  have hs := cutBytes_short (State.pendingBits_short h)
  refine ⟨rfl, id, id, h, ?_, fun _ => ?_, ?_⟩ <;> simp only [List.append_nil, hs]
  · rfl
  · exact State.appends_nil rfl rfl

theorem State.PacksTo.trans {s t u : State} {a b : List Bool} (h : s.PacksTo t a) (h' : t.PacksTo u b) :
    s.PacksTo u (a ++ b) := by
  have hc : cutBytes (s.pendingBits ++ (a ++ b)) =
      ((cutBytes (s.pendingBits ++ a)).1 ++ (cutBytes (t.pendingBits ++ b)).1, (cutBytes (t.pendingBits ++ b)).2) := by
    rw [← List.append_assoc, cutBytes_append, ← h.pending]
  refine ⟨State.packerOnly_trans h.frame h'.frame, fun hs => h'.fits (h.fits hs), fun hw => h'.canonical (h.canonical hw),
    h'.acc, ?_, fun hw => ?_, ?_⟩
  · rw [hc, stuffed_append, List.length_append, h'.len, h.len]; omega
  · rw [hc, stuffed_append]
    exact State.appends_trans (h.out hw) (h'.out (h.canonical hw))
  · rw [hc, h'.pending]

/-- The room a longer bit string needs is at least that of its start. -/
theorem room_mono (p a b : List Bool) :
    (stuffed (cutBytes (p ++ a)).1).length ≤ (stuffed (cutBytes (p ++ (a ++ b))).1).length := by
  rw [← List.append_assoc, cutBytes_append (p ++ a) b, stuffed_append, List.length_append]; omega

/-- An operation that packs a bit string, or runs out of room for it: all that write_bits and the coders can do. -/
def Packs (f : State → Except Stop State) (bits : List Bool) (s : State) : Prop :=
  (∃ t, f s = .ok t ∧ s.PacksTo t bits) ∨
    (f s = .error (.raised .outputOverflow s.blkCount) ∧
      Config.obufBytes < s.olen + (stuffed (cutBytes (s.pendingBits ++ bits)).1).length)

/-- Packing one string, then another. -/
theorem Packs.bind {f g : State → Except Stop State} {a b : List Bool} {s : State} (hf : Packs f a s)
    (hg : ∀ t, s.PacksTo t a → Packs g b t) : Packs (fun s => f s >>= g) (a ++ b) s := by
  rcases hf with ⟨t, ht, hp⟩ | ⟨ht, hr⟩
  · rcases hg t hp with ⟨u, hu, hq⟩ | ⟨hu, hr⟩
    · exact .inl ⟨u, by simp only [ht]; exact hu, State.PacksTo.trans hp hq⟩
    · refine .inr ⟨by simp only [ht]; rw [show s.blkCount = t.blkCount by rw [hp.frame]]; exact hu, ?_⟩
      have hc : cutBytes (s.pendingBits ++ (a ++ b)) =
          ((cutBytes (s.pendingBits ++ a)).1 ++ (cutBytes (t.pendingBits ++ b)).1, (cutBytes (t.pendingBits ++ b)).2) := by
        rw [← List.append_assoc, cutBytes_append, ← hp.pending]
      rw [hc, stuffed_append, List.length_append, ← Nat.add_assoc, ← hp.len]
      exact hr
  · exact .inr ⟨by simp only [ht]; rfl, lt_of_lt_of_le hr (Nat.add_le_add_left (room_mono _ _ _) _)⟩

/-- One bit goes behind the pending bits. -/
theorem appendBit_packs (bit : Bool) {s : State} (h : s.accOk) : Packs (appendBit bit) [bit] s := by
  obtain ⟨hn, ha⟩ := h
  have hn1 : (s.nbits + 1#4).toNat = s.nbits.toNat + 1 := by
    rw [BitVec.toNat_add]; simp; omega
  have hpend : s.pendingBits ++ [bit] =
      lowBits (s.acc <<< 1 ||| (BitVec.ofBool bit).setWidth 8) (s.nbits.toNat + 1) :=
    (lowBits_shift_in s.acc bit (by omega)).symm
  simp only [Packs, appendBit]
  by_cases h8 : s.nbits + 1#4 = 8#4
  · rw [if_pos h8, emitEntropyByte_eq]
    have h7 : s.nbits.toNat + 1 = 8 := by rw [← hn1, h8]; rfl
    have hcut : cutBytes (s.pendingBits ++ [bit]) =
        ([s.acc <<< 1 ||| (BitVec.ofBool bit).setWidth 8], []) := by
      have h := cutBytes_eight (l := s.pendingBits ++ [bit]) (rest := [])
        (by rw [hpend, length_lowBits, h7])
      rw [List.append_nil, hpend, h7, byteOfBits_lowBits] at h
      rw [hpend, h7, h]; rfl
    rcases emitBytes_cases (bs := stuffed [s.acc <<< 1 ||| (BitVec.ofBool bit).setWidth 8])
      (s := { s with acc := 0#8, nbits := 0#4 }) with ⟨t, ht, hf, hl, hfit, hout⟩ | ⟨ht, hroom⟩
    · refine .inl ⟨t, ht, ?_⟩
      have hacc : t.acc = 0#8 := by rw [hf]
      have hnb : t.nbits = 0#4 := by rw [hf]
      refine ⟨?_, fun hs => hfit hs, fun hw => (hout hw).2, ?_, by rw [hcut]; exact hl, fun hw => ?_, ?_⟩
      · rw [State.packerOnly]; rw [State.outputOnly] at hf; rw [hf]
      · simp [State.accOk, hacc, hnb]
      · rw [hcut]
        exact State.appends_congr rfl rfl rfl rfl (hout hw).1
      · rw [hcut]; simp [State.pendingBits, hnb, lowBits]
    · exact .inr ⟨ht, by rw [hcut]; exact hroom⟩
  · rw [if_neg h8]
    have hlt : s.nbits.toNat + 1 ≤ 7 := by
      by_contra hc
      exact h8 (BitVec.eq_of_toNat_eq (by rw [hn1]; simp; omega))
    have hcut : cutBytes (s.pendingBits ++ [bit]) = ([], s.pendingBits ++ [bit]) :=
      cutBytes_short (by rw [hpend, length_lowBits]; omega)
    refine .inl ⟨_, rfl, rfl, id, id, ⟨by simp only [hn1]; omega, ?_⟩, by rw [hcut]; rfl, fun _ => ?_, ?_⟩
    · simp only [hn1]
      have hor : ∀ (a : Byte) (n : Nat), n < 7 → a.toNat < 2 ^ n → ∀ b : Bool,
          (a <<< 1 ||| (BitVec.ofBool b).setWidth 8).toNat < 2 ^ (n + 1) := by decide +kernel
      exact hor s.acc s.nbits.toNat (by omega) ha bit
    · rw [hcut]; exact State.appends_nil rfl rfl
    · rw [hcut, hpend]; simp only [State.pendingBits, hn1]

/-- The bits of a value, one after the other. -/
theorem appendBits_packs (v : BitVec 16) (n : Nat) {s : State} (h : s.accOk) :
    Packs (appendBits v n) (lowBits v n) s := by
  induction n generalizing s with
  | zero => exact .inl ⟨s, rfl, State.PacksTo.refl h⟩
  | succ n ih => exact Packs.bind (appendBit_packs (v.getLsbD n) h) fun t ht => ih ht.acc

/-- write_bits before the flush packs the low n bits of v, or raises OUTPUT_OVERFLOW for want of room (R172, R173). -/
theorem writeBits_packs (v : BitVec 16) (n : Nat) {s : State} (h : s.accOk) (hf : s.flushed = false) :
    Packs (writeBits v n) (lowBits v n) s := by
  have := appendBits_packs v n h
  simpa only [Packs, writeBits, hf, if_neg Bool.false_ne_true] using this

/-- write_bits after the flush is refused (93 U14). -/
theorem writeBits_flushed (v : BitVec 16) (n : Nat) {s : State} (hf : s.flushed = true) :
    writeBits v n s = .error (.refused .packerFlushed) := by
  rw [writeBits, hf]; rfl

/-- The bits of the last byte of a flush: the pending ones, then 1-bits (R174). -/
def State.paddedBits (s : State) : List Bool :=
  s.pendingBits ++ List.replicate (if s.nbits = 0#4 then 0 else 8 - s.nbits.toNat) true

/-- The padded byte is the byte of the padded bits. -/
theorem paddedByte_eq : ∀ (acc : Byte) (n : Nat), n < 8 → 0 < n → acc.toNat < 2 ^ n →
    paddedByte acc n = byteOfBits (lowBits acc n ++ List.replicate (8 - n) true) := by
  decide +kernel

/-- flush packs the pending bits padded with 1-bits to a whole byte, empties the accumulator and sets FLUSHED (R174). -/
theorem flush_cases {s : State} (h : s.accOk) (hf : s.flushed = false) :
    (∃ t, flush s = .ok t ∧ t = { s with obuf := t.obuf, olen := t.olen, acc := 0#8, nbits := 0#4, flushed := true } ∧
      t.olen = s.olen + (stuffed (cutBytes s.paddedBits).1).length ∧
      (s.olen ≤ Config.obufBytes → t.olen ≤ Config.obufBytes) ∧
      (Memory.wf .output s.obuf = true →
        s.appends t (stuffed (cutBytes s.paddedBits).1) ∧ Memory.wf .output t.obuf = true)) ∨
    (flush s = .error (.raised .outputOverflow s.blkCount) ∧
      Config.obufBytes < s.olen + (stuffed (cutBytes s.paddedBits).1).length) := by
  obtain ⟨hn, ha⟩ := h
  rw [flush, if_neg (by simp [hf])]
  by_cases h0 : s.nbits = 0#4
  · have hacc : s.acc = 0#8 := by
      have h1 : s.acc.toNat < 1 := by simpa [h0] using ha
      exact BitVec.eq_of_toNat_eq (by simp; omega)
    have hp : cutBytes s.paddedBits = ([], []) := by simp [State.paddedBits, State.pendingBits, h0, lowBits, cutBytes]
    rw [if_pos h0, hp]
    refine .inl ⟨_, rfl, ?_, rfl, id, fun hw => ⟨State.appends_nil rfl rfl, hw⟩⟩
    show _ = _
    simp only [← h0, ← hacc]
  · rw [if_neg h0, emitEntropyByte_eq]
    have hpos : 0 < s.nbits.toNat := by
      rcases Nat.eq_zero_or_pos s.nbits.toNat with h | h
      · exact absurd (BitVec.eq_of_toNat_eq (by simpa using h)) h0
      · exact h
    have hcut : (cutBytes s.paddedBits).1 = [paddedByte s.acc s.nbits.toNat] := by
      have := cutBytes_eight (l := s.paddedBits) (rest := [])
        (by simp only [State.paddedBits, if_neg h0, State.pendingBits, List.length_append, length_lowBits,
              List.length_replicate]; omega)
      rw [List.append_nil] at this
      rw [this, paddedByte_eq _ _ (by omega) hpos ha]
      simp [State.paddedBits, if_neg h0, State.pendingBits, cutBytes]
    rcases emitBytes_cases (bs := stuffed [paddedByte s.acc s.nbits.toNat])
      (s := { s with acc := 0#8, nbits := 0#4 }) with ⟨t, ht, hft, hl, hfit, hout⟩ | ⟨ht, hroom⟩
    · refine .inl ⟨{ t with flushed := true }, by rw [ht]; rfl, ?_, by rw [hcut]; exact hl, hfit, fun hw => ?_⟩
      · rw [State.outputOnly] at hft; rw [hft]
      · rw [hcut]
        exact ⟨State.appends_congr rfl rfl rfl rfl (hout hw).1, (hout hw).2⟩
    · exact .inr ⟨by rw [ht]; rfl, by rw [hcut]; exact hroom⟩

end Sys2Proof.Machine
end

