-- ==== Sys2Proof/Laws/Entropy.lean ====
section
/-! SUPPORT. What the coders of Machine/Entropy.lean do: the bits they pack, and the two errors they can raise. -/

namespace Sys2Proof.Machine

/-! ## Coding one symbol -/

/-- A symbol with a code packs the bits of the code (R153). -/
theorem emitCode_packs {h : HTab} {sym : Byte} {s : State} (hs : s.accOk) (hf : s.flushed = false)
    (hc : (codeFor s.ehuf h sym).isSome = true) : Packs (emitCode h sym) (codeBits s.ehuf h sym) s := by
  obtain ⟨x, hx⟩ := Option.isSome_iff_exists.1 hc
  have := writeBits_packs x.code x.len hs hf
  simpa only [Packs, emitCode, codeBits, hx] using this

/-- A symbol without a code raises UNDEFINED_SYMBOL (R153). -/
theorem emitCode_undefined {h : HTab} {sym : Byte} {s : State} (hc : codeFor s.ehuf h sym = none) :
    emitCode h sym s = .error (.raised .undefinedSymbol (undefinedInfo s.blkCount h sym)) := by
  simp only [emitCode, hc]

/-- ERR_INFO of UNDEFINED_SYMBOL: block number modulo 2^16, table, symbol (60_exceptions.md R262). -/
theorem undefinedInfo_eq (b : Word) (h : HTab) (sym : Byte) :
    undefinedInfo b h sym = BitVec.ofNat 32 (b.toNat % 65536 * 65536 + 256 * h.index + sym.toNat) := by
  apply BitVec.eq_of_toNat_eq
  have hi : h.index < 4 := by cases h <;> decide
  simp only [undefinedInfo, BitVec.toNat_append, BitVec.toNat_ofNat, BitVec.extractLsb'_toNat, Nat.shiftRight_zero]
  rw [← Nat.shiftLeft_add_eq_or_of_lt sym.isLt, ← Nat.shiftLeft_add_eq_or_of_lt (by omega : h.index % 2 ^ 8 < 2 ^ 8)]
  simp only [Nat.shiftLeft_eq]
  omega

/-- A code, then the value bits (R155, R157, R158). -/
theorem emitCoded_packs {h : HTab} {sym : Byte} {v : Int} {s : State} (hs : s.accOk) (hf : s.flushed = false)
    (hc : (codeFor s.ehuf h sym).isSome = true) : Packs (emitCoded h sym v) (codedBits s.ehuf h sym v) s := by
  refine Packs.bind (emitCode_packs hs hf hc) fun t ht => ?_
  have hft : t.flushed = false := by rw [ht.frame]; exact hf
  by_cases h0 : category v = 0
  · exact .inl ⟨t, by simp only [h0, if_true], by rw [h0]; exact State.PacksTo.refl ht.acc⟩
  · simpa only [Packs, if_neg h0] using writeBits_packs (BitVec.ofNat 16 (valueBits v)) (category v) ht.acc hft

/-! ## Symbol sequences -/

/-- A symbol sequence coded in order: what a block comes to (R157, R158). -/
def emitAll : List CodedSym → State → Except Stop State
  | [], s => .ok s
  | x :: syms, s => emitCoded x.table x.sym x.value s >>= emitAll syms

theorem emitSym_eq (h : HTab) (x : RleSym) (s : State) : emitSym h x s = emitCoded h x.coded.1 x.coded.2 s := by
  cases x with
  | rv run v => rfl
  | eob => simp only [emitSym, emitCoded, RleSym.coded]; cases emitCode h 0x00#8 s <;> rfl
  | zrl => simp only [emitSym, emitCoded, RleSym.coded]; cases emitCode h 0xF0#8 s <;> rfl

theorem acEncode_eq (h : HTab) (syms : List RleSym) (s : State) :
    acEncode h syms s = emitAll (syms.map fun x => ⟨h, x.coded.1, x.coded.2⟩) s := by
  induction syms generalizing s with
  | nil => rfl
  | cons x syms ih => simp only [acEncode, List.map_cons, emitAll, emitSym_eq, funext ih]

/-- A symbol sequence all of whose symbols have codes packs its bits. -/
theorem emitAll_packs {syms : List CodedSym} {s : State} (hs : s.accOk) (hf : s.flushed = false)
    (hc : codesDefined s.ehuf syms) : Packs (emitAll syms) (codedAll s.ehuf syms) s := by
  induction syms generalizing s with
  | nil => exact .inl ⟨s, rfl, State.PacksTo.refl hs⟩
  | cons x syms ih =>
    refine Packs.bind (emitCoded_packs hs hf (hc x (by simp))) fun t ht => ?_
    have he : t.ehuf = s.ehuf := by rw [ht.frame]
    rw [← he]
    exact ih ht.acc (by rw [ht.frame]; exact hf) fun y hy => by rw [he]; exact hc y (by simp [hy])

theorem emitAll_append (a b : List CodedSym) (s : State) : emitAll (a ++ b) s = emitAll a s >>= emitAll b := by
  induction a generalizing s with
  | nil => rfl
  | cons x a ih => simp only [List.cons_append, emitAll, funext ih, bind_assoc]

/-- A symbol sequence up to its first symbol without a code: OUTPUT_OVERFLOW for want of room before it, else
UNDEFINED_SYMBOL (R153, 60_exceptions.md R264). -/
theorem emitAll_undefined {pre post : List CodedSym} {x : CodedSym} {s : State} (hs : s.accOk) (hf : s.flushed = false)
    (hc : codesDefined s.ehuf pre) (hx : codeFor s.ehuf x.table x.sym = none) :
    (emitAll (pre ++ x :: post) s = .error (.raised .undefinedSymbol (undefinedInfo s.blkCount x.table x.sym)) ∧
      (s.olen ≤ Config.obufBytes →
        s.olen + (stuffed (cutBytes (s.pendingBits ++ codedAll s.ehuf pre)).1).length ≤ Config.obufBytes)) ∨
    (emitAll (pre ++ x :: post) s = .error (.raised .outputOverflow s.blkCount) ∧
      Config.obufBytes < s.olen + (stuffed (cutBytes (s.pendingBits ++ codedAll s.ehuf pre)).1).length) := by
  rw [emitAll_append]
  rcases emitAll_packs hs hf hc with ⟨t, ht, hp⟩ | ⟨ht, hr⟩
  · refine .inl ⟨?_, fun h => hp.len ▸ hp.fits h⟩
    have hx' : codeFor t.ehuf x.table x.sym = none := by rw [hp.frame]; exact hx
    have hb : t.blkCount = s.blkCount := by rw [hp.frame]
    simp only [ht, bind, Except.bind, emitAll, emitCoded, emitCode_undefined hx', hb]
  · exact .inr ⟨by rw [ht]; rfl, hr⟩

/-- Either every symbol of a sequence has a code, or there is a first one without. -/
theorem codesDefined_cases (e : EHuf) (syms : List CodedSym) : codesDefined e syms ∨
    ∃ pre x post, syms = pre ++ x :: post ∧ codesDefined e pre ∧ codeFor e x.table x.sym = none := by
  induction syms with
  | nil => exact .inl fun x hx => by simp at hx
  | cons y syms ih =>
    cases hy : codeFor e y.table y.sym with
    | none => exact .inr ⟨[], y, syms, rfl, fun x hx => by simp at hx, hy⟩
    | some c =>
      have hd : ∀ l, codesDefined e l → codesDefined e (y :: l) := fun l h x hx => by
        rcases List.mem_cons.1 hx with rfl | hx
        · rw [hy]; rfl
        · exact h x hx
      rcases ih with h | ⟨pre, x, post, rfl, h, hx⟩
      · exact .inl (hd _ h)
      · exact .inr ⟨y :: pre, x, post, rfl, hd _ h, hx⟩

/-! ## Whatever the tables hold -/

/-- An operation that packs some bits or raises an error: what the coders can do with any table. -/
def PacksOrRaises (f : State → Except Stop State) (s : State) : Prop :=
  (∃ t bits, f s = .ok t ∧ s.PacksTo t bits) ∨
    ∃ e info, f s = .error (.raised e info) ∧ (e = .outputOverflow ∨ e = .undefinedSymbol)

theorem Packs.weaken {f : State → Except Stop State} {bits : List Bool} {s : State} (h : Packs f bits s) :
    PacksOrRaises f s := by
  rcases h with ⟨t, ht, hp⟩ | ⟨ht, -⟩
  · exact .inl ⟨t, bits, ht, hp⟩
  · exact .inr ⟨_, _, ht, .inl rfl⟩

theorem emitAll_cases {syms : List CodedSym} {s : State} (hs : s.accOk) (hf : s.flushed = false) :
    PacksOrRaises (emitAll syms) s := by
  rcases codesDefined_cases s.ehuf syms with h | ⟨pre, x, post, rfl, h, hx⟩
  · exact Packs.weaken (emitAll_packs hs hf h)
  · rcases emitAll_undefined (post := post) hs hf h hx with ⟨h, -⟩ | ⟨h, -⟩
    · exact .inr ⟨_, _, h, .inr rfl⟩
    · exact .inr ⟨_, _, h, .inl rfl⟩

/-! ## Run lengths -/

theorem lastNonzero_le (l : List Int) : lastNonzero l ≤ l.length := by
  induction l with
  | nil => simp [lastNonzero]
  | cons v l ih =>
    simp only [lastNonzero, List.length_cons]
    split
    · split <;> omega
    · omega

/-- The symbols of a scan: runs of at most 15, nonzero values taken from the block (R139). -/
theorem rleScan_mem {run : Nat} {l : List Int} {r : Nat} {v : Int} (hr : run ≤ 15)
    (h : RleSym.rv r v ∈ rleScan run l) : r ≤ 15 ∧ v ≠ 0 ∧ v ∈ l := by
  induction l generalizing run with
  | nil => simp [rleScan] at h
  | cons x l ih =>
    simp only [rleScan] at h
    split at h
    · split at h
      · have := ih (run := 0) (by omega) (by simpa using h)
        exact ⟨this.1, this.2.1, List.mem_cons_of_mem _ this.2.2⟩
      · have := ih (run := run + 1) (by omega) h
        exact ⟨this.1, this.2.1, List.mem_cons_of_mem _ this.2.2⟩
    · rcases List.mem_cons.1 h with h | h
      · obtain ⟨rfl, rfl⟩ := RleSym.rv.inj h
        exact ⟨hr, ‹_›, by simp⟩
      · have := ih (run := 0) (by omega) h
        exact ⟨this.1, this.2.1, List.mem_cons_of_mem _ this.2.2⟩

theorem rle_mem {ac : List Int} {r : Nat} {v : Int} (h : RleSym.rv r v ∈ rle ac) : r ≤ 15 ∧ v ≠ 0 ∧ v ∈ ac := by
  simp only [rle] at h
  split at h
  · simp at h
  · rcases List.mem_append.1 h with h | h
    · have := rleScan_mem (by omega) h
      exact ⟨this.1, this.2.1, List.mem_of_mem_take this.2.2⟩
    · split at h <;> simp at h

/-! ## Category -/

theorem category_lt (v : Int) : v.natAbs < 2 ^ category v := by
  unfold category
  split
  · simp [‹v = 0›]
  · exact Nat.lt_log2_self

theorem category_le {v : Int} {n : Nat} (h : v.natAbs < 2 ^ n) : category v ≤ n := by
  unfold category
  split
  · omega
  · have : v.natAbs.log2 < n := (Nat.log2_lt (by omega)).2 h
    omega

theorem category_pos {v : Int} (h : v ≠ 0) : 1 ≤ category v := by
  simp [category, h]

/-! ## Canonical codes -/

/-- The codes of assignCodes that succeed: one per symbol, consecutive, put before the others. -/
theorem assignCodes_ok {h : HTab} {val : Nat → Byte} {len count code k : Nat} {done : List HuffEntry}
    {r : Nat × Nat × List HuffEntry} (hr : assignCodes h val len count code k done = .ok r) :
    r = (code + count, k + count, (List.range count).reverse.map
      (fun i => (⟨val (k + i), BitVec.ofNat 16 (code + i), len⟩ : HuffEntry)) ++ done) := by
  induction count generalizing code k done with
  | zero => simpa [assignCodes] using hr.symm
  | succ count ih =>
    simp only [assignCodes] at hr
    split at hr
    · cases hr
    · rw [ih hr]
      simp only [Prod.mk.injEq]
      refine ⟨by omega, by omega, ?_⟩
      rw [List.range_succ_eq_map, List.reverse_cons, List.map_append, ← List.map_reverse, List.map_map]
      simp only [Function.comp_def, List.append_assoc, List.map_cons, List.map_nil, List.cons_append, List.nil_append]
      simp only [Nat.succ_eq_add_one, Nat.add_zero, Nat.add_assoc, Nat.add_comm 1]

/-- Every entry of a built table has a length of 1..16 and a code that fits it (R152). -/
theorem buildLengths_lengths {h : HTab} {val : Nat → Byte} {counts : List Nat} {len code k : Nat}
    {done r : List HuffEntry} (hlen : 1 ≤ len) (hmax : len + counts.length ≤ 17)
    (hd : ∀ x ∈ done, 1 ≤ x.len ∧ x.len ≤ 16 ∧ x.code.toNat < 2 ^ x.len)
    (hr : buildLengths h val counts len code k done = .ok r) :
    ∀ x ∈ r, 1 ≤ x.len ∧ x.len ≤ 16 ∧ x.code.toNat < 2 ^ x.len := by
  induction counts generalizing len code k done with
  | nil => simp only [buildLengths, Except.ok.injEq] at hr; exact hr ▸ hd
  | cons count counts ih =>
    simp only [buildLengths] at hr
    cases ha : assignCodes h val len count code k done with
    | error e => rw [ha] at hr; cases hr
    | ok q =>
      have hq := assignCodes_ok ha
      rw [ha, hq] at hr
      simp only [List.length_cons] at hmax
      simp only [bind, Except.bind] at hr
      split at hr
      · cases hr
      · rename_i hc
        refine ih (len := len + 1) (by omega) (by omega) ?_ hr
        intro x hx
        rcases List.mem_append.1 hx with hx | hx
        · simp only [List.mem_map, List.mem_reverse, List.mem_range] at hx
          obtain ⟨i, hi, rfl⟩ := hx
          refine ⟨hlen, (show len ≤ 16 by omega), ?_⟩
          simp only [BitVec.toNat_ofNat]
          exact lt_of_le_of_lt (Nat.mod_le _ _) (by omega)
        · exact hd x hx

/-- build answers a table of codes or raises INVALID_HTABLE (R151). -/
theorem buildTable_cases (s : State) (h : HTab) :
    (∃ l, buildTable s h = .ok l ∧ ∀ x ∈ l, 1 ≤ x.len ∧ x.len ≤ 16 ∧ x.code.toNat < 2 ^ x.len) ∨
      ∃ info, buildTable s h = .error (.raised .invalidHtable info) := by
  have hassign : ∀ (len count code k : Nat) (done : List HuffEntry),
      (∃ r, assignCodes h (s.htVal h) len count code k done = .ok r) ∨
        ∃ info, assignCodes h (s.htVal h) len count code k done = .error (.raised .invalidHtable info) := by
    intro len count
    induction count with
    | zero => intro code k done; exact .inl ⟨_, rfl⟩
    | succ count ih =>
      intro code k done
      simp only [assignCodes]
      split
      · exact .inr ⟨_, rfl⟩
      · exact ih _ _ _
  have hbuild : ∀ (counts : List Nat) (len code k : Nat) (done : List HuffEntry),
      (∃ r, buildLengths h (s.htVal h) counts len code k done = .ok r) ∨
        ∃ info, buildLengths h (s.htVal h) counts len code k done = .error (.raised .invalidHtable info) := by
    intro counts
    induction counts with
    | nil => intro len code k done; exact .inl ⟨_, rfl⟩
    | cons count counts ih =>
      intro len code k done
      simp only [buildLengths]
      rcases hassign len count code k done with ⟨⟨a, b, c⟩, hr⟩ | ⟨info, hr⟩
      · simp only [hr, bind, Except.bind]
        split
        · exact .inr ⟨_, rfl⟩
        · exact ih _ _ _ _
      · exact .inr ⟨info, by simp only [hr]; rfl⟩
  unfold buildTable
  split
  · exact .inr ⟨_, rfl⟩
  · rcases hbuild (s.bitCounts h) 1 0 0 [] with ⟨l, hl⟩ | h
    · exact .inl ⟨l, hl, buildLengths_lengths (by omega) (by simp [State.bitCounts]) (by simp) hl⟩
    · exact .inr h

end Sys2Proof.Machine
end

