-- ==== Sys2Proof/Laws/Framer.lean ====
section
/-! SUPPORT. What START, a block and the end of the stream do (Machine/Framer.lean): one lemma each that says all of it. -/

namespace Sys2Proof.Machine

/-! ## The checks of START -/

theorem firstZero_none {s : State} {t : QTab} (h : s.firstZero t = none) : ∀ i, i < 64 → s.qt t i ≠ 0#8 := by
  intro i hi
  have := List.find?_eq_none.1 h i (List.mem_range.2 hi)
  simpa using this

theorem checkQuant_cases (s : State) (ts : List QTab) :
    (checkQuant s ts = .ok () ∧ ∀ t ∈ ts, ∀ i, i < 64 → s.qt t i ≠ 0#8) ∨
      ∃ info, checkQuant s ts = .error (.raised .invalidQtable info) := by
  induction ts with
  | nil => exact .inl ⟨rfl, by simp⟩
  | cons t ts ih =>
    simp only [checkQuant]
    cases ht : s.firstZero t with
    | some i => exact .inr ⟨_, rfl⟩
    | none =>
      rcases ih with ⟨h, hq⟩ | h
      · refine .inl ⟨h, fun u hu => ?_⟩
        rcases List.mem_cons.1 hu with rfl | hu
        · exact firstZero_none ht
        · exact hq u hu
      · exact .inr h

@[simp] theorem EHuf.get_set_same (e : EHuf) (h : HTab) (l : List HuffEntry) : (e.set h l).get h = l := by
  cases h <;> rfl

theorem EHuf.get_set_other (e : EHuf) {h h' : HTab} (l : List HuffEntry) (hne : h' ≠ h) :
    (e.set h l).get h' = e.get h' := by
  cases h <;> cases h' <;> first | rfl | exact absurd rfl hne

/-- buildTables replaces the code lists of the tables it is given by well-formed ones, and no others. -/
theorem buildTables_cases (s : State) (hs : List HTab) (e : EHuf) :
    (∃ e', buildTables s hs e = .ok e' ∧ (∀ h, h ∉ hs → e'.get h = e.get h) ∧
      ∀ h ∈ hs, ∀ x ∈ e'.get h, 1 ≤ x.len ∧ x.len ≤ 16 ∧ x.code.toNat < 2 ^ x.len) ∨
      ∃ info, buildTables s hs e = .error (.raised .invalidHtable info) := by
  induction hs generalizing e with
  | nil => exact .inl ⟨e, rfl, fun _ _ => rfl, by simp⟩
  | cons h hs ih =>
    simp only [buildTables]
    rcases buildTable_cases s h with ⟨l, hl, hx⟩ | ⟨info, hl⟩
    · simp only [hl, bind, Except.bind]
      rcases ih (e.set h l) with ⟨e', he, hother, hin⟩ | h
      · refine .inl ⟨e', he, fun h' hh => ?_, fun h' hh => ?_⟩
        · simp only [List.mem_cons, not_or] at hh
          rw [hother h' hh.2, EHuf.get_set_other _ _ hh.1]
        · by_cases hin' : h' ∈ hs
          · exact hin h' hin'
          · rcases List.mem_cons.1 hh with rfl | hh
            · rw [hother _ hin', EHuf.get_set_same]; exact hx
            · exact absurd hh hin'
      · exact .inr h
    · exact .inr ⟨info, by simp only [hl]; rfl⟩

/-- The errors of the checks (R186). -/
def ErrorCode.ofChecks : ErrorCode → Prop
  | .unsupportedFormat | .invalidArgument | .invalidQtable | .invalidHtable => True
  | _ => False

/-- validate answers code tables when every check of R186 holds, else one of its four errors. -/
theorem validate_cases (s : State) :
    (∃ e, validate s = .ok e ∧ s.cfgMode.toNat ≤ 1 ∧ s.width ≠ 0#16 ∧ s.height ≠ 0#16 ∧
      (∀ t ∈ s.quantTabs, ∀ i, i < 64 → s.qt t i ≠ 0#8) ∧ (∀ h, h ∉ s.huffTabs → e.get h = s.ehuf.get h) ∧
      ∀ h ∈ s.huffTabs, ∀ x ∈ e.get h, 1 ≤ x.len ∧ x.len ≤ 16 ∧ x.code.toNat < 2 ^ x.len) ∨
      ∃ c info, validate s = .error (.raised c info) ∧ c.ofChecks := by
  simp only [validate]
  split
  · exact .inr ⟨_, _, rfl, trivial⟩
  · split
    · exact .inr ⟨_, _, rfl, trivial⟩
    · rename_i hm hz
      rcases checkQuant_cases s s.quantTabs with ⟨hq, hq'⟩ | ⟨info, hq⟩
      · rcases buildTables_cases s s.huffTabs s.ehuf with ⟨e, he, h1, h2⟩ | ⟨info, he⟩
        · simp only [not_or] at hz
          exact .inl ⟨e, by simp only [hq]; exact he, by omega, hz.1, hz.2, hq', h1, h2⟩
        · exact .inr ⟨.invalidHtable, info, by simp only [hq]; exact he, trivial⟩
      · exact .inr ⟨.invalidQtable, info, by simp only [hq]; rfl, trivial⟩

/-- START with TEST = 0: the initialised state with the header and the code tables, in SCAN; or an error. -/
theorem startScan_cases (s : State) :
    (∃ t e, startScan s = .ok t ∧ validate s = .ok e ∧
      t = { s.initScan with ehuf := e, obuf := t.obuf, olen := s.headerBytes.length, st := .scan } ∧
      s.headerBytes.length ≤ Config.obufBytes ∧
      (Memory.wf .output s.obuf = true → t.holdsAt 0 s.headerBytes ∧ Memory.wf .output t.obuf = true)) ∨
    (∃ c info, startScan s = .error (.raised c info) ∧ validate s = .error (.raised c info) ∧ c.ofChecks) ∨
    (∃ e, startScan s = .error (.raised .outputOverflow 0#32) ∧ validate s = .ok e ∧
      Config.obufBytes < s.headerBytes.length) := by
  rcases validate_cases s with ⟨e, hv, -⟩ | ⟨c, info, hv, hc⟩
  · rcases emitBytes_cases (bs := s.headerBytes) (s := { s.initScan with ehuf := e }) with
      ⟨t, ht, hf, hl, hfit, ha⟩ | ⟨ht, hroom⟩
    · have hl' : t.olen = s.headerBytes.length := by simpa [State.initScan, State.clearDatapath] using hl
      refine .inl ⟨{ t with st := .scan }, e, by simp only [startScan, hv]; simp only [bind, Except.bind, ht], hv, ?_, ?_, ?_⟩
      · rw [State.outputOnly] at hf; rw [hf]; simp only [hl']
      · rw [← hl']; exact hfit (by simp [State.initScan, State.clearDatapath])
      · intro hw
        have := ha hw
        refine ⟨fun j hj => ?_, this.2⟩
        have h := this.1.2.1 j hj
        simpa [State.initScan, State.clearDatapath, State.outByte] using h
    · refine .inr (.inr ⟨e, by simp only [startScan, hv]; simp only [bind, Except.bind, ht]; rfl, hv, ?_⟩)
      simpa [State.initScan, State.clearDatapath] using hroom
  · exact .inr (.inl ⟨c, info, by simp only [startScan, hv]; rfl, hv, hc⟩)

/-! ## A block -/

@[simp] theorem State.setPred_accOk {s : State} {c : Component} {v : BitVec 16} : (s.setPred c v).accOk ↔ s.accOk := by
  cases c <;> rfl

/-- The component as R190 lists it is the machine's. -/
theorem State.blockComp_eq {s : State} (h : s.bim.toNat ≤ 5) : s.blockComp = s.comp := by
  simp only [State.blockComp, State.comp, compOf]
  generalize s.bim = b at h
  by_cases hm : s.cfgMode = 1#2 <;> simp only [hm, true_and, false_and, ite_false, ne_eq, not_true, not_false_eq_true, ite_true]
  revert b; decide

/-- The scanned coefficients spelled out are the machine's, once the sixteenth word is stored. -/
theorem State.blockScan_eq {s : State} {w : Word} (hf : s.sfill = 15#4) (hc : s.blockComp = s.comp) :
    s.blockScan w = (s.storeSamples w).scanned := by
  have hs : (s.storeSamples w).shifted = s.blockSamples w := by
    refine List.ext_getElem (by simp [State.shifted, State.blockSamples]) fun m h1 h2 => ?_
    have hm : m < 64 := by simpa [State.shifted] using h1
    simp only [State.shifted, State.blockSamples, State.storeSamples, hf, List.getElem_map, List.getElem_range, levelShift,
      Vector.getElem_toList]
    congr 3
    simp only [show (15#4).toNat = 15 from rfl, Nat.reduceMul, Nat.reduceAdd, Vector.getElem_setIfInBounds, byteOf]
    by_cases h60 : m < 60
    · simp [h60, show ¬ 63 = m by omega, show ¬ 62 = m by omega, show ¬ 61 = m by omega, show ¬ 60 = m by omega, hm]
    · obtain rfl | rfl | rfl | rfl : m = 60 ∨ m = 61 ∨ m = 62 ∨ m = 63 := by omega
      all_goals
        simp only [Nat.reduceEqDiff, if_true, if_false, Nat.reduceMod, Nat.reduceMul, Nat.reduceLT]
        apply BitVec.eq_of_toNat_eq
        simp [BitVec.extractLsb'_toNat, Nat.shiftRight_eq_div_pow]
  have hq : (fun i => ((s.storeSamples w).qt (quantTabOf (s.storeSamples w).comp) i).toNat) =
      fun i => (s.table ((if s.blockComp = .y then 0x200 else 0x300) + 4 * i)).toNat := by
    funext i
    rw [hc]
    show (s.qt (quantTabOf s.comp) i).toNat = _
    cases s.comp <;> rfl
  rw [State.scanned, quantizedScan, hs, hq, State.blockScan]
  refine List.ext_getElem (by simp [zigzagOrder]) fun k h1 h2 => ?_
  simp only [List.getElem_map, List.getElem_range]
  rw [List.getD_eq_getElem _ _ (by simpa using h2)]

/-- Coding a block is coding its symbols, with the predictor at its DC coefficient. -/
theorem codeBlock_eq {s : State} {z : List Int} (hc : s.blockComp = s.comp) :
    codeBlock z s = emitAll (s.blockSymbols z) (s.setPred s.comp (BitVec.ofInt 16 (z.headD 0))) := by
  simp only [codeBlock, dcEncode, State.blockSymbols, emitAll, hc, funext (acEncode_eq _ _)]
  cases s.comp <;> rfl

/-- Coding a block, whatever the tables hold. -/
theorem codeBlock_cases {s : State} {z : List Int} (hs : s.accOk) (hf : s.flushed = false) :
    (∃ t bits, codeBlock z s = .ok t ∧ (s.setPred s.comp (BitVec.ofInt 16 (z.headD 0))).PacksTo t bits) ∨
      ∃ e info, codeBlock z s = .error (.raised e info) ∧ (e = .outputOverflow ∨ e = .undefinedSymbol) := by
  have h : codeBlock z s = emitAll (⟨dcTabOf s.comp, BitVec.ofNat 8 (category (z.headD 0 - (s.pred s.comp).toInt)),
      z.headD 0 - (s.pred s.comp).toInt⟩ :: (rle z.tail).map fun x => ⟨acTabOf s.comp, x.coded.1, x.coded.2⟩)
      (s.setPred s.comp (BitVec.ofInt 16 (z.headD 0))) := by
    simp only [codeBlock, dcEncode, emitAll, funext (acEncode_eq _ _)]
  rw [h]
  exact emitAll_cases (State.setPred_accOk.2 hs) (by cases s.comp <;> exact hf)

/-- The end of the stream: the padded byte, EOI, DONE; or OUTPUT_OVERFLOW (R191). -/
theorem terminate_cases {s : State} (hs : s.accOk) (hf : s.flushed = false) :
    (∃ t, terminate s = .ok t ∧
      t = { s with
        obuf := t.obuf, olen := t.olen, acc := 0#8, nbits := 0#4, flushed := true, st := .done
        intStatus := s.intStatus ||| doneBit } ∧
      t.olen = s.olen + (stuffed (cutBytes s.paddedBits).1 ++ eoiBytes).length ∧
      (s.olen ≤ Config.obufBytes → t.olen ≤ Config.obufBytes) ∧
      (Memory.wf .output s.obuf = true →
        s.appends t (stuffed (cutBytes s.paddedBits).1 ++ eoiBytes) ∧ Memory.wf .output t.obuf = true)) ∨
    (terminate s = .error (.raised .outputOverflow s.blkCount) ∧
      Config.obufBytes < s.olen + (stuffed (cutBytes s.paddedBits).1 ++ eoiBytes).length) := by
  rcases flush_cases hs hf with ⟨t, ht, hframe, hl, hfit, ha⟩ | ⟨ht, hroom⟩
  · rcases emitBytes_cases (bs := eoiBytes) (s := t) with ⟨u, hu, huf, hul, hufit, hua⟩ | ⟨hu, hroom⟩
    · refine .inl ⟨u.enterDone, by simp only [terminate, ht, bind, Except.bind, hu], ?_, ?_, ?_, fun hw => ?_⟩
      · rw [State.outputOnly] at huf; rw [huf, hframe]; rfl
      · simp only [State.enterDone, hul, hl, List.length_append]; omega
      · intro h; exact hufit (hfit h)
      · exact ⟨State.appends_congr rfl rfl rfl rfl (State.appends_trans (ha hw).1 (hua (ha hw).2).1),
          (hua (ha hw).2).2⟩
    · refine .inr ⟨?_, ?_⟩
      · simp only [terminate, ht, bind, Except.bind, hu]
        rw [show t.blkCount = s.blkCount by rw [hframe]]
      · rw [hl] at hroom; simp only [List.length_append]; omega
  · refine .inr ⟨by simp only [terminate, ht]; rfl, ?_⟩
    simp only [List.length_append]; omega

end Sys2Proof.Machine
end

