-- ==== Sys2Proof/Laws/Commands.lean ====
section
/-! SUPPORT. How an access ends (Machine/Ops.lean): command dispatch, the error entry, and what each meaning of
Machine/Commands.lean, RawMode.lean, Sample.lean and Registers.lean can answer. -/

namespace Sys2Proof.Machine

@[simp] theorem finish_ok {s t : State} : finish s (.ok t) = .next t := rfl

@[simp] theorem finish_raised {s : State} {e : ErrorCode} {info : Word} :
    finish s (.error (.raised e info)) = .next (errorEntry e info s) := rfl

/-- A legal command executes (R220). -/
theorem command_legal {legal : FramerState → Bool} {opc : Byte} {body : State → Except Stop State} {s : State}
    (h : legal s.st = true) : command legal opc body s = finish s (body s) := by
  rw [command, if_pos h]

/-- A command that is not legal in ERROR is ignored (R229, R266). -/
theorem command_ignored {legal : FramerState → Bool} {opc : Byte} {body : State → Except Stop State} {s : State}
    (h : legal s.st = false) (he : s.st = .error) : command legal opc body s = .next s.ignoreAccess := by
  rw [command, if_neg (by simp [h]), if_pos he]

/-- A command that is not legal elsewhere is a STATE_VIOLATION (R229). -/
theorem command_violation {legal : FramerState → Bool} {opc : Byte} {body : State → Except Stop State} {s : State}
    (h : legal s.st = false) (he : s.st ≠ .error) :
    command legal opc body s = .next (errorEntry .stateViolation (violationInfo s.st opc) s) := by
  rw [command, if_neg (by simp [h]), if_neg he]

/-- How an access that never stops ends, in the terms of 00_scope.md R10: completed, ignored, or in ERROR. -/
def Ends (s : State) (done : State → Prop) (o : Host.Outcome State Fault Refusal) : Prop :=
  ∃ t, o = .next t ∧ (done t ∨ t = s.ignoreAccess ∨ (s.st ≠ .error ∧ ∃ e info, e ≠ .none ∧ t = errorEntry e info s))

theorem Ends.mono {s : State} {p q : State → Prop} {o : Host.Outcome State Fault Refusal} (h : Ends s p o)
    (hpq : ∀ t, p t → q t) : Ends s q o := by
  obtain ⟨t, ht, h | h | h⟩ := h
  · exact ⟨t, ht, .inl (hpq t h)⟩
  · exact ⟨t, ht, .inr (.inl h)⟩
  · exact ⟨t, ht, .inr (.inr h)⟩

/-- A command whose body answers a state or raises an error, in every state it is legal in. -/
theorem command_ends {legal : FramerState → Bool} {opc : Byte} {body : State → Except Stop State} {s : State}
    {done : State → Prop}
    (hb : legal s.st = true → (∃ t, body s = .ok t ∧ done t) ∨
      (s.st ≠ .error ∧ ∃ e info, e ≠ .none ∧ body s = .error (.raised e info))) :
    Ends s done (command legal opc body s) := by
  by_cases h : legal s.st = true
  · rw [command_legal h]
    rcases hb h with ⟨t, ht, hd⟩ | ⟨hs, e, info, he, hr⟩
    · exact ⟨t, by rw [ht, finish_ok], .inl hd⟩
    · exact ⟨_, by rw [hr, finish_raised], .inr (.inr ⟨hs, e, info, he, rfl⟩)⟩
  · by_cases hs : s.st = .error
    · exact ⟨_, command_ignored (by simpa using h) hs, .inr (.inl rfl)⟩
    · exact ⟨_, command_violation (by simpa using h) hs, .inr (.inr ⟨hs, _, _, by simp, rfl⟩)⟩

theorem illegalCommand_ends (w : Word) (s : State) : Ends s (fun _ => False) (.next (illegalCommand w s)) := by
  unfold illegalCommand
  split
  · exact ⟨_, rfl, .inr (.inl rfl)⟩
  · exact ⟨_, rfl, .inr (.inr ⟨‹_›, _, _, by simp, rfl⟩)⟩

theorem execNop_ends (s : State) : Ends s (fun t => t = s) (execNop s) :=
  command_ends fun _ => .inl ⟨s, rfl, rfl⟩

theorem execAbort_ends (s : State) : Ends s (fun t => t = s.abortEncode) (execAbort s) :=
  command_ends fun _ => .inl ⟨_, rfl, rfl⟩

theorem execSoftReset_ends (s : State) : Ends s (fun t => t = s.resetCore) (execSoftReset s) :=
  command_ends fun _ => .inl ⟨_, rfl, rfl⟩

theorem execQgen_ends (s : State) : Ends s (fun t => s.st = .idle ∧ t = s.generateTables) (execQgen s) :=
  command_ends fun h => .inl ⟨_, rfl, by simpa [legalIdle] using h, rfl⟩

theorem execHdefault_ends (s : State) : Ends s (fun t => s.st = .idle ∧ t = s.loadDefaults) (execHdefault s) :=
  command_ends fun h => .inl ⟨_, rfl, by simpa [legalIdle] using h, rfl⟩

theorem ErrorCode.ofChecks_ne {c : ErrorCode} (h : c.ofChecks) : c ≠ .none := by
  rintro rfl; exact h

/-- START: RAW in test mode, else the header and SCAN (R222). -/
theorem execStart_ends (s : State) :
    Ends s (fun t => s.st = .idle ∧ (s.cfgTest = true ∧ t = s.startRaw ∨ s.cfgTest = false ∧ startScan s = .ok t))
      (execStart s) := by
  refine command_ends fun h => ?_
  have hs : s.st = .idle := by simpa [legalIdle] using h
  unfold startBody
  by_cases htest : s.cfgTest = true
  · rw [if_pos htest]
    exact .inl ⟨_, rfl, hs, .inl ⟨htest, rfl⟩⟩
  · rw [if_neg htest]
    have hne : s.st ≠ .error := by rw [hs]; simp
    rcases startScan_cases s with ⟨t, e, ht, -⟩ | ⟨c, info, ht, -, hc⟩ | ⟨e, ht, -⟩
    · exact .inl ⟨t, ht, hs, .inr ⟨by simpa using htest, ht⟩⟩
    · exact .inr ⟨hne, c, info, ErrorCode.ofChecks_ne hc, ht⟩
    · exact .inr ⟨hne, _, _, by simp, ht⟩

/-- RAWBITS with the packer ready (R227). -/
theorem execRawbits_ends (len : BitVec 5) (value : BitVec 16) {s : State}
    (hs : s.st = .raw → s.accOk ∧ s.flushed = false) :
    Ends s (fun t => s.st = .raw ∧ s.PacksTo t (lowBits value len.toNat)) (execRawbits len value s) := by
  unfold execRawbits
  split
  · exact Ends.mono (illegalCommand_ends _ _) fun t h => h.elim
  · refine command_ends fun h => ?_
    have hr : s.st = .raw := by simpa [legalRaw] using h
    rcases writeBits_packs value len.toNat (hs hr).1 (hs hr).2 with ⟨t, ht, hp⟩ | ⟨ht, -⟩
    · exact .inl ⟨t, ht, hr, hp⟩
    · exact .inr ⟨by rw [hr]; simp, _, _, by simp, ht⟩

/-- RAWFLUSH with the packer ready (R228). -/
theorem execRawflush_ends {s : State} (hs : s.st = .raw → s.accOk ∧ s.flushed = false) :
    Ends s (fun t => s.st = .raw ∧ rawflushBody s = .ok t) (execRawflush s) := by
  refine command_ends fun h => ?_
  have hr : s.st = .raw := by simpa [legalRaw] using h
  rcases flush_cases (hs hr).1 (hs hr).2 with ⟨t, ht, -⟩ | ⟨ht, -⟩
  · have : rawflushBody s = .ok t.enterDone := by simp only [rawflushBody, ht]; rfl
    exact .inl ⟨_, this, hr, this⟩
  · exact .inr ⟨by rw [hr]; simp, .outputOverflow, s.blkCount, by simp, by simp only [rawflushBody, ht]; rfl⟩

/-- The state a block is coded from: samples stored, LASTBLK kept (R230, R189). -/
def State.blockStart (s : State) (w : Word) : State := (s.storeSamples w).keepScan (s.storeSamples w).scanned

/-- In SCAN the table that quantizes the block has no zero entry, and BIM lists its component. -/
theorem State.ScanInv.block {s : State} (h : s.ScanInv) : s.firstZero (quantTabOf s.comp) = none ∧ s.blockComp = s.comp := by
  have hb : s.bim.toNat ≤ 5 := by
    rw [h.bim]; split <;> omega
  refine ⟨?_, State.blockComp_eq hb⟩
  have hq : quantTabOf s.comp ∈ s.quantTabs := by
    have hall : ∀ c, quantTabOf c ∈ [QTab.qt0, .qt1] := by intro c; cases c <;> simp [quantTabOf]
    by_cases hc : s.cfgMode = 1#2
    · simpa [State.quantTabs, State.color, hc] using hall s.comp
    · simp [State.quantTabs, State.comp, compOf, State.color, hc, quantTabOf]
  simp only [State.firstZero, List.find?_eq_none, List.mem_range]
  intro i hi
  simpa using h.quant _ hq i hi

/-- The state a block's symbols are coded from: samples, LASTBLK and the component's predictor stored (R189). -/
def State.codingStart (s : State) (w : Word) : State :=
  (s.blockStart w).setPred s.comp (BitVec.ofInt 16 ((s.blockScan w).headD 0))

/-- Storing a block leaves everything else as it was. -/
theorem State.codingStart_frame (s : State) (w : Word) : s.codingStart w = { s with
    ibuf := (s.codingStart w).ibuf, sfill := s.sfill + 1#4, lastblk := (s.codingStart w).lastblk
    predY := (s.codingStart w).predY, predCb := (s.codingStart w).predCb, predCr := (s.codingStart w).predCr } := by
  unfold State.codingStart; cases s.comp <;> rfl

/-- The sixteenth SAMPLE write of a block codes the block's symbols, then counts the block, and at the last ends the stream
(R189, R191, R230). -/
theorem execSampleWrite_block {s : State} {w : Word} (hs : s.st = .scan) (hi : s.ScanInv) (hf : s.sfill = 15#4) :
    execSampleWrite w s = finish s (do
      let t ← emitAll (s.blockSymbols (s.blockScan w)) (s.codingStart w)
      if t.countBlock.blkCount = t.countBlock.blkTotal then terminate t.countBlock else .ok t.countBlock) := by
  obtain ⟨hz, hc⟩ := hi.block
  have hz' : (s.storeSamples w).firstZero (quantTabOf (s.storeSamples w).comp) = none := hz
  rw [execSampleWrite, command_legal (by simp [hs]), sampleBody, if_pos hf, processBlock, hz', if_neg (by simp)]
  have hk : (s.blockStart w).blockComp = (s.blockStart w).comp := hc
  show finish s (codeBlock (s.storeSamples w).scanned (s.blockStart w) >>= _) = _
  rw [codeBlock_eq hk, ← State.blockScan_eq hf hc]
  rfl

/-- A SAMPLE write in SCAN, with the packer ready and no zero divisor (R230, R189, R191). -/
theorem execSampleWrite_ends (w : Word) {s : State} (hs : s.st = .scan → s.accOk ∧ s.flushed = false)
    (hq : s.st = .scan → s.firstZero (quantTabOf s.comp) = none) :
    Ends s (fun t => s.st = .scan ∧ (s.sfill ≠ 15#4 ∧ t = s.storeSamples w ∨
        s.sfill = 15#4 ∧ ∃ u bits, codeBlock (s.storeSamples w).scanned (s.blockStart w) = .ok u ∧
          ((s.blockStart w).setPred s.comp (BitVec.ofInt 16 ((s.storeSamples w).scanned.headD 0))).PacksTo u bits ∧
          (u.countBlock.blkCount ≠ u.countBlock.blkTotal ∧ t = u.countBlock ∨
            u.countBlock.blkCount = u.countBlock.blkTotal ∧ terminate u.countBlock = .ok t)))
      (execSampleWrite w s) := by
  refine command_ends fun h => ?_
  have hr : s.st = .scan := by simpa using h
  have hne : s.st ≠ .error := by rw [hr]; simp
  unfold sampleBody
  split
  · rename_i h15
    have hz : (s.storeSamples w).firstZero (quantTabOf (s.storeSamples w).comp) = none := hq hr
    simp only [processBlock, hz, Option.isSome_none, Bool.false_eq_true, if_false]
    have hacc : (s.blockStart w).accOk := (hs hr).1
    have hfl : (s.blockStart w).flushed = false := (hs hr).2
    rcases codeBlock_cases (z := (s.storeSamples w).scanned) hacc hfl with ⟨u, bits, hu, hp⟩ | ⟨e, info, hu, he⟩
    · have hu' : codeBlock (s.storeSamples w).scanned ((s.storeSamples w).keepScan (s.storeSamples w).scanned) = .ok u := hu
      simp only [hu', bind, Except.bind]
      have huf : u.flushed = false := by
        rw [hp.frame]
        cases h : (s.blockStart w).comp <;> exact hfl
      split
      · rename_i hc
        rcases terminate_cases (s := u.countBlock) hp.acc huf with ⟨t, ht, -⟩ | ⟨ht, -⟩
        · exact .inl ⟨t, ht, hr, .inr ⟨h15, u, bits, hu, hp, .inr ⟨hc, ht⟩⟩⟩
        · exact .inr ⟨hne, _, _, by simp, ht⟩
      · exact .inl ⟨_, rfl, hr, .inr ⟨h15, u, bits, hu, hp, .inl ⟨‹_›, rfl⟩⟩⟩
    · have hu' : codeBlock (s.storeSamples w).scanned ((s.storeSamples w).keepScan (s.storeSamples w).scanned)
          = .error (.raised e info) := hu
      simp only [hu', bind, Except.bind]
      exact .inr ⟨hne, e, info, by rcases he with rfl | rfl <;> simp, rfl⟩
  · exact .inl ⟨_, rfl, hr, .inl ⟨‹_›, rfl⟩⟩

/-- A read changes the read data and at most ACCERR (R67, R231). -/
theorem execRegRead_cases (off : Offset) (lanes : Lanes) (s : State) :
    execRegRead off lanes s = .next { s with rdata := regValue s (regAt off) } ∨
      execRegRead off lanes s = .next { s.ignoreAccess with rdata := 0#32 } := by
  unfold execRegRead
  split
  · exact .inl rfl
  · exact .inr rfl

/-- A register write that the decoder can make is stored or ignored (R232); a locked register is not stored to (R66). -/
theorem execRegWrite_cases {off : Offset} {lanes : Lanes} {v : Word} (hw : (Instr.regWrite off lanes v).wf = true) (s : State) :
    execRegWrite off lanes v s = .next s.ignoreAccess ∨
      (execRegWrite off lanes v s = .next (storeReg s (regAt off) v) ∧
        ((regAt off).kind = .rw ∨ (regAt off).kind = .w1c ∨ (regAt off).kind = .cl ∧ s.locked = false)) := by
  unfold execRegWrite
  by_cases hwa : isWordAccess off lanes = true
  · rw [if_pos hwa]
    have hwo : (regAt off).kind ≠ .wo := by
      intro hk
      have h : ∀ o : Offset, (regAt o).kind = .wo → o.toNat / 4 = 2 ∨ o.toNat / 4 = 13 := by
        intro o ho
        unfold regAt at ho
        simp only at ho
        split at ho
        · unfold namedReg at ho
          split at ho <;> first | (simp [Reg.kind] at ho; done) | omega
        · repeat' split at ho
          all_goals first
            | (simp [Reg.kind] at ho; done)
            | (unfold htReg at ho; repeat' split at ho) <;> simp [Reg.kind] at ho
      have hal : off.toNat % 4 = 0 := by
        simp only [isWordAccess, Bool.and_eq_true, beq_iff_eq] at hwa
        have := congrArg BitVec.toNat hwa.2
        simpa using this
      have hcmd : off.toNat = 8 ∨ off.toNat = 52 := by rcases h off hk with h | h <;> omega
      simp only [Instr.wf, hwa, Bool.true_and, Bool.not_eq_true', Bool.or_eq_false_iff, beq_eq_false_iff_ne] at hw
      rcases hcmd with h | h
      · exact hw.1 (BitVec.eq_of_toNat_eq h)
      · exact hw.2 (BitVec.eq_of_toNat_eq h)
    cases hk : (regAt off).kind with
    | ro => exact .inl rfl
    | reserved => exact .inl rfl
    | wo => exact absurd hk hwo
    | rw => exact .inr ⟨rfl, .inl rfl⟩
    | w1c => exact .inr ⟨rfl, .inr (.inl rfl)⟩
    | cl =>
      by_cases hl : s.locked = true
      · exact .inl (by simp only [hl, if_true])
      · exact .inr ⟨by simp only [hl, Bool.false_eq_true, if_false], .inr (.inr ⟨rfl, by simpa using hl⟩)⟩
  · rw [if_neg hwa]; exact .inl rfl

/-! ## Decoding -/

/-- What the decoder makes of an access is a well-formed instruction. -/
theorem decode_wf {a : Access} {i : Instr} (h : decode a = .ok i) : i.wf = true := by
  cases a with
  | read off lanes => cases h; rfl
  | write off lanes data =>
    simp only [decode] at h
    split at h
    · unfold decodeCmd at h
      split at h
      · rename_i j hp
        split at h
        · cases h
          unfold plainCommand at hp
          repeat' split at hp
          all_goals first
            | (cases hp; rfl)
            | cases hp
        · cases h
      · repeat' split at h
        all_goals first
          | (cases h; simp only [Instr.wf, decide_eq_true_eq]; omega)
          | cases h
    · split at h
      · cases h; rfl
      · cases h
        rename_i h1 h2
        simp only [Instr.wf, Bool.and_eq_true, Bool.not_eq_true', Bool.and_eq_false_iff, Bool.or_eq_false_iff] at *
        by_cases hwa : isWordAccess off lanes = true
        · right
          constructor
          · cases hc : off == cmdOffset
            · rfl
            · exact absurd ⟨hwa, hc⟩ h1
          · cases hc : off == sampleOffset
            · rfl
            · exact absurd ⟨hwa, hc⟩ h2
        · left; simpa using hwa

end Sys2Proof.Machine
end

