-- ==== Sys2Proof/Laws/Frames.lean ====
section
/-! SUPPORT. What the output operations leave unchanged in every state, also where no run holds the packer ready: the frames that
need no hypothesis. -/

namespace Sys2Proof.Machine

variable {s t : State}

/-- The bind of two operations that succeed. -/
theorem bind_ok {f : Except Stop State} {g : State → Except Stop State} (h : (f >>= g) = .ok t) :
    ∃ u, f = .ok u ∧ g u = .ok t := by
  cases f with
  | error e => cases h
  | ok u => exact ⟨u, rfl, h⟩

theorem emitBytes_frame {bs : List Byte} (h : emitBytes bs s = .ok t) : s.outputOnly t := by
  rcases emitBytes_cases (bs := bs) (s := s) with ⟨u, hu, hf, -⟩ | ⟨hu, -⟩
  · rw [hu] at h; cases h; exact hf
  · rw [hu] at h; cases h

theorem appendBit_frame {bit : Bool} (h : appendBit bit s = .ok t) : s.packerOnly t := by
  simp only [appendBit] at h
  split at h
  · rw [emitEntropyByte_eq] at h
    have hf := emitBytes_frame h
    rw [State.outputOnly] at hf
    rw [State.packerOnly, hf]
  · cases h; rfl

theorem appendBits_frame {v : BitVec 16} {n : Nat} (h : appendBits v n s = .ok t) : s.packerOnly t := by
  induction n generalizing s with
  | zero => cases h; rfl
  | succ n ih =>
    obtain ⟨u, hu, ht⟩ := bind_ok h
    exact State.packerOnly_trans (appendBit_frame hu) (ih ht)

theorem writeBits_frame {v : BitVec 16} {n : Nat} (h : writeBits v n s = .ok t) : s.packerOnly t := by
  unfold writeBits at h
  split at h
  · cases h
  · exact appendBits_frame h

theorem emitCode_frame {h : HTab} {sym : Byte} (ht : emitCode h sym s = .ok t) : s.packerOnly t := by
  unfold emitCode at ht
  split at ht
  · cases ht
  · exact writeBits_frame ht

theorem emitCoded_frame {h : HTab} {sym : Byte} {v : Int} (ht : emitCoded h sym v s = .ok t) : s.packerOnly t := by
  obtain ⟨u, hu, ht⟩ := bind_ok ht
  split at ht
  · cases ht; exact emitCode_frame hu
  · exact State.packerOnly_trans (emitCode_frame hu) (writeBits_frame ht)

theorem acEncode_frame {h : HTab} {syms : List RleSym} (ht : acEncode h syms s = .ok t) : s.packerOnly t := by
  induction syms generalizing s with
  | nil => cases ht; rfl
  | cons x syms ih =>
    obtain ⟨u, hu, ht⟩ := bind_ok ht
    refine State.packerOnly_trans ?_ (ih ht)
    cases x with
    | eob => exact emitCode_frame hu
    | zrl => exact emitCode_frame hu
    | rv run v => exact emitCoded_frame hu

/-- Coding a block changes the block's predictor, the packer and the output only. -/
theorem codeBlock_frame {z : List Int} (h : codeBlock z s = .ok t) :
    (s.setPred s.comp (BitVec.ofInt 16 (z.headD 0))).packerOnly t := by
  obtain ⟨u, hu, ht⟩ := bind_ok h
  exact State.packerOnly_trans (emitCoded_frame hu) (acEncode_frame ht)

theorem flush_frame (h : flush s = .ok t) :
    t = { s with obuf := t.obuf, olen := t.olen, acc := t.acc, nbits := t.nbits, flushed := true } := by
  unfold flush at h
  split at h
  · cases h
  · split at h
    · cases h; rfl
    · obtain ⟨u, hu, ht⟩ := bind_ok h
      rw [emitEntropyByte_eq] at hu
      have hf := emitBytes_frame hu
      rw [State.outputOnly] at hf
      cases ht
      rw [hf]

theorem terminate_frame (h : terminate s = .ok t) :
    t = { s with
      obuf := t.obuf, olen := t.olen, acc := t.acc, nbits := t.nbits, flushed := true, st := .done
      intStatus := s.intStatus ||| doneBit } := by
  obtain ⟨u, hu, ht⟩ := bind_ok h
  obtain ⟨v, hv, ht⟩ := bind_ok ht
  have h1 := flush_frame hu
  have h2 := emitBytes_frame hv
  rw [State.outputOnly] at h2
  cases ht
  rw [h2, h1]; rfl

/-- A SAMPLE write that completes in SCAN: stored, or a block coded, or a block coded and the stream ended. -/
theorem sampleBody_frame {w : Word} (hs : s.st = .scan) (h : sampleBody w s = .ok t) :
    t = { s with ibuf := (s.storeSamples w).ibuf, sfill := s.sfill + 1#4 } ∨
    (s.sfill = 15#4 ∧ ∃ u, t = { s with
        ibuf := (s.storeSamples w).ibuf, sfill := s.sfill + 1#4, lastblk := t.lastblk
        predY := t.predY, predCb := t.predCb, predCr := t.predCr, acc := t.acc, nbits := t.nbits, flushed := t.flushed
        obuf := t.obuf, olen := t.olen, blkCount := s.blkCount + 1#32, bim := nextBim s.cfgMode s.bim
        st := u, intStatus := if u = .done then s.intStatus ||| doneBit else s.intStatus } ∧
      (u = .scan ∧ s.blkCount + 1#32 ≠ s.blkTotal ∨ u = .done ∧ s.blkCount + 1#32 = s.blkTotal)) := by
  unfold sampleBody at h
  split at h
  · rename_i h15
    refine .inr ⟨h15, ?_⟩
    unfold processBlock at h
    split at h
    · cases h
    · obtain ⟨u, hu, ht⟩ := bind_ok h
      have hf := codeBlock_frame hu
      rw [State.packerOnly] at hf
      split at ht
      · rename_i hc
        have h1 := terminate_frame ht
        refine ⟨.done, ?_, ?_⟩
        · rw [h1, State.countBlock, hf]
          generalize ((s.storeSamples w).keepScan (s.storeSamples w).scanned).comp = c
          cases c <;> rfl
        · rw [State.countBlock, hf] at hc
          generalize ((s.storeSamples w).keepScan (s.storeSamples w).scanned).comp = c at hc
          cases c <;> exact .inr ⟨rfl, hc⟩
      · rename_i hc
        cases ht
        have hi : (if s.st = .done then s.intStatus ||| doneBit else s.intStatus) = s.intStatus :=
          if_neg (by rw [hs]; simp)
        refine ⟨s.st, ?_, ?_⟩
        · rw [State.countBlock, hf, hi]
          generalize ((s.storeSamples w).keepScan (s.storeSamples w).scanned).comp = c
          cases c <;> rfl
        · rw [State.countBlock, hf] at hc
          generalize ((s.storeSamples w).keepScan (s.storeSamples w).scanned).comp = c at hc
          cases c <;> exact .inl ⟨hs, hc⟩
  · cases h; exact .inl rfl

/-! ## The errors an operation can raise, in every state -/

/-- The errors of the output and coding operations (60_exceptions.md R263). -/
def ErrorCode.ofCoding (e : ErrorCode) : Prop := e = .outputOverflow ∨ e = .undefinedSymbol

/-- An operation that raises only the errors of coding. -/
def CodingErrors (f : State → Except Stop State) : Prop :=
  ∀ s e info, f s = .error (.raised e info) → e.ofCoding

theorem CodingErrors.bind {f g : State → Except Stop State} (hf : CodingErrors f) (hg : CodingErrors g) :
    CodingErrors fun s => f s >>= g := by
  intro s e info h
  simp only at h
  cases hfs : f s with
  | error x => rw [hfs] at h; cases h; exact hf s e info hfs
  | ok t => rw [hfs] at h; exact hg t e info h

theorem codingErrors_ok (g : State → State) : CodingErrors fun s => .ok (g s) := fun _ _ _ h => by cases h

theorem emitBytes_errors (bs : List Byte) : CodingErrors (emitBytes bs) := by
  intro s e info h
  rcases emitBytes_cases (bs := bs) (s := s) with ⟨u, hu, -⟩ | ⟨hu, -⟩
  · rw [hu] at h; cases h
  · rw [hu] at h; cases h; exact .inl rfl

theorem appendBits_errors (v : BitVec 16) (n : Nat) : CodingErrors (appendBits v n) := by
  induction n with
  | zero => exact codingErrors_ok id
  | succ n ih =>
    refine CodingErrors.bind (fun s e info h => ?_) ih
    simp only [appendBit] at h
    split at h
    · rw [emitEntropyByte_eq] at h; exact emitBytes_errors _ _ _ _ h
    · cases h

theorem writeBits_errors (v : BitVec 16) (n : Nat) : CodingErrors (writeBits v n) := by
  intro s e info h
  unfold writeBits at h
  split at h
  · cases h
  · exact appendBits_errors v n s e info h

theorem emitCode_errors (h : HTab) (sym : Byte) : CodingErrors (emitCode h sym) := by
  intro s e info he
  unfold emitCode at he
  split at he
  · cases he; exact .inr rfl
  · exact writeBits_errors _ _ s e info he

theorem emitCoded_errors (h : HTab) (sym : Byte) (v : Int) : CodingErrors (emitCoded h sym v) := by
  refine CodingErrors.bind (emitCode_errors h sym) fun s e info he => ?_
  split at he
  · cases he
  · exact writeBits_errors _ _ s e info he

theorem acEncode_errors (h : HTab) (syms : List RleSym) : CodingErrors (acEncode h syms) := by
  induction syms with
  | nil => exact codingErrors_ok id
  | cons x syms ih =>
    refine CodingErrors.bind ?_ ih
    cases x with
    | eob => exact emitCode_errors _ _
    | zrl => exact emitCode_errors _ _
    | rv run v => exact emitCoded_errors _ _ _

theorem codeBlock_errors (z : List Int) : CodingErrors (codeBlock z) := by
  intro s e info h
  unfold codeBlock at h
  cases hd : dcEncode s.comp (z.headD 0) (dcTabOf s.comp) s with
  | error x => rw [hd] at h; cases h; exact emitCoded_errors _ _ _ _ e info hd
  | ok t => rw [hd] at h; exact acEncode_errors _ _ t e info h

theorem flush_errors : CodingErrors flush := by
  intro s e info h
  unfold flush at h
  split at h
  · cases h
  · split at h
    · cases h
    · refine CodingErrors.bind (fun s e info h => ?_) (codingErrors_ok fun t => { t with flushed := true }) _ e info h
      rw [emitEntropyByte_eq] at h
      exact emitBytes_errors _ s e info h

theorem terminate_errors : CodingErrors terminate :=
  CodingErrors.bind flush_errors (CodingErrors.bind (emitBytes_errors _) (codingErrors_ok _))

theorem sampleBody_errors (w : Word) : CodingErrors (sampleBody w) := by
  intro s e info h
  unfold sampleBody at h
  split at h
  · unfold processBlock at h
    split at h
    · cases h
    · refine CodingErrors.bind (codeBlock_errors _) (fun t e info h => ?_) _ e info h
      split at h
      · exact terminate_errors _ e info h
      · cases h
  · cases h

/-! ## What an access can do -/

/-- A command that goes on (R220, R229): its body's result, an ignored access in ERROR, or an error entered from the state
before it. -/
theorem command_cases {legal : FramerState → Bool} {opc : Byte} {body : State → Except Stop State}
    (h : command legal opc body s = .next t)
    (he : legal s.st = true → ∀ e info, body s = .error (.raised e info) → s.st ≠ .error ∧ e ≠ .none) :
    (legal s.st = true ∧ body s = .ok t) ∨ (s.st = .error ∧ t = s.ignoreAccess) ∨
      (s.st ≠ .error ∧ ∃ e info, e ≠ .none ∧ t = errorEntry e info s) := by
  by_cases hl : legal s.st = true
  · rw [command_legal hl] at h
    cases hb : body s with
    | ok u => rw [hb] at h; cases h; exact .inl ⟨hl, rfl⟩
    | error x =>
      rw [hb] at h
      cases x with
      | raised e info =>
        cases h
        have := he hl e info hb
        exact .inr (.inr ⟨this.1, e, info, this.2, rfl⟩)
      | fault f => cases h
      | refused r => cases h
  · have hl : legal s.st = false := by simpa using hl
    by_cases hs : s.st = .error
    · rw [command_ignored hl hs] at h; cases h; exact .inr (.inl ⟨hs, rfl⟩)
    · rw [command_violation hl hs] at h; cases h; exact .inr (.inr ⟨hs, _, _, by simp, rfl⟩)

theorem ErrorCode.ofCoding_ne {e : ErrorCode} (h : e.ofCoding) : e ≠ .none := by
  rcases h with rfl | rfl <;> simp

/-- The effect of an instruction that completes. -/
def Completes (s t : State) : Instr → Prop
  | .nop => t = s
  | .start => s.st = .idle ∧ (s.cfgTest = true ∧ t = s.startRaw ∨ s.cfgTest = false ∧ startScan s = .ok t)
  | .qgen => s.st = .idle ∧ t = s.generateTables
  | .hdefault => s.st = .idle ∧ t = s.loadDefaults
  | .abort => t = s.abortEncode
  | .softReset => t = s.resetCore
  | .rawbits len value => s.st = .raw ∧ len.toNat ≤ 16 ∧ writeBits value len.toNat s = .ok t
  | .rawflush => s.st = .raw ∧ rawflushBody s = .ok t
  | .sampleWrite w => s.st = .scan ∧ sampleBody w s = .ok t
  | .regRead off _ => t = { s with rdata := regValue s (regAt off) } ∨ t = { s.ignoreAccess with rdata := 0#32 }
  | .regWrite off lanes v => isWordAccess off lanes = true ∧ t = storeReg s (regAt off) v ∧
      ((regAt off).kind = .rw ∨ (regAt off).kind = .w1c ∨ (regAt off).kind = .cl ∧ s.locked = false)

/-- An instruction that goes on completes, or is ignored, or enters ERROR from the state before it (00_scope.md R10). -/
theorem exec_cases {i : Instr} (h : exec i s = .next t) :
    Completes s t i ∨ t = s.ignoreAccess ∨ (s.st ≠ .error ∧ ∃ e info, e ≠ .none ∧ t = errorEntry e info s) := by
  have noErr : ∀ (g : State → State) e info, (Except.ok (g s) : Except Stop State) = .error (.raised e info) →
      s.st ≠ .error ∧ e ≠ .none := fun g e info h => by cases h
  cases i with
  | nop =>
    have h' : command legalAlways 0x00#8 (fun s => .ok (id s)) s = .next t := h
    rcases command_cases h' (fun _ => noErr id) with ⟨-, h⟩ | ⟨-, h⟩ | h
    · cases h; exact .inl rfl
    · exact .inr (.inl h)
    · exact .inr (.inr h)
  | start =>
    have hbad : legalIdle s.st = true → ∀ e info, startBody s = .error (.raised e info) → s.st ≠ .error ∧ e ≠ .none := by
      intro hl e info hb
      have hs : s.st = .idle := by simpa [legalIdle] using hl
      refine ⟨by rw [hs]; simp, ?_⟩
      unfold startBody at hb
      split at hb
      · cases hb
      · rcases startScan_cases s with ⟨u, c, hu, -⟩ | ⟨c, info', hu, -, hc⟩ | ⟨c, hu, -⟩
        · rw [hu] at hb; cases hb
        · rw [hu] at hb; cases hb; exact ErrorCode.ofChecks_ne hc
        · rw [hu] at hb; cases hb; simp
    have h' : command legalIdle 0x01#8 startBody s = .next t := h
    rcases command_cases h' hbad with ⟨hl, h⟩ | ⟨-, h⟩ | h
    · refine .inl ⟨by simpa [legalIdle] using hl, ?_⟩
      unfold startBody at h
      by_cases ht : s.cfgTest = true
      · rw [if_pos ht] at h; cases h; exact .inl ⟨ht, rfl⟩
      · rw [if_neg ht] at h; exact .inr ⟨by simpa using ht, h⟩
    · exact .inr (.inl h)
    · exact .inr (.inr h)
  | qgen =>
    have h' : command legalIdle 0x02#8 (fun s => .ok s.generateTables) s = .next t := h
    rcases command_cases h' (fun _ => noErr State.generateTables) with ⟨hl, h⟩ | ⟨-, h⟩ | h
    · cases h; exact .inl ⟨by simpa [legalIdle] using hl, rfl⟩
    · exact .inr (.inl h)
    · exact .inr (.inr h)
  | hdefault =>
    have h' : command legalIdle 0x03#8 (fun s => .ok s.loadDefaults) s = .next t := h
    rcases command_cases h' (fun _ => noErr State.loadDefaults) with ⟨hl, h⟩ | ⟨-, h⟩ | h
    · cases h; exact .inl ⟨by simpa [legalIdle] using hl, rfl⟩
    · exact .inr (.inl h)
    · exact .inr (.inr h)
  | abort =>
    have h' : command legalAlways 0x04#8 (fun s => .ok s.abortEncode) s = .next t := h
    rcases command_cases h' (fun _ => noErr State.abortEncode) with ⟨-, h⟩ | ⟨-, h⟩ | h
    · cases h; exact .inl rfl
    · exact .inr (.inl h)
    · exact .inr (.inr h)
  | softReset =>
    have h' : command legalAlways 0x05#8 (fun s => .ok s.resetCore) s = .next t := h
    rcases command_cases h' (fun _ => noErr State.resetCore) with ⟨-, h⟩ | ⟨-, h⟩ | h
    · cases h; exact .inl rfl
    · exact .inr (.inl h)
    · exact .inr (.inr h)
  | rawbits len value =>
    have h' : execRawbits len value s = .next t := h
    unfold execRawbits at h'
    split at h'
    · cases h'
      unfold illegalCommand
      split
      · exact .inr (.inl rfl)
      · exact .inr (.inr ⟨‹_›, _, _, by simp, rfl⟩)
    · rename_i hlen
      have hbad : legalRaw s.st = true → ∀ e info, writeBits value len.toNat s = .error (.raised e info) →
          s.st ≠ .error ∧ e ≠ .none := fun hl e info hb =>
        ⟨by rw [show s.st = .raw by simpa [legalRaw] using hl]; simp, ErrorCode.ofCoding_ne (writeBits_errors _ _ s e info hb)⟩
      rcases command_cases h' hbad with ⟨hl, h⟩ | ⟨-, h⟩ | h
      · exact .inl ⟨by simpa [legalRaw] using hl, by omega, h⟩
      · exact .inr (.inl h)
      · exact .inr (.inr h)
  | rawflush =>
    have hbad : legalRaw s.st = true → ∀ e info, rawflushBody s = .error (.raised e info) →
        s.st ≠ .error ∧ e ≠ .none := fun hl e info hb =>
      ⟨by rw [show s.st = .raw by simpa [legalRaw] using hl]; simp, ErrorCode.ofCoding_ne
        (CodingErrors.bind flush_errors (codingErrors_ok State.enterDone) s e info hb)⟩
    have h' : command legalRaw 0x11#8 rawflushBody s = .next t := h
    rcases command_cases h' hbad with ⟨hl, h⟩ | ⟨-, h⟩ | h
    · exact .inl ⟨by simpa [legalRaw] using hl, h⟩
    · exact .inr (.inl h)
    · exact .inr (.inr h)
  | sampleWrite w =>
    have hbad : (s.st == .scan) = true → ∀ e info, sampleBody w s = .error (.raised e info) →
        s.st ≠ .error ∧ e ≠ .none := fun hl e info hb =>
      ⟨by rw [show s.st = .scan by simpa using hl]; simp, ErrorCode.ofCoding_ne (sampleBody_errors w s e info hb)⟩
    have h' : command (fun st => st == .scan) 0xFF#8 (sampleBody w) s = .next t := h
    rcases command_cases h' hbad with ⟨hl, h⟩ | ⟨-, h⟩ | h
    · exact .inl ⟨by simpa using hl, h⟩
    · exact .inr (.inl h)
    · exact .inr (.inr h)
  | regRead off lanes =>
    have h' : execRegRead off lanes s = .next t := h
    rcases execRegRead_cases off lanes s with hr | hr <;> (rw [hr] at h'; cases h')
    · exact .inl (.inl rfl)
    · exact .inl (.inr rfl)
  | regWrite off lanes v =>
    have h' : execRegWrite off lanes v s = .next t := h
    unfold execRegWrite at h'
    split at h'
    · rename_i hw
      split at h'
      · cases h'; exact .inr (.inl rfl)
      · cases h'; exact .inr (.inl rfl)
      · cases h'
      · rename_i hk
        split at h'
        · cases h'; exact .inr (.inl rfl)
        · rename_i hl
          cases h'; exact .inl ⟨hw, rfl, .inr (.inr ⟨hk, by simpa using hl⟩)⟩
      · rename_i hk; cases h'; exact .inl ⟨hw, rfl, .inl hk⟩
      · rename_i hk; cases h'; exact .inl ⟨hw, rfl, .inr (.inl hk)⟩
    · cases h'; exact .inr (.inl rfl)

/-- What a step can do (00_scope.md R9): nothing without an event; a reset; an illegal command word; an instruction. -/
theorem step_cases (h : step s = .next t) :
    (s.pending = [] ∧ t = s) ∨ ∃ e rest, s.pending = e :: rest ∧
      ((e = .reset ∧ t = ({ s with pending := rest } : State).resetCore) ∨
        ∃ a, e = .access a ∧
          ((∃ x, decode a = .error x ∧ t = illegalCommand x.word { s with pending := rest }) ∨
            ∃ i, decode a = .ok i ∧ exec i { s with pending := rest } = .next t)) := by
  unfold step nextEvent at h
  cases hp : s.pending with
  | nil => rw [hp] at h; cases h; exact .inl ⟨rfl, rfl⟩
  | cons e rest =>
    rw [hp] at h
    refine .inr ⟨e, rest, rfl, ?_⟩
    cases e with
    | reset => cases h; exact .inl ⟨rfl, rfl⟩
    | access a =>
      refine .inr ⟨a, rfl, ?_⟩
      simp only at h
      cases hd : decode a with
      | error x => rw [hd] at h; cases h; exact .inl ⟨x, rfl, rfl⟩
      | ok i => rw [hd] at h; exact .inr ⟨i, rfl, h⟩

end Sys2Proof.Machine
end

