-- ==== Sys2Proof/Laws/PerInstr.lean ====
section
/-! SUPPORT. Statements about every instruction, one lemma per constructor. The family `OnCmd`: the instructions whose access is a
word write to CMD are the eight commands, and the word's low byte is then the opcode of 30_encoding.md R82. -/

namespace Sys2Proof.Laws.OnCmd

/-- The opcode of a command (R82); none for the accesses that are no command. -/
def opcode : Instr → Option Byte
  | .nop => some 0x00#8
  | .start => some 0x01#8
  | .qgen => some 0x02#8
  | .hdefault => some 0x03#8
  | .abort => some 0x04#8
  | .softReset => some 0x05#8
  | .rawbits _ _ => some 0x10#8
  | .rawflush => some 0x11#8
  | .sampleWrite _ => none
  | .regRead _ _ => none
  | .regWrite _ _ _ => none

/-- A well-formed instruction is encoded as a word write to CMD exactly when it has an opcode, which is then the word's. -/
def Statement (i : Instr) : Prop :=
  i.wf = true → ∀ w : Word, encode i = cmdWrite w → opcode i = some (opcOf w)

/-- The word of a command write. -/
theorem cmdWrite_inj {v w : Word} (h : cmdWrite v = cmdWrite w) : v = w := by
  simp only [cmdWrite] at h; injection h

theorem nop : Statement .nop := by intro _ w h; rw [← cmdWrite_inj h]; rfl
theorem start : Statement .start := by intro _ w h; rw [← cmdWrite_inj h]; rfl
theorem qgen : Statement .qgen := by intro _ w h; rw [← cmdWrite_inj h]; rfl
theorem hdefault : Statement .hdefault := by intro _ w h; rw [← cmdWrite_inj h]; rfl
theorem abort : Statement .abort := by intro _ w h; rw [← cmdWrite_inj h]; rfl
theorem softReset : Statement .softReset := by intro _ w h; rw [← cmdWrite_inj h]; rfl

theorem rawbits (len : BitVec 5) (value : BitVec 16) : Statement (.rawbits len value) := by
  intro _ w h
  rw [← cmdWrite_inj h]
  simp only [opcode, opcOf, Option.some.injEq]
  apply BitVec.eq_of_getLsbD_eq
  intro i hi
  simp only [BitVec.getLsbD_extractLsb', BitVec.getLsbD_append, hi, decide_true, Bool.true_and, Nat.zero_add, if_true]

theorem rawflush : Statement .rawflush := by intro _ w h; rw [← cmdWrite_inj h]; rfl

theorem sampleWrite (samples : Word) : Statement (.sampleWrite samples) := by
  intro _ w h
  simp only [encode, cmdWrite, Access.write.injEq] at h
  exact absurd h.1 (by decide)

theorem regRead (off : Offset) (lanes : Lanes) : Statement (.regRead off lanes) := by intro _ w h; cases h

theorem regWrite (off : Offset) (lanes : Lanes) (value : Word) : Statement (.regWrite off lanes value) := by
  intro hw w h
  simp only [encode, cmdWrite, Access.write.injEq] at h
  obtain ⟨rfl, rfl, -⟩ := h
  simp [Instr.wf, isWordAccess, cmdOffset] at hw

end Sys2Proof.Laws.OnCmd
end

