-- ==== Sys2Proof/Laws/Transform.lean ====
section
/-! SUPPORT. What the exact numbers of Machine/Transform.lean are as real numbers: the value of each, that `nonneg` decides its
sign, that `twoCos` is twice a cosine, that `coefTimes16` is sixteen times the coefficient of 40_transform.md R102, and what
`quantAc` answers. -/

namespace Sys2Proof.Machine

/-! ## Values -/

/-- r₁ = √2. -/
noncomputable def root1 : ℝ := √2
/-- r₂ = √(2 + √2). -/
noncomputable def root2 : ℝ := √(2 + root1)
/-- r₃ = √(2 + √(2 + √2)). -/
noncomputable def root3 : ℝ := √(2 + root2)

/-- The value of a + b·r₁. -/
noncomputable def Root1.val (x : Root1) : ℝ := x.a + x.b * root1
/-- The value of a + b·r₂. -/
noncomputable def Root2.val (x : Root2) : ℝ := x.a.val + x.b.val * root2
/-- The value of a + b·r₃. -/
noncomputable def Root3.val (x : Root3) : ℝ := x.a.val + x.b.val * root3

theorem root1_sq : root1 * root1 = 2 := Real.mul_self_sqrt (by norm_num)
theorem root1_nonneg : 0 ≤ root1 := Real.sqrt_nonneg _
theorem root2_sq : root2 * root2 = 2 + root1 := Real.mul_self_sqrt (by have := root1_nonneg; linarith)
theorem root2_nonneg : 0 ≤ root2 := Real.sqrt_nonneg _
theorem root3_nonneg : 0 ≤ root3 := Real.sqrt_nonneg _
theorem root3_sq : root3 * root3 = 2 + root2 := Real.mul_self_sqrt (by have := root2_nonneg; linarith)

@[simp] theorem Root1.val_add (x y : Root1) : (x.add y).val = x.val + y.val := by
  simp only [Root1.val, Root1.add, Int.cast_add]; ring
@[simp] theorem Root1.val_sub (x y : Root1) : (x.sub y).val = x.val - y.val := by
  simp only [Root1.val, Root1.sub, Int.cast_sub]; ring
@[simp] theorem Root1.val_smul (k : Int) (x : Root1) : (x.smul k).val = k * x.val := by
  simp only [Root1.val, Root1.smul, Int.cast_mul]; ring
@[simp] theorem Root1.val_mul (x y : Root1) : (x.mul y).val = x.val * y.val := by
  simp only [Root1.val, Root1.mul]; push_cast
  linear_combination (-(x.b : ℝ) * y.b) * root1_sq
@[simp] theorem Root1.val_mulNext (x : Root1) : x.mulNext.val = x.val * (2 + root1) := by
  simp only [Root1.val, Root1.mulNext]; push_cast
  linear_combination (-(x.b : ℝ)) * root1_sq
@[simp] theorem Root2.val_add (x y : Root2) : (x.add y).val = x.val + y.val := by
  simp only [Root2.val, Root2.add, Root1.val_add]; ring
@[simp] theorem Root2.val_sub (x y : Root2) : (x.sub y).val = x.val - y.val := by
  simp only [Root2.val, Root2.sub, Root1.val_sub]; ring
@[simp] theorem Root2.val_smul (k : Int) (x : Root2) : (x.smul k).val = k * x.val := by
  simp only [Root2.val, Root2.smul, Root1.val_smul]; ring
@[simp] theorem Root2.val_sq (x : Root2) : x.sq.val = x.val * x.val := by
  simp only [Root2.val, Root2.sq, Root1.val_add, Root1.val_mul, Root1.val_mulNext, Root1.val_smul]; push_cast
  linear_combination (-(x.b.val * x.b.val)) * root2_sq
@[simp] theorem Root2.val_mulNext (x : Root2) : x.mulNext.val = x.val * (2 + root2) := by
  simp only [Root2.val, Root2.mulNext, Root1.val_add, Root1.val_mulNext, Root1.val_smul]; push_cast
  linear_combination (-x.b.val) * root2_sq
@[simp] theorem Root3.val_add (x y : Root3) : (x.add y).val = x.val + y.val := by
  simp only [Root3.val, Root3.add, Root2.val_add]; ring
@[simp] theorem Root3.val_smul (k : Int) (x : Root3) : (x.smul k).val = k * x.val := by
  simp only [Root3.val, Root3.smul, Root2.val_smul]; ring
@[simp] theorem Root3.val_mk8 (c0 c1 c2 c3 c4 c5 c6 c7 : Int) : (Root3.mk8 c0 c1 c2 c3 c4 c5 c6 c7).val =
    (c0 + c1 * root1) + (c2 + c3 * root1) * root2 + ((c4 + c5 * root1) + (c6 + c7 * root1) * root2) * root3 := rfl
@[simp] theorem Root3.val_ofInt (k : Int) : (Root3.ofInt k).val = k := by simp [Root3.ofInt]

/-! ## Signs -/

/-- The sign of a + b·r by squaring. -/
theorem nonneg_by_squares {a b r d : ℝ} (hr : 0 ≤ r) (hd : r * r = d) :
    0 ≤ a + b * r ↔ if 0 ≤ a then (if 0 ≤ b then True else b * b * d ≤ a * a)
      else (if 0 ≤ b then a * a ≤ b * b * d else False) := by
  subst hd
  have hr2 : b * b * (r * r) = (b * r) * (b * r) := by ring
  split_ifs with ha hb hb
  · simp only [iff_true]; positivity
  · have hbr : b * r ≤ 0 := mul_nonpos_of_nonpos_of_nonneg (by linarith) hr
    rw [hr2]
    constructor
    · intro h; nlinarith
    · intro h; by_contra hc; nlinarith
  · have hbr : 0 ≤ b * r := mul_nonneg hb hr
    rw [hr2]
    constructor
    · intro h; nlinarith
    · intro h; by_contra hc; nlinarith
  · have hbr : b * r ≤ 0 := mul_nonpos_of_nonpos_of_nonneg (by linarith) hr
    simp only [iff_false]; linarith

theorem Root1.nonneg_iff (x : Root1) : x.nonneg = true ↔ 0 ≤ x.val := by
  rw [Root1.val, nonneg_by_squares root1_nonneg root1_sq, Root1.nonneg]
  have h0 : ∀ z : Int, (0 : ℝ) ≤ z ↔ 0 ≤ z := fun z => by norm_num
  have h1 : ∀ u v : Int, (v : ℝ) * v * 2 ≤ u * u ↔ 2 * (v * v) ≤ u * u := fun u v => by
    rw [mul_comm ((v : ℝ) * v) 2]; norm_cast
  have h2 : ∀ u v : Int, (u : ℝ) * u ≤ v * v * 2 ↔ u * u ≤ 2 * (v * v) := fun u v => by
    rw [mul_comm ((v : ℝ) * v) 2]; norm_cast
  simp only [h0, h1, h2]
  split_ifs <;> simp

theorem Root2.nonneg_iff (x : Root2) : x.nonneg = true ↔ 0 ≤ x.val := by
  rw [Root2.val, nonneg_by_squares root2_nonneg root2_sq, Root2.nonneg]
  simp only [← Root1.nonneg_iff x.a, ← Root1.nonneg_iff x.b]
  split_ifs <;> simp [Root1.nonneg_iff]

theorem Root3.nonneg_iff (x : Root3) : x.nonneg = true ↔ 0 ≤ x.val := by
  rw [Root3.val, nonneg_by_squares root3_nonneg root3_sq, Root3.nonneg]
  simp only [← Root2.nonneg_iff x.a, ← Root2.nonneg_iff x.b]
  split_ifs <;> simp [Root2.nonneg_iff]

/-! ## Cosines -/

open Real

/-- Twice the cosine of k sixteenths of π. -/
noncomputable def cos2 (k : ℝ) : ℝ := 2 * cos (k * π / 16)

theorem cos2_mul (a b : ℝ) : cos2 a * cos2 b = cos2 (a + b) + cos2 (a - b) := by
  have h := Real.two_mul_cos_mul_cos (a * π / 16) (b * π / 16)
  have e1 : (a + b) * π / 16 = a * π / 16 + b * π / 16 := by ring
  have e2 : (a - b) * π / 16 = a * π / 16 - b * π / 16 := by ring
  simp only [cos2, e1, e2]
  linarith

theorem cos2_neg (a : ℝ) : cos2 (-a) = cos2 a := by
  simp only [cos2]
  rw [show -a * π / 16 = -(a * π / 16) by ring, cos_neg]

theorem cos2_sixteen_sub (a : ℝ) : cos2 (16 - a) = -cos2 a := by
  simp only [cos2]
  rw [show (16 - a) * π / 16 = π - a * π / 16 by ring, cos_pi_sub]; ring

theorem cos2_sixteen_add (a : ℝ) : cos2 (16 + a) = -cos2 a := by
  rw [show (16 : ℝ) + a = 16 - -a by ring, cos2_sixteen_sub, cos2_neg]

theorem cos2_add_32 (a : ℝ) : cos2 (a + 32) = cos2 a := by
  rw [show a + 32 = 16 + (16 + a) by ring, cos2_sixteen_add, cos2_sixteen_add]; ring

theorem cos2_zero : cos2 0 = 2 := by simp [cos2]

theorem cos2_four : cos2 4 = root1 := by
  simp only [cos2, root1]
  rw [show (4 : ℝ) * π / 16 = π / 4 by ring, cos_pi_div_four]; ring

theorem cos2_two : cos2 2 = root2 := by
  simp only [cos2, root2, root1]
  rw [show (2 : ℝ) * π / 16 = π / 8 by ring, cos_pi_div_eight]; ring

theorem cos2_one : cos2 1 = root3 := by
  simp only [cos2, root3, root2, root1]
  rw [show (1 : ℝ) * π / 16 = π / 16 by ring, cos_pi_div_sixteen]; ring

theorem cos2_eight : cos2 8 = 0 := by
  simp only [cos2]
  rw [show (8 : ℝ) * π / 16 = π / 2 by ring, cos_pi_div_two]; ring

theorem twoCosFirst_val (j : Nat) (h : j ≤ 8) : (twoCosFirst j).val = cos2 j := by
  have c3 : cos2 3 = root3 * root2 - root3 := by
    have := cos2_mul 2 1
    rw [show (2 : ℝ) + 1 = 3 by norm_num, show (2 : ℝ) - 1 = 1 by norm_num, cos2_two, cos2_one] at this
    linarith
  have c5 : cos2 5 = root3 * root1 - cos2 3 := by
    have := cos2_mul 4 1
    rw [show (4 : ℝ) + 1 = 5 by norm_num, show (4 : ℝ) - 1 = 3 by norm_num, cos2_four, cos2_one] at this
    linarith
  have c6 : cos2 6 = root2 * root1 - root2 := by
    have := cos2_mul 4 2
    rw [show (4 : ℝ) + 2 = 6 by norm_num, show (4 : ℝ) - 2 = 2 by norm_num, cos2_four, cos2_two] at this
    linarith
  have c7 : cos2 7 = cos2 6 * root3 - cos2 5 := by
    have := cos2_mul 6 1
    rw [show (6 : ℝ) + 1 = 7 by norm_num, show (6 : ℝ) - 1 = 5 by norm_num, cos2_one] at this
    linarith
  interval_cases j <;> simp only [twoCosFirst, Root3.val_mk8, Root3.val_ofInt] <;> push_cast
  · rw [cos2_zero]; ring
  · rw [cos2_one]; ring
  · rw [cos2_two]; ring
  · rw [c3]; ring
  · rw [cos2_four]; ring
  · rw [c5, c3]; ring
  · rw [c6]; ring
  · rw [c7, c6, c5, c3]; ring
  · rw [cos2_eight]

theorem cos2_mod (k : Nat) : cos2 ((k % 32 : Nat) : ℝ) = cos2 k := by
  have hk := Nat.mod_add_div k 32
  have hgen : ∀ n : Nat, ∀ x : ℝ, cos2 (x + 32 * n) = cos2 x := by
    intro n x
    induction n with
    | zero => simp
    | succ n ih =>
      rw [show x + 32 * ((n + 1 : Nat) : ℝ) = (x + 32 * n) + 32 by push_cast; ring, cos2_add_32, ih]
  conv_rhs => rw [← hk]
  push_cast
  rw [hgen]

/-- `twoCos` is twice the cosine. -/
theorem twoCos_val (k : Nat) : (twoCos k).val = cos2 k := by
  rw [← cos2_mod k]
  have hr : k % 32 < 32 := Nat.mod_lt _ (by norm_num)
  simp only [twoCos]
  generalize k % 32 = r at hr ⊢
  split_ifs with h1 h2 h3
  · exact twoCosFirst_val r h1
  · rw [Root3.val_smul, twoCosFirst_val _ (by omega), Nat.cast_sub h2]
    push_cast
    rw [cos2_sixteen_sub]; ring
  · rw [Root3.val_smul, twoCosFirst_val _ (by omega), Nat.cast_sub (by omega)]
    push_cast
    have := cos2_sixteen_add ((r : ℝ) - 16)
    rw [show (16 : ℝ) + (r - 16) = r by ring] at this
    rw [this]; ring
  · rw [twoCosFirst_val _ (by omega), Nat.cast_sub (by omega)]
    push_cast
    have h := cos2_add_32 (-(r : ℝ))
    rw [show -(r : ℝ) + 32 = 32 - r by ring, cos2_neg] at h
    exact h

/-! ## Coefficients -/

/-- C(u)·cos((2x+1)uπ/16) is half of `cos2` at the angle of `dctAngle`. -/
theorem dctAngle_val (u x : Nat) : cos2 (dctAngle u x) = 2 * (dctC u * cos ((2 * (x : ℝ) + 1) * u * π / 16)) := by
  by_cases h : u = 0
  · subst h
    simp only [dctAngle, dctC, if_true]
    have h4 : cos2 ((4 : Nat) : ℝ) = root1 := by exact_mod_cast cos2_four
    rw [h4]
    have hs : (√2 : ℝ) * √2 = 2 := Real.mul_self_sqrt (by norm_num)
    have hne : (√2 : ℝ) ≠ 0 := by positivity
    simp only [root1, Nat.cast_zero, mul_zero, zero_mul, zero_div, cos_zero, mul_one]
    field_simp
    linarith
  · simp only [dctAngle, dctC, if_neg h, one_mul, cos2]
    push_cast
    ring_nf

/-- The summand of sample m in `dctSum`. -/
theorem dctTerm_val (n m : Nat) :
    ((twoCos (dctAngle (n % 8) (m % 8) + dctAngle (n / 8) (m / 8))).add
      (twoCos (if dctAngle (n / 8) (m / 8) ≤ dctAngle (n % 8) (m % 8) then
        dctAngle (n % 8) (m % 8) - dctAngle (n / 8) (m / 8)
        else dctAngle (n / 8) (m / 8) - dctAngle (n % 8) (m % 8)))).val =
    4 * (dctC (n % 8) * dctC (n / 8) * (cos ((2 * (m % 8 : Nat) + 1) * (n % 8 : Nat) * π / 16) *
      cos ((2 * (m / 8 : Nat) + 1) * (n / 8 : Nat) * π / 16))) := by
  have hA := dctAngle_val (n % 8) (m % 8)
  have hB := dctAngle_val (n / 8) (m / 8)
  generalize dctAngle (n % 8) (m % 8) = al at hA ⊢
  generalize dctAngle (n / 8) (m / 8) = be at hB ⊢
  have hdiff : (twoCos (if be ≤ al then al - be else be - al)).val = cos2 ((al : ℝ) - be) := by
    rw [twoCos_val]
    split_ifs with h
    · rw [Nat.cast_sub h]
    · rw [Nat.cast_sub (by omega), ← cos2_neg]; congr 1; ring
  rw [Root3.val_add, hdiff, twoCos_val]
  push_cast
  rw [← cos2_mul, hA, hB]; ring

theorem dctSum_val (n : Nat) (s : List Int) (m : Nat) (acc : Root3) : (dctSum n s m acc).val =
    acc.val + ∑ j ∈ Finset.range s.length, ((s.getD j 0 : Int) : ℝ) *
      (4 * (dctC (n % 8) * dctC (n / 8) * (cos ((2 * ((m + j) % 8 : Nat) + 1) * (n % 8 : Nat) * π / 16) *
        cos ((2 * ((m + j) / 8 : Nat) + 1) * (n / 8 : Nat) * π / 16)))) := by
  induction s generalizing m acc with
  | nil => simp [dctSum]
  | cons v s ih =>
    rw [List.length_cons, Finset.sum_range_succ']
    simp only [List.getD_cons_succ, List.getD_cons_zero, Nat.add_zero]
    by_cases hv : v = 0
    · have h := ih (m + 1) acc
      simp only [Nat.add_assoc m 1, Nat.add_comm 1] at h
      rw [dctSum, if_pos hv, h, hv]
      simp
    · have h := ih (m + 1) (acc.add (((twoCos (dctAngle (n % 8) (m % 8) + dctAngle (n / 8) (m / 8))).add
        (twoCos (if dctAngle (n / 8) (m / 8) ≤ dctAngle (n % 8) (m % 8) then
          dctAngle (n % 8) (m % 8) - dctAngle (n / 8) (m / 8)
          else dctAngle (n / 8) (m / 8) - dctAngle (n % 8) (m % 8)))).smul v))
      simp only [Nat.add_assoc m 1, Nat.add_comm 1] at h
      rw [dctSum, if_neg hv]
      refine h.trans ?_
      rw [Root3.val_add, Root3.val_smul, dctTerm_val]
      ring

/-- `coefTimes16` is sixteen times F[n] of R102. -/
theorem coefTimes16_val {s : List Int} (hs : s.length = 64) (n : Nat) : (coefTimes16 s n).val = 16 * dctCoef s n := by
  rw [coefTimes16, dctSum_val, hs, dctCoef]
  simp only [Root3.val_ofInt, Int.cast_zero, zero_add, Finset.mul_sum]
  refine Finset.sum_congr rfl fun j _ => ?_
  ring

/-- `reaches` in terms of F: m ≤ (F + e·num/(8000·den))/q + 1/2. -/
theorem reaches_iff {f : Root3} {F : ℝ} (hf : f.val = 16 * F) {q den : Nat} (hq : 0 < q) (hd : 0 < den)
    (e : Int) (num : Nat) (m : Int) : reaches f q e num den m = true ↔
    (m : ℝ) ≤ (F + e * num / (8000 * den)) / q + 1 / 2 := by
  rw [reaches, Root3.nonneg_iff, Root3.val_add, Root3.val_smul, Root3.val_ofInt, hf]
  push_cast
  have hq' : (0 : ℝ) < q := by exact_mod_cast hq
  have hd' : (0 : ℝ) < den := by exact_mod_cast hd
  have key : 8000 * (den : ℝ) * (16 * F) + (16 * e * num - 8 * q * (2 * m - 1) * (8000 * den)) =
      (16 * 8000 * den * q) * ((F + e * num / (8000 * den)) / q + 1 / 2 - m) := by
    field_simp; ring
  rw [key]
  have hpos : (0 : ℝ) < 16 * 8000 * den * q := by positivity
  rw [mul_nonneg_iff_of_pos_left hpos, sub_nonneg]

/-- What `greatest` finds: an m the predicate holds of, and not of the next. -/
theorem greatest_spec {p : Int → Bool} (k : Nat) (lo : Int)
    (hlo : p lo = true) (hhi : p (lo + 2 ^ k) = false) :
    p (greatest p k lo) = true ∧ p (greatest p k lo + 1) = false := by
  induction k generalizing lo with
  | zero => simpa [greatest] using ⟨hlo, hhi⟩
  | succ k ih =>
    rw [greatest]
    split_ifs with h
    · refine ih _ h ?_
      rwa [show lo + 2 ^ k + 2 ^ k = lo + 2 ^ (k + 1) by ring]
    · exact ih _ hlo (by simpa using h)

/-! ## Ranges (40_transform.md R107) -/

/-- C(u)·cos((2x+1)uπ/16), twice. -/
def axisWeight (u x : Nat) : Root3 := twoCos (dctAngle u x)

/-- The sum of |`axisWeight u x`| over x below k. -/
def axisAbsSum (u : Nat) : Nat → Root3
  | 0 => Root3.ofInt 0
  | k + 1 => (axisAbsSum u k).add ((axisWeight u k).smul (if (axisWeight u k).nonneg then 1 else -1))

/-- The sum of `axisWeight u x` over x below k. -/
def axisSum (u : Nat) : Nat → Root3
  | 0 => Root3.ofInt 0
  | k + 1 => (axisSum u k).add (axisWeight u k)

theorem axisAbsSum_val (u k : Nat) : (axisAbsSum u k).val = ∑ x ∈ Finset.range k, |(axisWeight u x).val| := by
  induction k with
  | zero => simp [axisAbsSum]
  | succ k ih =>
    rw [Finset.sum_range_succ, axisAbsSum, Root3.val_add, Root3.val_smul, ih]
    by_cases hw : (axisWeight u k).nonneg = true
    · rw [if_pos hw, abs_of_nonneg ((Root3.nonneg_iff _).1 hw)]; simp
    · rw [if_neg hw, abs_of_neg (lt_of_not_ge fun h => hw ((Root3.nonneg_iff _).2 h))]; simp

theorem axisSum_val (u k : Nat) : (axisSum u k).val = ∑ x ∈ Finset.range k, (axisWeight u x).val := by
  induction k with
  | zero => simp [axisSum]
  | succ k ih => rw [Finset.sum_range_succ, axisSum, Root3.val_add, ih]

/-- Along one axis the absolute weights add up to at most 8·√2, and the weights to 0 but for u = 0. -/
theorem axis_sums : ∀ u : Fin 8,
    ((Root3.mk8 0 8 0 0 0 0 0 0).add ((axisAbsSum u 8).smul (-1))).nonneg = true ∧ (u ≠ 0 → axisSum u 8 = Root3.ofInt 0) := by
  decide +kernel

theorem axisAbsSum_le {u : Nat} (hu : u < 8) : ∑ x ∈ Finset.range 8, |(axisWeight u x).val| ≤ 8 * √2 := by
  have h := (axis_sums ⟨u, hu⟩).1
  rw [Root3.nonneg_iff, Root3.val_add, Root3.val_smul, axisAbsSum_val, Root3.val_mk8] at h
  simp [root1] at h
  linarith

theorem axisSum_zero {u : Nat} (hu : u < 8) (h0 : u ≠ 0) : ∑ x ∈ Finset.range 8, (axisWeight u x).val = 0 := by
  rw [← axisSum_val, (axis_sums ⟨u, hu⟩).2 (by simpa [Fin.ext_iff] using h0), Root3.val_ofInt]; simp

/-- A sum over a block of products of a column and a row value. -/
theorem sum_block (g h : Nat → ℝ) (k : Nat) : ∑ m ∈ Finset.range (8 * k), g (m % 8) * h (m / 8) =
    (∑ x ∈ Finset.range 8, g x) * ∑ y ∈ Finset.range k, h y := by
  induction k with
  | zero => simp
  | succ k ih =>
    rw [Nat.mul_succ, Finset.sum_range_add, ih, Finset.sum_range_succ h k, mul_add, Finset.sum_mul (s := Finset.range 8) (f := g) (a := h k)]
    congr 1
    refine Finset.sum_congr rfl fun x hx => ?_
    have hx := Finset.mem_range.1 hx
    rw [show (8 * k + x) % 8 = x by omega, show (8 * k + x) / 8 = k by omega]

theorem dctCoef_form (s : List Int) (n : Nat) : 16 * dctCoef s n =
    ∑ m ∈ Finset.range 64, ((s.getD m 0 : Int) : ℝ) * ((axisWeight (n % 8) (m % 8)).val * (axisWeight (n / 8) (m / 8)).val) := by
  rw [dctCoef, Finset.mul_sum, Finset.mul_sum]
  refine Finset.sum_congr rfl fun m _ => ?_
  rw [axisWeight, axisWeight, twoCos_val, twoCos_val, dctAngle_val, dctAngle_val]
  ring

/-- Every AC coefficient lies in −1020..1020 (R107). -/
theorem dctCoef_bound {s : List Int} (hs : ∀ v ∈ s, -128 ≤ v ∧ v ≤ 127) {n : Nat} (h0 : n ≠ 0) (h : n < 64) :
    -1020 ≤ dctCoef s n ∧ dctCoef s n ≤ 1020 := by
  have hget : ∀ m, |((s.getD m 0 : Int) : ℝ) + 1 / 2| ≤ 255 / 2 := by
    intro m
    have : -128 ≤ s.getD m 0 ∧ s.getD m 0 ≤ 127 := by
      by_cases hm : m < s.length
      · rw [List.getD_eq_getElem _ _ hm]; exact hs _ (List.getElem_mem hm)
      · rw [List.getD_eq_default _ _ (by omega)]; omega
    have h1 : (-128 : ℝ) ≤ (s.getD m 0 : Int) := by exact_mod_cast this.1
    have h2 : ((s.getD m 0 : Int) : ℝ) ≤ 127 := by exact_mod_cast this.2
    rw [abs_le]; constructor <;> linarith
  let g := fun x => (axisWeight (n % 8) x).val
  let r := fun y => (axisWeight (n / 8) y).val
  have hzero : ∑ m ∈ Finset.range 64, g (m % 8) * r (m / 8) = 0 := by
    have := sum_block g r 8
    rw [show 8 * 8 = 64 from rfl] at this
    rw [this]
    by_cases hu : n % 8 = 0
    · rw [axisSum_zero (u := n / 8) (by omega) (by omega), mul_zero]
    · rw [axisSum_zero (u := n % 8) (by omega) hu, zero_mul]
  have habs : ∑ m ∈ Finset.range 64, |g (m % 8) * r (m / 8)| ≤ 128 := by
    have := sum_block (fun x => |g x|) (fun y => |r y|) 8
    rw [show 8 * 8 = 64 from rfl] at this
    simp only [abs_mul]
    rw [this]
    have h1 := axisAbsSum_le (u := n % 8) (by omega)
    have h2 := axisAbsSum_le (u := n / 8) (by omega)
    have hs : (√2 : ℝ) * √2 = 2 := Real.mul_self_sqrt (by norm_num)
    have := mul_le_mul h1 h2 (Finset.sum_nonneg fun _ _ => abs_nonneg _) (by positivity)
    linarith
  have hform : 16 * dctCoef s n = ∑ m ∈ Finset.range 64, (((s.getD m 0 : Int) : ℝ) + 1 / 2) * (g (m % 8) * r (m / 8)) := by
    simp only [add_mul, Finset.sum_add_distrib, ← Finset.mul_sum, hzero, mul_zero, add_zero]
    exact dctCoef_form s n
  have hle : |16 * dctCoef s n| ≤ 255 / 2 * 128 := by
    rw [hform]
    refine (Finset.abs_sum_le_sum_abs _ _).trans ?_
    refine le_trans (Finset.sum_le_sum fun m _ => ?_) (le_trans (le_of_eq (Finset.mul_sum _ _ _).symm) (mul_le_mul_of_nonneg_left habs (by norm_num)))
    rw [abs_mul]
    exact mul_le_mul_of_nonneg_right (hget m) (abs_nonneg _)
  rw [abs_le] at hle
  constructor <;> linarith
/-! ## The AC quantizer (41_quantizer.md R117) -/

theorem dctEps_nonneg : 0 ≤ dctEps := by unfold dctEps; positivity

/-- DCT_EPS is at most 1/8000 (00_scope.md R5). -/
theorem dctEps_le : dctEps ≤ 1 / 8000 := by
  have h : (Config.dctEpsNum : ℝ) ≤ Config.dctEpsDen := by exact_mod_cast Nat.min_le_right _ _
  have hd : (0 : ℝ) < Config.dctEpsDen := by exact_mod_cast Nat.succ_pos _
  unfold dctEps
  rw [div_le_div_iff₀ (by positivity) (by norm_num)]
  linarith

/-- What `quantAc` answers, for a coefficient F in range: floor(F'/q + 1/2) for F' = F + DCT_EPS where the choice is up and
F' = F − DCT_EPS where it is not, said by one integer m that every F' within the bound gives, or m + 1 (R117). -/
theorem quantAc_spec {f : Root3} {F : ℝ} (hf : f.val = 16 * F) (hlo : -1020 ≤ F) (hhi : F ≤ 1020) {q : Nat} (hq : 1 ≤ q) :
    ∃ m : Int, (m : ℝ) ≤ (F - dctEps) / q + 1 / 2 ∧ (F + dctEps) / q + 1 / 2 < m + 2 ∧
      ∀ up, quantAc f q up = if (m : ℝ) + 1 ≤ (if up then F + dctEps else F - dctEps) / q + 1 / 2 then m + 1 else m := by
  have hq1 : (1 : ℝ) ≤ q := by exact_mod_cast hq
  have hq0 : (0 : ℝ) < q := by linarith
  have he0 := dctEps_nonneg
  have he1 := dctEps_le
  have e3 : ((-1 : Int) : ℝ) * Config.dctEpsNum / (8000 * Config.dctEpsDen) = -dctEps := by unfold dctEps; push_cast; ring
  have e4 : ((1 : Int) : ℝ) * Config.dctEpsNum / (8000 * Config.dctEpsDen) = dctEps := by unfold dctEps; push_cast; ring
  have r1 := fun m => reaches_iff hf hq Nat.one_pos (-1) 1 m
  have r2 := fun m => reaches_iff hf hq Nat.one_pos 1 1 m
  have r3 := fun m => reaches_iff hf hq (den := Config.dctEpsDen) (Nat.succ_pos _) (-1) Config.dctEpsNum m
  have r4 := fun m => reaches_iff hf hq (den := Config.dctEpsDen) (Nat.succ_pos _) 1 Config.dctEpsNum m
  simp only [e3, e4, ← sub_eq_add_neg] at r3 r4
  norm_num [← sub_eq_add_neg] at r1 r2
  obtain ⟨g1, g2⟩ := greatest_spec (p := reaches f q (-1) 1 1) 13 (-4096)
    (by
      have : -1021 ≤ (F - 1 / 8000) / q := by rw [le_div_iff₀ hq0]; nlinarith
      rw [r1]; push_cast; linarith)
    (by
      have : (F - 1 / 8000) / q ≤ 1021 := by rw [div_le_iff₀ hq0]; nlinarith
      rw [Bool.eq_false_iff, Ne, r1]; push_cast; linarith)
  obtain ⟨m, hm⟩ : ∃ m, m = greatest (reaches f q (-1) 1 1) 13 (-4096) := ⟨_, rfl⟩
  rw [← hm, r1] at g1
  rw [← hm, Bool.eq_false_iff, Ne, r1] at g2
  push_cast at g2
  have m1 : (F - 1 / 8000) / q ≤ (F - dctEps) / q := by gcongr
  have m2 : (F - dctEps) / q ≤ (F + dctEps) / q := by gcongr; linarith
  have m3 : (F + dctEps) / q ≤ (F + 1 / 8000) / q := by gcongr
  have m4 : (F + dctEps) / q - (F - 1 / 8000) / q < 1 := by rw [← sub_div, div_lt_one hq0]; linarith
  refine ⟨m, by linarith, by linarith, fun up => ?_⟩
  have c2 := r2 (m + 1)
  have c3 := r3 (m + 1)
  have c4 := r4 (m + 1)
  push_cast at c2 c3 c4
  simp only [quantAc, ← hm, c2, c3, c4]
  by_cases h3 : (m : ℝ) + 1 ≤ (F - dctEps) / q + 1 / 2
  · have h4 : (m : ℝ) + 1 ≤ (F + dctEps) / q + 1 / 2 := by linarith
    have h2 : (m : ℝ) + 1 ≤ (F + 1 / 8000) / q + 1 / 2 := by linarith
    cases up <;> simp only [h2, h3, h4, if_true, Bool.false_eq_true, if_false]
  · by_cases h4 : (m : ℝ) + 1 ≤ (F + dctEps) / q + 1 / 2
    · have h2 : (m : ℝ) + 1 ≤ (F + 1 / 8000) / q + 1 / 2 := by linarith
      cases up <;> simp only [h2, h3, h4, if_true, Bool.false_eq_true, if_false]
    · cases up <;> simp only [h3, h4, if_true, Bool.false_eq_true, if_false, ite_self]

end Sys2Proof.Machine
end

