-- ==== Sys2Proof/Tests/Slice0.lean ====
section
/-! SUPPORT. The model's own tests, with expected values from the spec's encodings (30_encoding.md) and vectors
(95_test_vectors.md), and for each obligation a witness that its hypotheses can be met. -/

namespace Sys2Proof.Tests

open Sys2Proof.Machine

set_option Elab.async false

/-! ## Small states -/

/-- Whether an outcome is a next state that p holds of. -/
def after (o : Host.Outcome State Fault Refusal) (p : State → Bool) : Bool :=
  match o with
  | .next t => p t
  | .fault _ => false
  | .refused _ => false

/-- Codes of the reset tables (T-H-2): DC0 00 and 06, AC0 00, 03 and 42, DC1 00, AC1 00. -/
def fewCodes : EHuf :=
  ⟨[⟨0x00, 0b00, 2⟩, ⟨0x06, 0b1110, 4⟩], [⟨0x00, 0b1010, 4⟩, ⟨0x03, 0b100, 3⟩, ⟨0x42, 0b1111111000, 10⟩], [⟨0x00, 0b00, 2⟩],
    [⟨0x00, 0b00, 2⟩]⟩

/-- A table of 256 codes, all of length 16. -/
def allCodes : List HuffEntry := (List.range 256).map fun i => ⟨BitVec.ofNat 8 i, BitVec.ofNat 16 i, 16⟩

/-- An 8×8 gray image, configured. -/
def idle8 : State := { State.reset with width := 8#16, height := 8#16 }

/-- RAW, nothing pending. -/
def rawReady : State := { State.reset with st := .raw, cfgTest := true }

/-- RAW with the five pending bits 11010 (T-BW-2). -/
def rawFive : State := { rawReady with acc := 0b11010#8, nbits := 5#4 }

/-- SCAN before the sixteenth word of the only block, 128 everywhere so far (P2). -/
def scanLast : State :=
  { idle8 with
    st := .scan, blkTotal := 1#32, sfill := 15#4, olen := 328, ibuf := Vector.replicate 64 128#8
    ehuf := fewCodes }

/-- SCAN before the sixteenth word of the first of two blocks (P3). -/
def scanFirst : State := { scanLast with width := 16#16, blkTotal := 2#32 }

/-- SCAN in color, before the sixteenth word of block `bim` of the first MCU (P4). -/
def scanColor (bim : BitVec 3) : State :=
  { scanLast with
    cfgMode := 1#2, width := 16#16, height := 16#16, blkTotal := 6#32, blkCount := bim.setWidth 32, bim := bim, olen := 623 }

/-- DONE with the two bytes D2 AF (P1). -/
def doneTwo : State :=
  { State.reset with st := .done, cfgTest := true, olen := 2, obuf := [(0, 0xD2#8), (1, 0xAF#8)], flushed := true }

/-- ERROR, with fixed values where the machine draws. -/
def failed : State := { State.reset with st := .error, errCode := .invalidArgument, errInfo := 3#32, intStatus := 2#2 }

/-- A state with one access lined up. -/
def withAccess (s : State) (a : Access) : State := s.pushEvent (.access a)

/-! ## Well-formedness: each check refuses an ill-formed term -/

theorem test_wf_rawbits_17_refused : (Instr.rawbits 17#5 0#16).wf = false := by decide
theorem test_wf_rawbits_16_accepted : (Instr.rawbits 16#5 0xFFFF#16).wf = true := by decide
theorem test_wf_write_to_cmd_refused : (Instr.regWrite 0x008#14 0xF#4 0#32).wf = false := by decide
theorem test_wf_write_to_sample_refused : (Instr.regWrite 0x034#14 0xF#4 0#32).wf = false := by decide
theorem test_wf_narrow_write_to_cmd_accepted : (Instr.regWrite 0x008#14 0x1#4 0#32).wf = true := by decide

/-! ## Decoding: words from the patterns of R82 and the table T-ENC -/

theorem test_decode_nop : decode (.write 0x008#14 0xF#4 0b00000000000000000000000000000000#32) = .ok .nop := by decide
theorem test_decode_start : decode (.write 0x008#14 0xF#4 0b00000000000000000000000000000001#32) = .ok .start := by decide
theorem test_decode_qgen : decode (.write 0x008#14 0xF#4 0b00000000000000000000000000000010#32) = .ok .qgen := by decide
theorem test_decode_hdefault : decode (.write 0x008#14 0xF#4 0b00000000000000000000000000000011#32) = .ok .hdefault := by
  decide
theorem test_decode_abort : decode (.write 0x008#14 0xF#4 0b00000000000000000000000000000100#32) = .ok .abort := by decide
theorem test_decode_soft_reset : decode (.write 0x008#14 0xF#4 0b00000000000000000000000000000101#32) = .ok .softReset := by
  decide
theorem test_decode_rawflush : decode (.write 0x008#14 0xF#4 0b00000000000000000000000000010001#32) = .ok .rawflush := by
  decide
/-- RAWBITS 0b0101010, 7 (P1): VALUE, 000, LEN, OPC. -/
theorem test_decode_rawbits :
    decode (.write 0x008#14 0xF#4 0b00000000001010100000011100010000#32) = .ok (.rawbits 7#5 0b0101010#16) := by decide
theorem test_decode_sample : decode (.write 0x034#14 0xF#4 0x04030201#32) = .ok (.sampleWrite 0x04030201#32) := by decide
theorem test_decode_read : decode (.read 0x010#14 0xF#4) = .ok (.regRead 0x010#14 0xF#4) := by decide
theorem test_decode_write : decode (.write 0x018#14 0xF#4 0x100#32) = .ok (.regWrite 0x018#14 0xF#4 0x100#32) := by decide
theorem test_decode_narrow_cmd : decode (.write 0x008#14 0x3#4 1#32) = .ok (.regWrite 0x008#14 0x3#4 1#32) := by decide
theorem test_decode_illegal_words :
    ([0x00001110#32, 0x00001F10#32, 0x00002010#32, 0x00000101#32, 0x80000004#32, 0x00000111#32, 0x00000006#32, 0x0000000F#32,
      0x00000012#32, 0x000000FF#32].all fun w => (decode (cmdWrite w)).toOption.isNone) = true := by decide

/-- The numbered rows of the opcode table, as the table numbers them. -/
theorem test_table_words :
    [0x00, 0x01, 0x02, 0x03, 0x04, 0x05, 0x10, 0x11].map (decodeTableWord 32) =
      [some .nop, some .start, some .qgen, some .hdefault, some .abort, some .softReset, some (.rawbits 0#5 0#16),
        some .rawflush] := by decide

/-- Each of them runs as the first access after reset. -/
theorem test_table_words_run :
    ([0x00, 0x01, 0x02, 0x03, 0x04, 0x05, 0x10, 0x11].all fun w =>
      after (step (State.reset.withFetchWord 32 w)) fun t => t.pending == []) = true := by decide +kernel

/-! ## One step each -/

/-- `CMD NOP` in SCAN: SFILL keeps its value (R221). -/
theorem test_nop : after (exec .nop { scanLast with sfill := 3#4 }) (fun t => t.st == .scan && t.sfill == 3#4) = true := by
  decide
/-- T-H-3e: HT1 with no symbols is valid, OLEN 166; BLK_TOTAL 1. -/
theorem test_start_scan :
    after (exec .start (idle8.storeTables ((List.range 16).map fun i => (0x1800 + 4 * i, 0#8)))) (fun t =>
      t.st == .scan && t.olen == 166 && t.blkTotal == 1#32) = true := by decide +kernel
/-- T-H-3d: the duplicate symbol in HT0. -/
theorem test_start_duplicate :
    after (exec .start (idle8.storeTables [(0x1404, 0#8)])) (fun t => t.errCode == .invalidHtable && t.errInfo == 0x0003#32) =
      true := by decide +kernel
/-- T-Q-6: the integer scale, with T-Q-3c. -/
theorem test_qgen_30 :
    after (exec .qgen { State.reset with quality := 30#8 }) (fun t => t.qt .qt0 5 == 66#8 && t.qt .qt0 7 == 101#8 &&
      t.qt .qt1 3 == 78#8 && t.flags == 0#2) = true := by decide +kernel
/-- T-Q-4b: quality 101 acts as 100 and sets QCLAMP. -/
theorem test_qgen_clamp :
    after (exec .qgen { State.reset with quality := 101#8 }) (fun t => t.qt .qt0 63 == 1#8 && t.flags == 1#2) = true := by
  decide +kernel
/-- R224: HT1.BITS[2] is 2 again, and QT0 is not touched. -/
theorem test_hdefault :
    after (exec .hdefault (State.reset.storeTables [(0x1804, 7#8), (0x200, 9#8)]))
      (fun t => t.htBits .ac0 2 == 2#8 && t.qt .qt0 0 == 9#8) = true := by decide +kernel
/-- Behaviour in ERROR: ABORT clears ERR_CODE and keeps INT_STATUS. -/
theorem test_abort :
    after (exec .abort failed) (fun t => t.st == .idle && t.errCode == .none && t.errInfo == 0#32 && t.intStatus == 2#2) =
      true := by decide
/-- T-ABRT: SOFT_RESET restores QUALITY 50 and QT0[0] = 16. -/
theorem test_soft_reset :
    after (exec .softReset ({ failed with quality := 75#8 }.storeTables [(0x200, 8#8)]))
      (fun t => t.quality == 50#8 && t.qt .qt0 0 == 16#8 && t.intStatus == 0#2) = true := by decide +kernel
/-- T-BW-2, the second write: BITSTATE 0x40A, byte D2. -/
theorem test_rawbits :
    after (exec (.rawbits 7#5 0b0101010#16) rawFive) (fun t => t.bitstate == 0x0000040A#32 && t.olen == 1 &&
      t.outByte 0 == 0xD2#8) = true := by decide
/-- T-BW-8: FF 00 FF 00. -/
theorem test_rawbits_stuffed :
    after (exec (.rawbits 16#5 0xFFFF#16) rawReady) (fun t =>
      (List.range 5).map t.outByte == [0xFF, 0x00, 0xFF, 0x00, 0x00] && t.olen == 4) = true := by decide +kernel
/-- T-BW-2, the flush: byte AF, BITSTATE 0x1000. -/
theorem test_rawflush :
    after (exec .rawflush { rawReady with acc := 0b1010#8, nbits := 4#4 }) (fun t => t.bitstate == 0x00001000#32 &&
      t.outByte 0 == 0xAF#8 && t.st == .done && t.intStatus == 1#2) = true := by decide
/-- T-BW-4: seven 1-bits pad to FF, which is stuffed. -/
theorem test_rawflush_stuffed :
    after (exec .rawflush { rawReady with acc := 0x7F#8, nbits := 7#4 }) (fun t => t.olen == 2 &&
      t.outByte 0 == 0xFF#8 && t.outByte 1 == 0x00#8) = true := by decide
/-- P2, the last word: 2B FF D9. -/
theorem test_sample_last_block :
    after (exec (.sampleWrite 0x80808080#32) scanLast) (fun t => t.st == .done && t.olen == 331 &&
      [t.outByte 328, t.outByte 329, t.outByte 330] == [0x2B#8, 0xFF#8, 0xD9#8] && t.bitstate == 0x1000#32) = true := by
  decide +kernel
/-- `RD ID`. -/
theorem test_read_id : after (exec (.regRead 0x000#14 0xF#4) State.reset) (fun t => t.rdata == 0x4A504547#32) = true := by
  decide
/-- T-ACC: RD 0x060 returns 0 and sets ACCERR. -/
theorem test_read_reserved :
    after (exec (.regRead 0x060#14 0xF#4) { State.reset with rdata := 5#32 }) (fun t => t.rdata == 0#32 && t.flags == 2#2) =
      true := by decide
/-- T-ACC: WR WIDTH, 64 in SCAN. -/
theorem test_write_locked :
    after (exec (.regWrite 0x01C#14 0xF#4 64#32) scanLast) (fun t => t.width == 8#16 && t.flags == 2#2) = true := by decide
/-- T-INT: WR INT_STATUS, 1. -/
theorem test_write_int_status :
    after (exec (.regWrite 0x028#14 0xF#4 1#32) { State.reset with intStatus := 3#2 }) (fun t => t.intStatus == 2#2) = true := by
  decide
/-- T-INT: STATUS in DONE with DONE pending and enabled. -/
theorem test_status_irq :
    ({ doneTwo with intStatus := 1#2, intEnable := 1#2 } : State).status = 0x00000102#32 := by decide
/-- P4: STATUS after block Cb. -/
theorem test_status_color : ({ scanColor 5#3 with sfill := 0#4 } : State).status = 0x00002A01#32 := by decide

/-! ## The parts of the pipeline -/

/-- T-Q-1a, T-Q-1b, T-Q-1e: DC ties go up. -/
theorem test_dc_ties : [quantDc (-8128) 16, quantDc 8128 16, quantDc (-4) 1] = [-63, 64, 0] := by decide
/-- T-F-1: SOF0 in the header. -/
theorem test_header_sof0 :
    (idle8.headerBytes.drop 89).take 13 = [0xFF, 0xC0, 0x00, 0x0B, 0x08, 0x00, 0x08, 0x00, 0x08, 0x01, 0x01, 0x11, 0x00] := by
  decide +kernel
/-- T-DCT-4: columns 138 and 118 quantize to 7 (6.590) and −2 (−1.591) at n = 1 and 3, and T-DCT-3v to 4 at n = 32. -/
theorem test_transform :
    [1, 3, 5].map (quantCoef ((blockOf fun m => if m % 8 < 4 then 138#8 else 118#8).toList.map levelShift)
      (fun n => lumaBase.getD n 0)) = [7, -2, 0] ∧
    quantCoef ((blockOf fun m => if m / 8 ∈ [0, 3, 4, 7] then 138#8 else 118#8).toList.map levelShift)
      (fun n => lumaBase.getD n 0) 32 = 4 := by decide +kernel
/-- T-RLE-6 and T-RLE-2. -/
theorem test_rle :
    rle (List.replicate 62 0 ++ [1]) = [.zrl, .zrl, .zrl, .rv 14 1] ∧
    rle ([5, 0, 0, 0, 3] ++ List.replicate 58 0) = [.rv 0 5, .rv 3 3, .eob] := by decide +kernel
/-- T-CAT: −8 and 2040. -/
theorem test_category : (category (-8), valueBits (-8), category 2040, valueBits 2040) = (4, 0b0111, 11, 0b11111111000) := by
  decide
/-- T-H-1: the codes of HT0, last first. -/
theorem test_codes :
    buildTable State.reset .dc0 = .ok [⟨0x0B, 0b111111110, 9⟩, ⟨0x0A, 0b11111110, 8⟩, ⟨0x09, 0b1111110, 7⟩,
      ⟨0x08, 0b111110, 6⟩, ⟨0x07, 0b11110, 5⟩, ⟨0x06, 0b1110, 4⟩, ⟨0x05, 0b110, 3⟩, ⟨0x04, 0b101, 3⟩, ⟨0x03, 0b100, 3⟩,
      ⟨0x02, 0b011, 3⟩, ⟨0x01, 0b010, 3⟩, ⟨0x00, 0b00, 2⟩] := by rfl

/-! ## Witnesses: the hypotheses of the obligations can be met -/

/-- `State.ScanInv`, to compute. -/
def scanCheck (s : State) : Bool :=
  decide (s.cfgMode.toNat ≤ 1) && s.quantTabs.all (fun t => (List.range 64).all fun i => s.qt t i != 0#8) &&
    decide (s.blkTotal.toNat = s.blocksOf) && decide (s.blkCount.toNat < s.blkTotal.toNat) &&
    decide (s.bim.toNat = if s.color then s.blkCount.toNat % 6 else 0) &&
    s.huffTabs.all fun h => (s.ehuf.get h).all fun x =>
      decide (1 ≤ x.len) && decide (x.len ≤ 16) && decide (x.code.toNat < 2 ^ x.len)

theorem scanInv_of_check {s : State} (h : scanCheck s = true) : s.ScanInv := by
  simp only [scanCheck, Bool.and_eq_true, decide_eq_true_eq, List.all_eq_true, List.mem_range, bne_iff_ne] at h
  obtain ⟨⟨⟨⟨⟨h1, h2⟩, h3⟩, h4⟩, h5⟩, h6⟩ := h
  exact ⟨h1, h2, h3, h4, h5, fun t ht x hx => ⟨(h6 t ht x hx).1.1, (h6 t ht x hx).1.2, (h6 t ht x hx).2⟩⟩

/-- Most of `State.Inv`, to compute. -/
def invCheck (s : State) : Bool :=
  Memory.wf .tables s.tables && Memory.wf .output s.obuf &&
    (s.st == .error || (decide (s.nbits.toNat ≤ 7) && decide (s.acc.toNat < 2 ^ s.nbits.toNat))) &&
    (s.st == .done || !s.flushed) && (s.st == .error) == (s.errCode != .none) &&
    (s.st == .scan || s.st == .error || (s.sfill == 0#4 && s.bim == 0#3 && s.blkCount == s.blkTotal)) &&
    (s.st == .scan || s.st == .error || s.st == .done || s.blkTotal == 0#32) &&
    [s.predY, s.predCb, s.predCr].all fun v => decide (-1024 ≤ v.toInt) && decide (v.toInt ≤ 1016)

theorem inv_of_check {s : State} (h : invCheck s = true) (hout : s.olen ≤ Config.obufBytes)
    (hzero : s.st = .idle ∨ s.st = .error → s.olen = 0) (hscan : s.st = .scan → scanCheck s = true) : s.Inv := by
  simp only [invCheck, Bool.and_eq_true, Bool.or_eq_true, decide_eq_true_eq, beq_iff_eq, List.all_cons, List.all_nil,
    Bool.not_eq_true', and_true] at h
  obtain ⟨⟨⟨⟨⟨⟨⟨h1, h2⟩, h3⟩, h4⟩, h5⟩, h6⟩, h7⟩, h8⟩ := h
  have h5' : s.st = .error ↔ s.errCode ≠ .none := by
    rw [← beq_iff_eq, h5, bne_iff_ne]
  refine ⟨h1, h2, hout, ?_, ?_, h5', hzero, ?_, ?_, ?_, ?_, fun h => scanInv_of_check (hscan h)⟩
  · intro h; exact h3.resolve_left h
  · rintro (h | h) <;> simpa [h] using h4
  · rintro (h | h | h) <;> simp [h] at h6 <;> exact ⟨h6.1.1, h6.1.2⟩
  · rintro (h | h | h) <;> simp [h] at h6 <;> exact h6.2
  · rintro (h | h) <;> simpa [h] using h7
  · intro _ c; cases c
    · exact h8.1
    · exact h8.2.1
    · exact h8.2.2

theorem fits {n : Nat} (h : n ≤ 1024) : n ≤ Config.obufBytes := h.trans obufBytes_ge

theorem inv_idle8 : idle8.Inv := inv_of_check (by decide) (Nat.zero_le _) (fun _ => rfl) nofun
theorem inv_rawFive : rawFive.Inv := inv_of_check (by decide) (Nat.zero_le _) (fun _ => rfl) nofun
theorem inv_rawReady : rawReady.Inv := inv_of_check (by decide) (Nat.zero_le _) (fun _ => rfl) nofun
theorem inv_doneTwo : doneTwo.Inv := inv_of_check (by decide) (fits (by decide)) nofun nofun
theorem inv_failed : failed.Inv := inv_of_check (by decide) (Nat.zero_le _) (fun _ => rfl) nofun
theorem inv_scanLast : scanLast.Inv := inv_of_check (by decide) (fits (by decide)) nofun fun _ => by decide +kernel
theorem inv_scanFirst : scanFirst.Inv := inv_of_check (by decide) (fits (by decide)) nofun fun _ => by decide +kernel

/-- RAW with a full output buffer and the pending bits 11010. -/
def rawFull : State := { rawFive with olen := Config.obufBytes }
theorem inv_rawFull : rawFull.Inv := inv_of_check (by decide) (Nat.le_refl _) nofun nofun

/-- A step of the machine from s when the access a comes in. -/
def stepOn (s : State) (a : Access) : Host.Outcome State Fault Refusal := step (withAccess s a)

/-! ### Encoding and steps -/

theorem witness_DecodeOfEncode : (Instr.rawbits 16#5 0xFFFF#16).wf = true ∧ (Instr.rawbits 0#5 1#16).wf = true ∧
    (Instr.regWrite 0x3FFF#14 0x0#4 0#32).wf = true ∧ (Instr.regWrite 0x034#14 0xE#4 0#32).wf = true := by decide
theorem witness_EncodeOfDecode : decode (cmdWrite 0xFFFF1010#32) = .ok (.rawbits 16#5 0xFFFF#16) ∧
    decode (.read 0x3FFF#14 0x0#4) = .ok (.regRead 0x3FFF#14 0x0#4) := by decide
theorem witness_CommandWordsDecode :
    ([0x10, 0x1010, 0xFFFF1010].all fun n => n % 256 == 0x10 && n / 8192 % 8 == 0 && decide (n / 256 % 32 ≤ 16)) = true ∧
    (∀ n ∈ [0x1110, 0x2010, 0x8010, 0x06, 0x0F, 0x12, 0xFF, 0x105, 0x80000004, 0x111], illegalWord n) ∧
    ∀ n ∈ [0x00, 0x05, 0x10, 0x1010, 0x11], ¬ illegalWord n := by
  unfold illegalWord; decide
theorem witness_StepRunsDecodedAccess : (withAccess idle8 (cmdWrite 1#32)).pending = .access (cmdWrite 1#32) :: [] ∧
    decode (cmdWrite 1#32) = .ok .start := by decide
theorem witness_IllegalWordRaises : illegalWord (0x101#32).toNat ∧
    (withAccess scanLast (cmdWrite 0x101#32)).pending = .access (cmdWrite 0x101#32) :: [] ∧
    (withAccess scanLast (cmdWrite 0x101#32)).st ≠ .error ∧ (withAccess failed (cmdWrite 0x101#32)).st = .error := by
  unfold illegalWord; decide
theorem witness_IdleAfterReset : State.reset.pending = [] ∧
    ∀ s ∈ [State.reset, { State.reset with width := 8#16 }, { State.reset with height := 0xFFFF#16, cfgMode := 3#2 }],
      s.st = .idle ∧ s.cfgTest = false ∧ (s.width = 0#16 ∨ s.height = 0#16) := by decide
theorem witness_BothResets : (scanLast.pushEvent .reset).pending = .reset :: [] := rfl

/-! ### Register accesses -/

theorem witness_AccessesOutsideTheMap :
    (∀ a ∈ [0x060, 0x0FC, 0x400, 0xFFC, 0x1040, 0x13FC, 0x2840, 0x2BFC, 0x3000, 0x3FFC], reservedOffset a) ∧
    (∀ a ∈ [0x05C, 0x100, 0x3FC, 0x1000, 0x103C, 0x1400, 0x17FC, 0x2800, 0x2FFC], ¬ reservedOffset a) ∧
    (0x3FFF#14).toNat % 4 ≠ 0 ∧ (0x7#4) ≠ 0xF#4 := by unfold reservedOffset; decide
theorem witness_ReadOnlyAndWriteOnly :
    (∀ a ∈ [0x000, 0x00C, 0x05C, 0x100, 0x1FC], readOnlyOffset a) ∧ (∀ a ∈ [0x008, 0x024, 0x034, 0x044, 0x200], ¬ readOnlyOffset a) := by
  unfold readOnlyOffset; decide
theorem witness_ConfigurationWrites :
    (∀ a ∈ [0x018, 0x024, 0x200, 0x3FC, 0x1000, 0x103C, 0x1400, 0x17FC, 0x2FFC], configOffset a) ∧
    (∀ a ∈ [0x014, 0x028, 0x1FC, 0x400, 0xFFC, 0x1040, 0x13FC, 0x3000], ¬ configOffset a) ∧
    scanLast.st = .scan ∧ rawFive.st = .raw ∧ idle8.st = .idle ∧ doneTwo.st = .done ∧ failed.st = .error ∧
    Memory.wf .tables idle8.tables = true := by unfold configOffset; decide
/-- No offset falls under two kinds. -/
theorem test_offset_kinds_disjoint (a : Nat) :
    ¬ (reservedOffset a ∧ configOffset a) ∧ ¬ (reservedOffset a ∧ readOnlyOffset a) ∧ ¬ (configOffset a ∧ readOnlyOffset a) := by
  simp only [reservedOffset, configOffset, readOnlyOffset, List.mem_cons, List.not_mem_nil, or_false]
  omega
theorem witness_RegistersRead : (0 < 4 ∧ 1 ≤ 16 ∧ 255 < 256) ∧ (3 < 4 ∧ 63 < 64) := by decide
theorem witness_StatusFields :
    (∀ s ∈ [scanColor 0#3, scanColor 3#3, scanColor 4#3, scanColor 5#3], s.st ≠ .error ∧ s.cfgMode = 1#2 ∧ s.bim.toNat ≤ 5) ∧
    idle8.st ≠ .error ∧ idle8.cfgMode ≠ 1#2 := by decide
theorem witness_OutputReadsOnlyInDone : doneTwo.st = .done ∧ 4 * doneTwo.outIndex.toNat + 1 < doneTwo.olen ∧
    ¬ 4 * doneTwo.outIndex.toNat + 2 < doneTwo.olen ∧ scanLast.st ≠ .done := by decide
theorem witness_BitstateFields : rawFive.Inv ∧ rawFive.st ≠ .error ∧ rawFive.nbits.toNat = 5 := ⟨inv_rawFive, by decide, rfl⟩
theorem witness_ReadoutReturnsStream : doneTwo.st = .done ∧ 1 < doneTwo.olen ∧ 1 < 2 ^ 32 := by decide
theorem witness_ResetValues : (0x05C, BitVec.ofNat 32 Config.obufBytes) ∈
    [(0x000, 0x4A504547#32), (0x05C, BitVec.ofNat 32 Config.obufBytes)] ∧ 63 < 64 ∧ 15 < 16 ∧ 255 < 256 :=
  ⟨.tail _ (.head _), by decide⟩

/-! ### Commands -/

theorem witness_NopChangesNothing :
    (0x100#32).toNat % 256 = 0 ∧ (0x100#32).toNat ≠ 0 ∧ (0xFFFFFF00#32).toNat % 256 = 0 ∧ (0xFFFFFF00#32).toNat ≠ 0 ∧ idle8.st ≠ .error ∧
    (withAccess idle8 (cmdWrite 0x100#32)).pending = .access (cmdWrite 0x100#32) :: [] := by decide
theorem witness_AbortClears : failed.st = .error ∧
    ∃ t, stepOn failed (cmdWrite 4#32) = .next t ∧ t.st ≠ .error := ⟨rfl, _, rfl, nofun⟩
theorem witness_QgenGeneratesTables :
    ∀ q ∈ [0, 1, 49, 50, 100, 101, 255],
      ({ State.reset with quality := BitVec.ofNat 8 q } : State).st = .idle ∧
        Memory.wf .tables ({ State.reset with quality := BitVec.ofNat 8 q } : State).tables = true := by decide
theorem witness_HdefaultLoadsDefaults : idle8.st = .idle ∧ Memory.wf .tables idle8.tables = true := by decide
theorem witness_StateViolations :
    (∀ s ∈ [scanLast, doneTwo, rawFive], s.st ≠ .error ∧ s.st ≠ .idle) ∧ (∀ s ∈ [idle8, scanLast, doneTwo], s.st ≠ .error ∧ s.st ≠ .raw) ∧
    (∀ s ∈ [idle8, doneTwo, rawFive], s.st ≠ .error ∧ s.st ≠ .scan) ∧ (16#5).toNat ≤ 16 := by decide

/-! ### Errors and interrupts -/

theorem witness_ErrorEntryEffect : ∃ t, t = errorEntry .stateViolation 0x101#32 scanLast := ⟨_, rfl⟩
theorem witness_ErrorIgnoresCommands : failed.st = .error ∧
    (1#32 ≠ 0#32 ∧ 1#32 ≠ 4#32 ∧ 1#32 ≠ 5#32) ∧ (0xFFFFFFFF#32 ≠ 0#32 ∧ 0xFFFFFFFF#32 ≠ 4#32 ∧ 0xFFFFFFFF#32 ≠ 5#32) ∧
    (withAccess failed (.write sampleOffset 0xF#4 0#32)).pending = .access (.write sampleOffset 0xF#4 0#32) :: [] := by decide
theorem witness_ErrorIsSticky : (withAccess failed (cmdWrite 1#32)).st = .error ∧ (∃ t, stepOn failed (cmdWrite 1#32) = .next t) ∧
    ∃ t, stepOn failed (cmdWrite 5#32) = .next t := ⟨rfl, ⟨_, rfl⟩, _, rfl⟩
theorem witness_InterruptSources :
    (∃ t, stepOn rawReady (cmdWrite 0x11#32) = .next t ∧ rawReady.st ≠ .done ∧ t.st = .done) ∧
    (∃ t, stepOn rawReady (cmdWrite 6#32) = .next t ∧ rawReady.st ≠ .error ∧ t.st = .error) ∧
    ∃ t, stepOn failed (.write 0x028#14 0xF#4 2#32) = .next t ∧ failed.intStatus.getLsbD 1 = true ∧ t.intStatus.getLsbD 1 = false :=
  ⟨⟨_, rfl, nofun, rfl⟩, ⟨_, rfl, nofun, rfl⟩, _, rfl, rfl, rfl⟩

/-! ### Start -/

/-- The table RAMs with four Huffman tables of 256 symbols, the most a valid table has: 255 codes of length 8, one of length 9. -/
def fullTables : Memory :=
  [HTab.dc0, .ac0, .dc1, .ac1].flatMap fun h =>
    (List.range 16).map (fun i => (htBase h + 4 * i, if i = 7 then 255#8 else if i = 8 then 1#8 else 0#8)) ++
      (List.range 256).map fun k => (htBase h + 0x400 + 4 * k, BitVec.ofNat 8 k)

theorem read_mem {sp : Space} {m : Memory} {a : Nat} {b : Byte} (hs : m.Pairwise fun x y => x.1 < y.1) (h : (a, b) ∈ m) :
    Memory.read sp m a = b := by
  induction m with
  | nil => simp at h
  | cons c m ih =>
    simp only [List.pairwise_cons] at hs
    rcases List.mem_cons.1 h with rfl | h
    · simp [Memory.read]
    · have := hs.1 _ h
      simp only [Memory.read]
      rw [if_neg (by simp at this; omega)]
      exact ih hs.2 h

theorem read_notMem {sp : Space} {m : Memory} {a : Nat} (h : ∀ c ∈ m, c.1 ≠ a) : Memory.read sp m a = blank sp a := by
  induction m with
  | nil => rfl
  | cons c m ih =>
    simp only [List.forall_mem_cons] at h
    simp [Memory.read, h.1, ih h.2]

theorem fullTables_sorted : fullTables.Pairwise fun x y => x.1 < y.1 := by
  have h : fullTables.IsChain fun x y => x.1 < y.1 := by decide +kernel
  have : IsTrans (Nat × Byte) fun x y => x.1 < y.1 := ⟨fun _ _ _ => Nat.lt_trans⟩
  exact List.isChain_iff_pairwise.1 h

/-- A gray or color image with the full tables. -/
def idleFull (mode : BitVec 2) : State := { idle8 with cfgMode := mode, tables := fullTables }

theorem full_bits (mode : BitVec 2) (h : HTab) {i : Nat} (hi : i < 16) :
    (idleFull mode).htBits h (i + 1) = if i = 7 then 255#8 else if i = 8 then 1#8 else 0#8 := by
  refine read_mem fullTables_sorted ?_
  show _ ∈ fullTables
  simp only [fullTables, List.mem_flatMap, List.mem_append, List.mem_map, List.mem_range]
  exact ⟨h, by cases h <;> simp, .inl ⟨i, hi, by simp [bitsAddr]⟩⟩

theorem full_val (mode : BitVec 2) (h : HTab) {k : Nat} (hk : k < 256) : (idleFull mode).htVal h k = BitVec.ofNat 8 k := by
  refine read_mem fullTables_sorted ?_
  show _ ∈ fullTables
  simp only [fullTables, List.mem_flatMap, List.mem_append, List.mem_map, List.mem_range]
  exact ⟨h, by cases h <;> simp, .inr ⟨k, hk, by simp [valAddr]⟩⟩

theorem full_count (mode : BitVec 2) (h : HTab) : (idleFull mode).symbolCount h = 256 := by
  have : (idleFull mode).bitCounts h = (List.range 16).map fun i => (if i = 7 then 255#8 else if i = 8 then 1#8 else 0#8).toNat :=
    List.map_congr_left fun i hi => by rw [full_bits mode h (List.mem_range.1 hi)]
  rw [State.symbolCount, this]; decide

theorem full_valid (mode : BitVec 2) (h : HTab) : (idleFull mode).validTable h := by
  refine ⟨by rw [full_count], fun len h1 h2 => ?_, ?_⟩
  · have : (idleFull mode).codeSpace h len =
        ((List.range len).map fun i => (if i = 7 then 255#8 else if i = 8 then 1#8 else 0#8).toNat * 2 ^ (len - (i + 1))).sum := by
      rw [State.codeSpace]
      exact congrArg List.sum (List.map_congr_left fun i hi => by rw [full_bits mode h (by have := List.mem_range.1 hi; omega)])
    rw [this]
    interval_cases len <;> decide
  · rw [full_count, List.map_congr_left fun k hk => full_val mode h (List.mem_range.1 hk)]
    refine List.Nodup.map_on ?_ List.nodup_range
    intro a ha b hb e
    have := congrArg BitVec.toNat e
    simp only [BitVec.toNat_ofNat, List.mem_range] at *
    omega

theorem full_qt (mode : BitVec 2) (t : QTab) {i : Nat} (hi : i < 64) : (idleFull mode).qt t i = resetTable (qtAddr t i) := by
  refine read_notMem fun c hc e => ?_
  simp only [idleFull, fullTables, List.mem_flatMap, List.mem_append, List.mem_map, List.mem_range] at hc
  obtain ⟨h, -, ⟨j, hj, rfl⟩ | ⟨j, hj, rfl⟩⟩ := hc <;> cases t <;> simp [qtAddr, QTab.index, htBase] at e <;> omega

theorem full_quant (mode : BitVec 2) (t : QTab) {i : Nat} (hi : i < 64) : (idleFull mode).qt t i ≠ 0#8 := by
  rw [full_qt mode t hi]
  have : ∀ t ∈ [QTab.qt0, .qt1], ∀ i ∈ List.range 64, resetTable (qtAddr t i) ≠ 0#8 := by decide +kernel
  exact this t (by cases t <;> simp) i (List.mem_range.2 hi)

theorem witness_StartEntersRaw : { idle8 with cfgTest := true }.st = .idle ∧ { idle8 with cfgTest := true }.cfgTest = true := ⟨rfl, rfl⟩

theorem witness_StartRejects_format :
    ∀ m : BitVec 2, 2 ≤ m.toNat → ({ idle8 with cfgMode := m } : State).st = .idle ∧ ({ idle8 with cfgMode := m } : State).cfgTest = false ∧
      2 ≤ ({ idle8 with cfgMode := m } : State).cfgMode.toNat := by decide
theorem witness_StartRejects_size :
    ∀ s ∈ [State.reset, { idle8 with width := 0#16 }, { idle8 with height := 0#16, cfgMode := 1#2 }],
      s.st = .idle ∧ s.cfgTest = false ∧ s.cfgMode.toNat ≤ 1 ∧ (s.width = 0#16 ∨ s.height = 0#16) := by decide
/-- The first entry of QT0 is zero; or the last of QT1, in color. -/
theorem witness_StartRejects_quant :
    ({ idle8 with tables := [(0x200, 0#8)] } : State).qt .qt0 0 = 0#8 ∧
    ({ idle8 with cfgMode := 1#2, tables := [(0x3FC, 0#8)] } : State).qt .qt1 63 = 0#8 ∧
    (∀ j ∈ List.range 63, ({ idle8 with cfgMode := 1#2, tables := [(0x3FC, 0#8)] } : State).qt .qt1 j ≠ 0#8) ∧
    ∀ j ∈ List.range 64, ({ idle8 with cfgMode := 1#2, tables := [(0x3FC, 0#8)] } : State).qt .qt0 j ≠ 0#8 := by decide +kernel
/-- T-H-3c: 267 symbols in the first table; no table before it, and every quantization entry nonzero. -/
theorem witness_StartRejects_count :
    ¬ ({ idle8 with tables := [(0x103C, 255#8)] } : State).validTable .dc0 ∧
    256 < ({ idle8 with tables := [(0x103C, 255#8)] } : State).symbolCount .dc0 ∧
    ∀ t ∈ [QTab.qt0], ∀ i ∈ List.range 64, ({ idle8 with tables := [(0x103C, 255#8)] } : State).qt t i ≠ 0#8 :=
  ⟨fun h => absurd h.1 (by decide), by decide, by decide +kernel⟩
/-- Three codes of length 1 in HT1, with HT0 as after reset (T-H-3b). -/
theorem witness_StartRejects_space :
    ¬ ({ idle8 with tables := [(0x1800, 3#8)] } : State).validTable .ac0 ∧
    ∀ h' : HTab, h'.index < HTab.ac0.index → ({ idle8 with tables := [(0x1800, 3#8)] } : State).validTable h' := by
  refine ⟨fun h => absurd (h.2.1 1 (by decide) (by decide)) (by decide), ?_⟩
  intro h' hi
  cases h' <;> simp [HTab.index] at hi
  exact ⟨by decide, fun len h1 h2 => by interval_cases len <;> decide +kernel, by decide +kernel⟩
/-- T-H-3d: a symbol twice in HT0. -/
theorem witness_StartRejects_twice : ¬ ({ idle8 with tables := [(0x1404, 0#8)] } : State).validTable .dc0 :=
  fun h => absurd h.2.2 (by decide +kernel)

theorem witness_BuiltCodesAreCanonical : ∃ l, buildTable State.reset .dc0 = .ok l := ⟨_, test_codes⟩

theorem dht_length (s : State) (h : HTab) : (s.dhtBytes h).length = 21 + s.symbolCount h := by
  simp [State.dhtBytes, be16]; omega

/-- Gray with the largest tables: the header fits every buffer. -/
theorem witness_StartEntersScan :
    let s := idleFull 0#2
    s.st = .idle ∧ s.cfgTest = false ∧ s.cfgMode.toNat ≤ 1 ∧ s.width ≠ 0#16 ∧ s.height ≠ 0#16 ∧ Memory.wf .output s.obuf = true ∧
    (∀ t i, t ∈ [QTab.qt0] → i < 64 → s.qt t i ≠ 0#8) ∧ (∀ h, h ∈ [HTab.dc0, .ac0] → s.validTable h) ∧
    s.headerBytes.length ≤ Config.obufBytes := by
  refine ⟨rfl, rfl, by decide, by decide, by decide, rfl, fun t i _ hi => full_quant _ t hi, fun h _ => full_valid _ h, fits ?_⟩
  have hc : (idleFull 0#2).color = false := rfl
  simp [State.headerBytes, State.quantTabs, State.huffTabs, State.sof0Bytes, State.sosBytes, State.dqtBytes, dht_length, be16,
    soiBytes, app0Bytes, show zigzagOrder.length = 64 from rfl, hc, full_count]
/-- Color with the largest tables: 1299 bytes of header, too many for the smallest buffer. -/
theorem witness_StartEntersScan_overflow (hb : Config.obufBytes = 1024) :
    let s := idleFull 1#2
    s.st = .idle ∧ s.cfgTest = false ∧ s.cfgMode.toNat ≤ 1 ∧ s.width ≠ 0#16 ∧ s.height ≠ 0#16 ∧ Memory.wf .output s.obuf = true ∧
    (∀ t i, t ∈ [QTab.qt0, .qt1] → i < 64 → s.qt t i ≠ 0#8) ∧ (∀ h, h ∈ [HTab.dc0, .ac0, .dc1, .ac1] → s.validTable h) ∧
    Config.obufBytes < s.headerBytes.length := by
  refine ⟨rfl, rfl, by decide, by decide, by decide, rfl, fun t i _ hi => full_quant _ t hi, fun h _ => full_valid _ h, ?_⟩
  have hc : (idleFull 1#2).color = true := rfl
  simp [State.headerBytes, State.quantTabs, State.huffTabs, State.sof0Bytes, State.sosBytes, State.dqtBytes, dht_length, be16,
    soiBytes, app0Bytes, show zigzagOrder.length = 64 from rfl, hc, full_count, hb]

theorem witness_HeaderLength : idle8.cfgMode = 0#2 ∧ (scanColor 0#3).cfgMode = 1#2 := by decide
theorem witness_GrayHeader : idle8.cfgMode = 0#2 ∧ 11 < idle8.symbolCount .dc0 := by decide
theorem witness_ColorHeader : (scanColor 0#3).cfgMode = 1#2 ∧ 11 < (scanColor 0#3).symbolCount .dc1 := by decide

/-! ### RAW mode -/

theorem witness_RawbitsPacksBits : rawFive.st = .raw ∧ rawFive.Inv ∧ (16#5).toNat ≤ 16 ∧
    rawFive.olen + (stuffed (cutBytes (rawFive.pendingBits ++ lowBits 0xFFFF#16 16)).1).length ≤ Config.obufBytes :=
  ⟨rfl, inv_rawFive, by decide, fits (by decide)⟩
theorem witness_RawbitsPacksBits_empty : rawReady.st = .raw ∧ rawReady.Inv ∧ (0#5).toNat ≤ 16 ∧
    rawReady.olen + (stuffed (cutBytes (rawReady.pendingBits ++ lowBits 0x1234#16 0)).1).length ≤ Config.obufBytes :=
  ⟨rfl, inv_rawReady, by decide, fits (by decide)⟩
theorem witness_RawbitsPacksBits_overflow : rawFull.st = .raw ∧ rawFull.Inv ∧ (3#5).toNat ≤ 16 ∧
    Config.obufBytes < rawFull.olen + (stuffed (cutBytes (rawFull.pendingBits ++ lowBits 0#16 3)).1).length :=
  ⟨rfl, inv_rawFull, by decide, Nat.lt_add_of_pos_right (by decide)⟩
theorem witness_RawbitsConcatenate : ∃ t u, 9 + 7 ≤ 16 ∧ (0x2A#16).toNat < 2 ^ 7 ∧ rawFive.st = .raw ∧
    exec (.rawbits (BitVec.ofNat 5 9) 0x1FF#16) rawFive = .next t ∧ t.st = .raw ∧
    exec (.rawbits (BitVec.ofNat 5 7) 0x2A#16) t = .next u ∧ u.st = .raw :=
  ⟨_, _, by decide, by decide, rfl, rfl, rfl, rfl, rfl⟩
theorem witness_RawflushFinishes :
    (rawReady.st = .raw ∧ rawReady.Inv ∧ rawReady.nbits = 0#4) ∧ (rawFive.st = .raw ∧ rawFive.Inv ∧
      rawFive.olen + (stuffed [byteOfBits (rawFive.pendingBits ++ List.replicate (8 - rawFive.nbits.toNat) true)]).length ≤ Config.obufBytes) ∧
    (rawFull.st = .raw ∧ rawFull.Inv ∧ Config.obufBytes < rawFull.olen +
      (stuffed [byteOfBits (rawFull.pendingBits ++ List.replicate (8 - rawFull.nbits.toNat) true)]).length) :=
  ⟨⟨rfl, inv_rawReady, rfl⟩, ⟨rfl, inv_rawFive, fits (by decide)⟩, rfl, inv_rawFull, Nat.lt_add_of_pos_right (by decide)⟩

/-! ### Blocks -/

/-- The codes of a host that gave every symbol one. -/
def allEHuf : EHuf := ⟨allCodes, allCodes, allCodes, allCodes⟩

theorem allEHuf_codes (h : HTab) (sym : Byte) : (codeFor allEHuf h sym).isSome = true := by
  have : allEHuf.get h = allCodes := by cases h <;> rfl
  rw [codeFor, this, List.find?_isSome]
  exact ⟨⟨BitVec.ofNat 8 sym.toNat, BitVec.ofNat 16 sym.toNat, 16⟩, List.mem_map.2 ⟨_, List.mem_range.2 sym.isLt, rfl⟩, by simp⟩

/-- The first of two gray blocks; the only gray block; the last block (Cr) of the first of two color MCUs. -/
def blockFirst : State := { scanFirst with ehuf := allEHuf }
def blockOnly : State := { scanLast with ehuf := allEHuf }
def blockCr : State := { scanColor 5#3 with ehuf := allEHuf, width := 17#16, blkTotal := 12#32 }

/-- Gray blocks with a full output buffer: their codes take four bytes; their codes take six bits. -/
def blockFirstFull : State := { blockFirst with olen := Config.obufBytes }
def blockOnlyFull : State := { blockOnly with olen := Config.obufBytes }
def scanLastFull : State := { scanLast with olen := Config.obufBytes }

/-- No DC code; a DC code of a byte and no EOB code (P8); that with a full output buffer. -/
def noCodes : State := { scanLast with ehuf := ⟨[], [], [], []⟩ }
def noEob : State := { scanLast with ehuf := ⟨[⟨0x00, 0x55, 8⟩], [], [], []⟩ }
def noEobFull : State := { noEob with olen := Config.obufBytes }

theorem inv_blockFirst : blockFirst.Inv := inv_of_check (by decide) (fits (by decide)) nofun fun _ => by decide +kernel
theorem inv_blockOnly : blockOnly.Inv := inv_of_check (by decide) (fits (by decide)) nofun fun _ => by decide +kernel
theorem inv_blockCr : blockCr.Inv := inv_of_check (by decide) (fits (by decide)) nofun fun _ => by decide +kernel
theorem inv_noCodes : noCodes.Inv := inv_of_check (by decide) (fits (by decide)) nofun fun _ => by decide +kernel
theorem inv_noEob : noEob.Inv := inv_of_check (by decide) (fits (by decide)) nofun fun _ => by decide +kernel

/-- A full output buffer is no matter to the rest of the invariant. -/
theorem inv_full {s : State} (h : s.Inv) (hs : s.st = .scan) : ({ s with olen := Config.obufBytes } : State).Inv :=
  ⟨h.tablesCanonical, h.outputCanonical, Nat.le_refl _, h.packer, h.oneShot, h.errorCode,
    fun hn => by rcases hn with hn | hn <;> exact absurd (hs.symm.trans hn) nofun, h.betweenBlocks, h.counts, h.noBlocks,
    fun hn c => match c with
      | .y => h.predictors hn .y
      | .cb => h.predictors hn .cb
      | .cr => h.predictors hn .cr,
    fun hn => ⟨(h.scan hn).mode, (h.scan hn).quant, (h.scan hn).total, (h.scan hn).count, (h.scan hn).bim, (h.scan hn).codes⟩⟩

/-- A gray block of 128 is all zeros (T-DCT-1), whatever the code tables and the output. -/
theorem scan_gray : scanLast.blockScan 0x80808080#32 = List.replicate 64 0 := by decide +kernel
/-- So is a chroma block. -/
theorem scan_chroma : blockCr.blockScan 0x80808080#32 = List.replicate 64 0 := by decide +kernel

/-- Its symbols: DC category 0, EOB (P2). -/
theorem symbols_gray : scanLast.blockSymbols (scanLast.blockScan 0x80808080#32) = [⟨.dc0, 0x00, 0⟩, ⟨.ac0, 0x00, 0⟩] := by
  rw [scan_gray]; decide +kernel
theorem symbols_chroma : blockCr.blockSymbols (blockCr.blockScan 0x80808080#32) = [⟨.dc1, 0x00, 0⟩, ⟨.ac1, 0x00, 0⟩] := by
  rw [scan_chroma]; decide +kernel
theorem symbols_first : blockFirst.blockSymbols (blockFirst.blockScan 0x80808080#32) = [⟨.dc0, 0x00, 0⟩, ⟨.ac0, 0x00, 0⟩] :=
  symbols_gray
theorem symbols_firstFull :
    blockFirstFull.blockSymbols (blockFirstFull.blockScan 0x80808080#32) = [⟨.dc0, 0x00, 0⟩, ⟨.ac0, 0x00, 0⟩] := symbols_gray
theorem symbols_only : blockOnly.blockSymbols (blockOnly.blockScan 0x80808080#32) = [⟨.dc0, 0x00, 0⟩, ⟨.ac0, 0x00, 0⟩] :=
  symbols_gray
theorem symbols_onlyFull :
    blockOnlyFull.blockSymbols (blockOnlyFull.blockScan 0x80808080#32) = [⟨.dc0, 0x00, 0⟩, ⟨.ac0, 0x00, 0⟩] := symbols_gray
theorem symbols_lastFull :
    scanLastFull.blockSymbols (scanLastFull.blockScan 0x80808080#32) = [⟨.dc0, 0x00, 0⟩, ⟨.ac0, 0x00, 0⟩] := symbols_gray

theorem allEHuf_defined (syms : List CodedSym) : codesDefined allEHuf syms := fun _ _ => allEHuf_codes _ _
theorem fewCodes_defined : codesDefined fewCodes [⟨.dc0, 0x00, 0⟩, ⟨.ac0, 0x00, 0⟩] := by unfold codesDefined; decide

/-- The bits of a block of two 16-bit codes of zeros, and of P2's codes 00 and 1010. -/
theorem bits_all : codedAll allEHuf [⟨.dc0, 0x00, 0⟩, ⟨.ac0, 0x00, 0⟩] = List.replicate 32 false := by decide +kernel
theorem bits_all_chroma : codedAll allEHuf [⟨.dc1, 0x00, 0⟩, ⟨.ac1, 0x00, 0⟩] = List.replicate 32 false := by decide +kernel
theorem bits_few : codedAll fewCodes [⟨.dc0, 0x00, 0⟩, ⟨.ac0, 0x00, 0⟩] = [false, false, true, false, true, false] := by decide

theorem witness_SampleStored : scanLast.st = .scan ∧ ({ scanLast with sfill := 0#4 } : State).sfill.toNat < 15 ∧
    ({ scanLast with sfill := 14#4 } : State).sfill.toNat < 15 := by decide

/-- The premises of BlockCoded. -/
def codesBlock (s : State) (w : Word) : Prop :=
  s.st = .scan ∧ s.Inv ∧ s.sfill = 15#4 ∧ s.blkCount.toNat + 1 < s.blkTotal.toNat ∧
    codesDefined s.ehuf (s.blockSymbols (s.blockScan w))
/-- The premises of LastBlockEndsStream. -/
def endsStream (s : State) (w : Word) : Prop :=
  s.st = .scan ∧ s.Inv ∧ s.sfill = 15#4 ∧ s.blkCount.toNat + 1 = s.blkTotal.toNat ∧
    codesDefined s.ehuf (s.blockSymbols (s.blockScan w))
/-- What the bits of a block make. -/
def blockCut (s : State) (w : Word) : List Byte × List Bool :=
  cutBytes (s.pendingBits ++ codedAll s.ehuf (s.blockSymbols (s.blockScan w)))
/-- What the last block and the end of the stream put out. -/
def blockOut (s : State) (w : Word) : List Byte :=
  let cut := blockCut s w
  stuffed (cut.1 ++ if cut.2 = [] then [] else [byteOfBits (cut.2 ++ List.replicate (8 - cut.2.length) true)]) ++ [0xFF#8, 0xD9#8]

theorem cut_first : blockCut blockFirst 0x80808080#32 = ([0, 0, 0, 0], []) := by
  rw [blockCut, symbols_first, show blockFirst.ehuf = allEHuf from rfl, bits_all]; decide
theorem cut_firstFull : blockCut blockFirstFull 0x80808080#32 = ([0, 0, 0, 0], []) := by
  rw [blockCut, symbols_firstFull, show blockFirstFull.ehuf = allEHuf from rfl, bits_all]; decide
theorem cut_cr : blockCut blockCr 0x80808080#32 = ([0, 0, 0, 0], []) := by
  rw [blockCut, symbols_chroma, show blockCr.ehuf = allEHuf from rfl, bits_all_chroma]; decide
theorem cut_only : blockCut blockOnly 0x80808080#32 = ([0, 0, 0, 0], []) := by
  rw [blockCut, symbols_only, show blockOnly.ehuf = allEHuf from rfl, bits_all]; decide
theorem cut_onlyFull : blockCut blockOnlyFull 0x80808080#32 = ([0, 0, 0, 0], []) := by
  rw [blockCut, symbols_onlyFull, show blockOnlyFull.ehuf = allEHuf from rfl, bits_all]; decide
theorem cut_last : blockCut scanLast 0x80808080#32 = ([], [false, false, true, false, true, false]) := by
  rw [blockCut, symbols_gray, show scanLast.ehuf = fewCodes from rfl, bits_few]; decide
theorem cut_lastFull : blockCut scanLastFull 0x80808080#32 = ([], [false, false, true, false, true, false]) := by
  rw [blockCut, symbols_lastFull, show scanLastFull.ehuf = fewCodes from rfl, bits_few]; decide

theorem witness_BlockCoded : codesBlock blockFirst 0x80808080#32 ∧
    blockFirst.olen + (stuffed (blockCut blockFirst 0x80808080#32).1).length ≤ Config.obufBytes :=
  ⟨⟨rfl, inv_blockFirst, rfl, by decide, allEHuf_defined _⟩, by rw [cut_first]; exact fits (by decide)⟩
/-- In color, at the wrap of BIM: the Cr block. -/
theorem witness_BlockCoded_color : codesBlock blockCr 0x80808080#32 ∧ blockCr.blockComp = .cr ∧
    blockCr.olen + (stuffed (blockCut blockCr 0x80808080#32).1).length ≤ Config.obufBytes :=
  ⟨⟨rfl, inv_blockCr, rfl, by decide, allEHuf_defined _⟩, by decide, by rw [cut_cr]; exact fits (by decide)⟩
theorem witness_BlockCoded_overflow : codesBlock blockFirstFull 0x80808080#32 ∧
    Config.obufBytes < blockFirstFull.olen + (stuffed (blockCut blockFirstFull 0x80808080#32).1).length :=
  ⟨⟨rfl, inv_full inv_blockFirst rfl, rfl, by decide, allEHuf_defined _⟩,
    by rw [cut_firstFull]; exact Nat.lt_add_of_pos_right (by decide)⟩

/-- The stream ends on a byte boundary, and with two 1-bits of padding (P2: 2B FF D9). -/
theorem witness_LastBlockEndsStream :
    (endsStream blockOnly 0x80808080#32 ∧ blockOnly.olen + (blockOut blockOnly 0x80808080#32).length ≤ Config.obufBytes) ∧
    endsStream scanLast 0x80808080#32 ∧ blockOut scanLast 0x80808080#32 = [0x2B, 0xFF, 0xD9] ∧
    scanLast.olen + (blockOut scanLast 0x80808080#32).length ≤ Config.obufBytes := by
  have h : blockOut scanLast 0x80808080#32 = [0x2B, 0xFF, 0xD9] := by simp only [blockOut, cut_last]; decide
  exact ⟨⟨⟨rfl, inv_blockOnly, rfl, rfl, allEHuf_defined _⟩, by simp only [blockOut, cut_only]; exact fits (by decide)⟩,
    ⟨rfl, inv_scanLast, rfl, rfl, by rw [symbols_gray]; exact fewCodes_defined⟩, h, by rw [h]; exact fits (by decide)⟩
/-- No room for the bits of the block; room for them, since none of them makes a byte, and none for the padded byte. -/
theorem witness_LastBlockEndsStream_overflow :
    (endsStream blockOnlyFull 0x80808080#32 ∧
      Config.obufBytes < blockOnlyFull.olen + (stuffed (blockCut blockOnlyFull 0x80808080#32).1).length) ∧
    endsStream scanLastFull 0x80808080#32 ∧
    scanLastFull.olen + (stuffed (blockCut scanLastFull 0x80808080#32).1).length ≤ Config.obufBytes ∧
    Config.obufBytes < scanLastFull.olen + (blockOut scanLastFull 0x80808080#32).length := by
  refine ⟨⟨⟨rfl, inv_full inv_blockOnly rfl, rfl, rfl, allEHuf_defined _⟩, ?_⟩,
    ⟨rfl, inv_full inv_scanLast rfl, rfl, rfl, by rw [symbols_lastFull]; exact fewCodes_defined⟩, ?_, ?_⟩
  · rw [cut_onlyFull]; exact Nat.lt_add_of_pos_right (by decide)
  · rw [cut_lastFull]; exact Nat.le_refl _
  · simp only [blockOut, cut_lastFull]; exact Nat.lt_add_of_pos_right (by decide)

/-- The premises of UndefinedSymbolRaises. -/
def lacksCode (s : State) (w : Word) (pre post : List CodedSym) (x : CodedSym) : Prop :=
  s.st = .scan ∧ s.Inv ∧ s.sfill = 15#4 ∧ s.blockSymbols (s.blockScan w) = pre ++ x :: post ∧
    codesDefined s.ehuf pre ∧ codeFor s.ehuf x.table x.sym = none

/-- The DC category has no code; EOB has none, after a DC code of a byte, with and without room for that byte. -/
theorem witness_UndefinedSymbolRaises :
    lacksCode noCodes 0x80808080#32 [] [⟨.ac0, 0x00, 0⟩] ⟨.dc0, 0x00, 0⟩ ∧
    (lacksCode noEob 0x80808080#32 [⟨.dc0, 0x00, 0⟩] [] ⟨.ac0, 0x00, 0⟩ ∧
      noEob.olen + (stuffed (cutBytes (noEob.pendingBits ++ codedAll noEob.ehuf [⟨.dc0, 0x00, 0⟩])).1).length ≤
        Config.obufBytes) ∧
    lacksCode noEobFull 0x80808080#32 [⟨.dc0, 0x00, 0⟩] [] ⟨.ac0, 0x00, 0⟩ ∧
      Config.obufBytes < noEobFull.olen +
        (stuffed (cutBytes (noEobFull.pendingBits ++ codedAll noEobFull.ehuf [⟨.dc0, 0x00, 0⟩])).1).length := by
  have hc : codesDefined noEob.ehuf [⟨.dc0, 0x00, 0⟩] := by unfold codesDefined; decide
  exact ⟨⟨rfl, inv_noCodes, rfl, symbols_gray, nofun, rfl⟩, ⟨⟨rfl, inv_noEob, rfl, symbols_gray, hc, rfl⟩, fits (by decide)⟩,
    ⟨rfl, inv_full inv_noEob rfl, rfl, symbols_gray, hc, rfl⟩, Nat.lt_add_of_pos_right (by decide)⟩

/-! ### The parts of the pipeline -/

theorem witness_DcIsExact : (List.replicate 64 (1#8)).length = 64 ∧ 1 ≤ (fun i => lumaBase.getD i 0) 0 := by decide
theorem witness_AcIsAdmitted : (List.replicate 64 (1#8)).length = 64 ∧ 1 ≤ 63 ∧ 63 < 64 ∧ 1 ≤ (fun i => lumaBase.getD i 0) 63 ∧
    ∃ F' : ℝ, |F' - dctCoef ((List.replicate 64 (1#8)).map levelShift) 63| ≤ dctEps :=
  ⟨by decide, by decide, by decide, by decide, dctCoef _ 63, by rw [sub_self, abs_zero]; unfold dctEps; positivity⟩
theorem witness_QuantizedRanges : (List.replicate 64 (0#8)).length = 64 ∧ 0 < 64 ∧ 63 < 64 ∧ 1 ≤ (fun _ : Nat => 1) 63 := by decide
theorem witness_ConstantBlock : 0 < 64 ∧ 63 < 64 ∧ ∀ i : Nat, 1 ≤ (fun _ : Nat => 255) i := ⟨by decide, by decide, fun _ => (by decide : 1 ≤ 255)⟩
theorem witness_ZigzagIsBijection : 0 < 64 ∧ 63 < 64 := by decide
theorem witness_RleExpandsBack : (List.replicate 62 (0 : Int) ++ [1]).length = 63 := by decide
theorem witness_RleSymbolRules :
    (∀ l ∈ [List.replicate 63 (0 : Int), 5 :: List.replicate 62 0], l.length = 63 ∧ l.getD 62 0 = 0) ∧
    (List.replicate 62 (0 : Int) ++ [1]).length = 63 ∧ (List.replicate 62 (0 : Int) ++ [1]).getD 62 0 ≠ 0 ∧
    (∀ v ∈ List.replicate 63 (0 : Int), v = 0) ∧ RleSym.rv 14 1 ∈ rle (List.replicate 62 (0 : Int) ++ [1]) := by decide +kernel
theorem witness_CategoryAndValueBits :
    ∀ v ∈ [(1 : Int), -1, 2047, -2047, 65535, -65535], v ≠ 0 ∧ category v ≤ 16 := by decide
theorem witness_DefaultTablesComplete : HTab.dc1 = .dc0 ∨ HTab.dc1 = .dc1 := .inr rfl

/-! ### The whole machine -/

theorem inv_withAccess {s : State} (h : s.Inv) (a : Access) : (withAccess s a).Inv :=
  ⟨h.tablesCanonical, h.outputCanonical, h.outputFits, h.packer, h.oneShot, h.errorCode, h.noOutput, h.betweenBlocks, h.counts,
    h.noBlocks, fun hs c => match c with
      | .y => h.predictors hs .y
      | .cb => h.predictors hs .cb
      | .cr => h.predictors hs .cr,
    fun hs => ⟨(h.scan hs).mode, (h.scan hs).quant,
      (h.scan hs).total, (h.scan hs).count, (h.scan hs).bim, (h.scan hs).codes⟩⟩

theorem witness_StepKeepsInvariant :
    ((withAccess scanLast (cmdWrite 4#32)).Inv ∧ ∃ t, stepOn scanLast (cmdWrite 4#32) = .next t) ∧
    ((withAccess rawFive (cmdWrite 0xFF0810#32)).Inv ∧ ∃ t, stepOn rawFive (cmdWrite 0xFF0810#32) = .next t) :=
  ⟨⟨inv_withAccess inv_scanLast _, _, rfl⟩, inv_withAccess inv_rawFive _, _, rfl⟩
theorem witness_InvariantNeverStops : (withAccess blockOnly (.write sampleOffset 0xF#4 0x80808080#32)).Inv :=
  inv_withAccess inv_blockOnly _
theorem witness_StepKeepsStuffing :
    let s := withAccess { rawFive with olen := 2, obuf := [(0, 0xFF#8)] } (cmdWrite 0xFF0810#32)
    s.Inv ∧ s.Stuffed ∧ (∃ t, step s = .next t) ∧ s.outByte 0 = 0xFF#8 := by
  refine ⟨inv_withAccess (inv_of_check (by decide) (fits (by decide)) (by rintro (h | h) <;> cases h)
    (by intro h; cases h)) _, fun _ => ⟨Nat.zero_le _, ?_⟩, ⟨_, rfl⟩, rfl⟩
  intro j _ hj hb
  have h2 : j < 2 := hj
  have : j = 0 := by
    rcases Nat.lt_or_ge j 1 with h | h
    · omega
    · have h1 : j = 1 := by omega
      rw [h1] at hb; exact absurd hb (by decide)
  rw [this]; decide
theorem witness_OutputOnlyGrows : (withAccess doneTwo (cmdWrite 0#32)).Inv ∧
    ∃ t, stepOn doneTwo (cmdWrite 0#32) = .next t ∧ t.st = .done :=
  ⟨inv_withAccess inv_doneTwo _, _, rfl, rfl⟩
theorem witness_FramerTransitions :
    (∃ t, stepOn { idle8 with cfgTest := true } (cmdWrite 1#32) = .next t ∧ t.st = .raw) ∧
    (∃ t, stepOn rawFive (cmdWrite 0x11#32) = .next t ∧ t.st = .done) ∧
    (∃ t, stepOn idle8 (cmdWrite 0x11#32) = .next t ∧ t.st = .error) ∧
    ∃ t, stepOn doneTwo (cmdWrite 4#32) = .next t ∧ t.st = .idle :=
  ⟨⟨_, rfl, rfl⟩, ⟨_, rfl, rfl⟩, ⟨_, rfl, rfl⟩, _, rfl, rfl⟩
theorem witness_TablesFixedDuringEncode : (withAccess scanLast (.write 0x01C#14 0xF#4 64#32)).Inv ∧ scanLast.st = .scan ∧
    rawFive.st = .raw ∧ ∃ t, stepOn scanLast (.write 0x01C#14 0xF#4 64#32) = .next t ∧ t.st ≠ .idle :=
  ⟨inv_withAccess inv_scanLast _, rfl, rfl, _, rfl, nofun⟩
theorem witness_EncodesAreIndependent : idle8.Inv ∧ scanLast.Inv ∧ sameConfig idle8 scanLast :=
  ⟨inv_idle8, inv_scanLast, rfl, rfl, rfl, rfl, rfl, rfl⟩
/-- scanLast with another history: another last word in IBUF, other codes in a table gray does not use, another read,
other draws. -/
def scanOther : State :=
  { scanLast with ibuf := scanLast.ibuf.set 63 7#8, ehuf := { fewCodes with dc1 := [] }, rdata := 5#32, intStatus := 3#2, drawn := 7 }
/-- Two machines in the same encode, in SCAN and in RAW. -/
theorem witness_EncodesAreIndependent_step :
    (scanLast.Inv ∧ scanOther.Inv ∧ scanLast.Agrees scanOther ∧ scanLast.st ≠ .error ∧ scanOther ≠ scanLast) ∧
    rawFive.Inv ∧ rawFive.Agrees { rawFive with flags := 2#2 } := by
  refine ⟨⟨inv_scanLast, inv_of_check (by decide) (fits (by decide)) nofun fun _ => by decide +kernel, ⟨⟨rfl, rfl, rfl, rfl, rfl, rfl⟩,
    rfl, rfl, rfl, rfl, fun _ _ => rfl, rfl, rfl, rfl, rfl, ⟨rfl, rfl, rfl⟩, rfl, ?_, ⟨rfl, rfl, rfl⟩, ?_⟩, nofun, ?_⟩, inv_rawFive, ⟨⟨rfl, rfl, rfl, rfl, rfl, rfl⟩, rfl, rfl, rfl, rfl, fun _ _ => rfl, rfl, rfl, rfl, rfl,
    ⟨rfl, rfl, rfl⟩, rfl, fun _ _ => rfl, ⟨rfl, rfl, rfl⟩, nofun⟩⟩
  · decide +kernel
  · intro _; decide
  · intro h; exact absurd (congrArg State.rdata h) (by decide)

/-- The memories of the reset state are canonical. -/
theorem test_reset_memories : Memory.wf .tables State.reset.tables = true ∧ Memory.wf .output State.reset.obuf = true := by decide

end Sys2Proof.Tests
end

/-! PROOFS of the family 00_scope.md: what one step does for each oldest event, and that in a state with `State.Inv` no access
stops the machine. -/

namespace Sys2Proof.Machine

variable {s : State} {rest : List BusEvent} {a : Access}

/-! ## The step by its oldest event (00_scope.md R9) -/

theorem step_of_pending_nil (hp : s.pending = []) : step s = .next s := by
  simp only [step, nextEvent, hp]

theorem step_of_pending_reset (hp : s.pending = .reset :: rest) :
    step s = .next ({ s with pending := rest } : State).resetCore := by
  simp only [step, nextEvent, hp]

theorem step_of_decode_ok {i : Instr} (hp : s.pending = .access a :: rest) (hd : decode a = .ok i) :
    step s = exec i { s with pending := rest } := by
  simp only [step, nextEvent, hp, hd]

theorem step_of_decode_error {x : DecodeError} (hp : s.pending = .access a :: rest) (hd : decode a = .error x) :
    step s = .next (illegalCommand x.word { s with pending := rest }) := by
  simp only [step, nextEvent, hp, hd]

/-! ## What the invariant gives an access (00_scope.md R10) -/

/-- The invariant does not look at the host's coming accesses. -/
theorem State.Inv.withPending (h : s.Inv) (events : List BusEvent) : ({ s with pending := events } : State).Inv where
  tablesCanonical := h.tablesCanonical
  outputCanonical := h.outputCanonical
  outputFits := h.outputFits
  packer := h.packer
  oneShot := h.oneShot
  errorCode := h.errorCode
  noOutput := h.noOutput
  betweenBlocks := h.betweenBlocks
  counts := h.counts
  noBlocks := h.noBlocks
  predictors hs c := by cases c with
    | y => exact h.predictors hs .y
    | cb => exact h.predictors hs .cb
    | cr => exact h.predictors hs .cr
  scan hs := ⟨(h.scan hs).mode, (h.scan hs).quant, (h.scan hs).total, (h.scan hs).count, (h.scan hs).bim, (h.scan hs).codes⟩

/-- While data is coded the packer is ready: less than a byte pending, and no flush yet (44_bitwriter.md R175). -/
theorem State.Inv.packerReady (h : s.Inv) (hs : s.st = .scan ∨ s.st = .raw) : s.accOk ∧ s.flushed = false := by
  have hne : s.st ≠ .error := by rcases hs with hs | hs <;> simp [hs]
  exact ⟨h.packer hne, h.oneShot hs⟩

theorem Ends.exists_next {done : State → Prop} {o : Host.Outcome State Fault Refusal} (h : Ends s done o) : ∃ t, o = .next t := by
  obtain ⟨t, ht, -⟩ := h
  exact ⟨t, ht⟩

/-- With the invariant every well-formed instruction answers a next state: the packer is ready where it is driven, no divisor
is zero where a block is coded, and no register write names CMD or SAMPLE. -/
theorem State.Inv.exec_next (h : s.Inv) {i : Instr} (hw : i.wf = true) : ∃ t, exec i s = .next t := by
  cases i with
  | nop => exact (execNop_ends s).exists_next
  | start => exact (execStart_ends s).exists_next
  | qgen => exact (execQgen_ends s).exists_next
  | hdefault => exact (execHdefault_ends s).exists_next
  | abort => exact (execAbort_ends s).exists_next
  | softReset => exact (execSoftReset_ends s).exists_next
  | rawbits len value => exact (execRawbits_ends len value fun hs => h.packerReady (.inr hs)).exists_next
  | rawflush => exact (execRawflush_ends fun hs => h.packerReady (.inr hs)).exists_next
  | sampleWrite w =>
    exact (execSampleWrite_ends w (fun hs => h.packerReady (.inl hs)) fun hs => (h.scan hs).block.1).exists_next
  | regRead off lanes => rcases execRegRead_cases off lanes s with hr | hr <;> exact ⟨_, hr⟩
  | regWrite off lanes v => rcases execRegWrite_cases hw s with hr | ⟨hr, -⟩ <;> exact ⟨_, hr⟩

/-! ## The obligations -/

/-- Settles O5: the step's equation for an access that decodes. -/
theorem stepRunsDecodedAccess : Obligations.StepRunsDecodedAccess := by
  intro s a rest i hp hd
  exact step_of_decode_ok hp hd

/-- Settles O55, by the kinds of the oldest event: an access that decodes is a well-formed instruction, executed with the
invariant. -/
theorem invariantNeverStops : Obligations.InvariantNeverStops := by
  intro s h
  cases hp : s.pending with
  | nil => exact ⟨_, step_of_pending_nil hp⟩
  | cons e rest =>
    cases e with
    | reset => exact ⟨_, step_of_pending_reset hp⟩
    | access a =>
      cases hd : decode a with
      | error x => exact ⟨_, step_of_decode_error hp hd⟩
      | ok i =>
        rw [step_of_decode_ok hp hd]
        exact (h.withPending rest).exec_next (decode_wf hd)

end Sys2Proof.Machine

/-! PROOFS of the family 10_state.md, the reads: which register a word read reaches, and how the packed words STATUS, CFG,
BITSTATE and OUT_DATA are made of their fields. -/

namespace Sys2Proof.Machine

variable {s : State}

/-! ## Packed words as numbers -/

/-- A word of two parts as a number: the low part counts units, the high part counts from its place. -/
theorem toNat_append_eq_add {m n : Nat} (x : BitVec m) (y : BitVec n) : (x ++ y).toNat = 2 ^ n * x.toNat + y.toNat := by
  rw [BitVec.toNat_append, ← Nat.shiftLeft_add_eq_or_of_lt y.isLt, Nat.shiftLeft_eq, Nat.mul_comm]

/-- A field of a word, read off the word's number. -/
theorem extractLsb'_eq_of_toNat {n start len : Nat} {w : BitVec n} {x : BitVec len}
    (h : w.toNat / 2 ^ start % 2 ^ len = x.toNat) : w.extractLsb' start len = x := by
  apply BitVec.eq_of_toNat_eq
  rw [BitVec.extractLsb'_toNat, Nat.shiftRight_eq_div_pow, h]

/-- A bit of a word, read off the word's number. -/
theorem getLsbD_eq_of_toNat {n i : Nat} {w : BitVec n} {b : Bool} (h : w.toNat / 2 ^ i % 2 = b.toNat) : w.getLsbD i = b := by
  rw [BitVec.getLsbD, Nat.testBit_eq_decide_div_mod_eq, h]
  cases b <;> rfl

/-- R26: where the fields of STATUS stand. -/
theorem State.status_toNat (s : State) : s.status.toNat =
    s.st.code.toNat + 16 * s.sfill.toNat + 256 * s.irq.toNat + 512 * s.bim.toNat + 4096 * s.nextComp.code.toNat := by
  simp only [State.status, toNat_append_eq_add, BitVec.toNat_ofNat, BitVec.toNat_ofBool]
  omega

/-- R45: where the fields of BITSTATE stand. -/
theorem State.bitstate_toNat (s : State) : s.bitstate.toNat = s.acc.toNat + 256 * s.nbits.toNat + 4096 * s.flushed.toNat := by
  simp only [State.bitstate, toNat_append_eq_add, BitVec.toNat_ofNat, BitVec.toNat_ofBool]
  omega

/-- R29: where the fields of CFG stand. -/
theorem State.cfg_toNat (s : State) : s.cfg.toNat = s.cfgMode.toNat + 256 * s.cfgTest.toNat := by
  simp only [State.cfg, toNat_append_eq_add, BitVec.toNat_ofNat, BitVec.toNat_ofBool]
  omega

/-- R69: where the bytes of a word stand. -/
theorem wordOfBytes_toNat (b0 b1 b2 b3 : Byte) : (wordOfBytes b0 b1 b2 b3).toNat =
    b0.toNat + 2 ^ 8 * b1.toNat + 2 ^ 16 * b2.toNat + 2 ^ 24 * b3.toNat := by
  simp only [wordOfBytes, toNat_append_eq_add]
  omega

theorem State.cfg_eq_ofNat (s : State) : s.cfg = BitVec.ofNat 32 (s.cfgMode.toNat + 256 * s.cfgTest.toNat) := by
  rw [← s.cfg_toNat, BitVec.ofNat_toNat, BitVec.setWidth_eq]

/-- Four bytes put into a word are found at their places (R69). -/
theorem byteOf_wordOfBytes (f : Nat → Byte) {k : Nat} (hk : k < 4) : byteOf (wordOfBytes (f 0) (f 1) (f 2) (f 3)) k = f k := by
  apply extractLsb'_eq_of_toNat
  rw [wordOfBytes_toNat]
  have h0 := (f 0).isLt
  have h1 := (f 1).isLt
  have h2 := (f 2).isLt
  have h3 := (f 3).isLt
  interval_cases k <;> omega

/-! ## Which register stands at an offset (10_state.md R22) -/

theorem HTab.index_lt (h : HTab) : h.index < 4 := by cases h <;> decide

theorem HTab.ofIndex_index (h : HTab) : HTab.ofIndex h.index = h := by cases h <;> rfl

theorem HTab.exists_index_eq {n : Nat} (hn : n < 4) : ∃ h : HTab, h.index = n :=
  ⟨HTab.ofIndex n, by revert n; decide⟩

theorem namedReg_ne_reserved {n : Nat} (hn : n < 24) : namedReg n ≠ .reserved := by
  revert n; decide

/-- The registers below 0x060, by word index. -/
theorem regAt_named {n : Nat} (hn : n < 24) : regAt (BitVec.ofNat 14 (4 * n)) = namedReg n := by
  revert n; decide

/-- LASTBLK (R48). -/
theorem regAt_lastblk {k : Nat} (hk : k < 64) : regAt (BitVec.ofNat 14 (0x100 + 4 * k)) = .lastblk k := by
  revert k; decide

/-- QT0 and QT1 (R40). -/
theorem regAt_qtAddr (t : QTab) {i : Nat} (hi : i < 64) : regAt (BitVec.ofNat 14 (qtAddr t i)) = .qt t i := by
  cases t <;> (revert i; decide)

/-- The tables HT0..HT3 fill 0x1000..0x2FFF, 0x800 each (R41). -/
theorem regAt_htBase_add (h : HTab) {r : Nat} (hr : r < 0x800) : regAt (BitVec.ofNat 14 (htBase h + r)) = htReg h r := by
  have hlt := h.index_lt
  have ha : (BitVec.ofNat 14 (htBase h + r)).toNat = 0x1000 + 0x800 * h.index + r := by
    rw [BitVec.toNat_ofNat, htBase]; omega
  have hdiv : (0x1000 + 0x800 * h.index + r - 0x1000) / 0x800 = h.index := by omega
  have hmod : (0x1000 + 0x800 * h.index + r - 0x1000) % 0x800 = r := by omega
  simp only [regAt, ha, hdiv, hmod, HTab.ofIndex_index]
  rw [if_neg (by omega), if_neg (by omega), if_neg (by omega), if_neg (by omega), if_neg (by omega), if_neg (by omega),
    if_pos (by omega)]

/-- BITS (R41). -/
theorem regAt_bitsAddr (h : HTab) {len : Nat} (h1 : 1 ≤ len) (h16 : len ≤ 16) :
    regAt (BitVec.ofNat 14 (bitsAddr h len)) = .htBits h len := by
  rw [bitsAddr, regAt_htBase_add h (by omega), htReg, if_pos (by omega), Nat.mul_div_cancel_left _ (by decide),
    Nat.sub_add_cancel h1]

/-- HUFFVAL (R42). -/
theorem regAt_valAddr (h : HTab) {k : Nat} (hk : k < 256) : regAt (BitVec.ofNat 14 (valAddr h k)) = .htVal h k := by
  rw [valAddr, Nat.add_assoc, regAt_htBase_add h (by omega), htReg, if_neg (by omega), if_neg (by omega),
    Nat.add_sub_cancel_left, Nat.mul_div_cancel_left _ (by decide)]

/-! ## What a word read returns (46_commands.md R231) -/

theorem isWordAccess_ofNat {a : Nat} (ha : a % 4 = 0) : isWordAccess (BitVec.ofNat 14 a) 0xF#4 = true := by
  have h : (BitVec.ofNat 14 a).extractLsb' 0 2 = 0#2 :=
    extractLsb'_eq_of_toNat (by rw [BitVec.toNat_ofNat, BitVec.toNat_ofNat]; omega)
  simp [isWordAccess, h]

/-- A word read where a register stands returns the register's value and changes nothing else. -/
theorem readsAs_regValue {a : Nat} {r : Reg} (ha : a % 4 = 0) (hr : regAt (BitVec.ofNat 14 a) = r) (hne : r ≠ .reserved) :
    readsAs s a (regValue s r) := by
  show execRegRead (BitVec.ofNat 14 a) 0xF#4 s = _
  simp [execRegRead, isWordAccess_ofNat ha, hr, hne]

theorem readsAs_named (n : Nat) (hn : n < 24 := by decide) : readsAs s (4 * n) (regValue s (namedReg n)) :=
  readsAs_regValue (Nat.mul_mod_right 4 n) (regAt_named hn) (namedReg_ne_reserved hn)

theorem readsAs_lastblk (k : Fin 64) : readsAs s (0x100 + 4 * k.val) (sext32 s.lastblk[k]) := by
  have hv : regValue s (.lastblk k.val) = sext32 s.lastblk[k] := by simp [regValue, List.getD_eq_getElem?_getD]
  rw [← hv]
  exact readsAs_regValue (by omega) (regAt_lastblk k.isLt) nofun

theorem readsAs_qt (t : QTab) {i : Nat} (hi : i < 64) : readsAs s (qtAddr t i) (zext32 (s.qt t i)) :=
  readsAs_regValue (by rw [qtAddr]; omega) (regAt_qtAddr t hi) nofun

theorem readsAs_htBits (h : HTab) {len : Nat} (h1 : 1 ≤ len) (h16 : len ≤ 16) :
    readsAs s (bitsAddr h len) (zext32 (s.htBits h len)) :=
  readsAs_regValue (by rw [bitsAddr, htBase]; omega) (regAt_bitsAddr h h1 h16) nofun

theorem readsAs_htVal (h : HTab) {k : Nat} (hk : k < 256) : readsAs s (valAddr h k) (zext32 (s.htVal h k)) :=
  readsAs_regValue (by rw [valAddr, htBase]; omega) (regAt_valAddr h hk) nofun

theorem readsAs_cfg (s : State) : readsAs s 0x018 (BitVec.ofNat 32 (s.cfgMode.toNat + 256 * s.cfgTest.toNat)) := by
  rw [← s.cfg_eq_ofNat]
  exact readsAs_named 6

theorem readsAs_status (s : State) : readsAs s 0x00C s.status := readsAs_named 3

theorem readsAs_outLen (s : State) : readsAs s 0x040 s.outLen := readsAs_named 16

theorem readsAs_outData (s : State) : readsAs s 0x048 s.outData := readsAs_named 18

theorem readsAs_bitstate (s : State) : readsAs s 0x04C s.bitstate := readsAs_named 19

/-- Settles O14: the registers below 0x060 by their word index, LASTBLK and the tables by the addresses of their entries. -/
theorem registersRead : Obligations.RegistersRead := by
  intro s
  refine ⟨readsAs_named 0, readsAs_named 1, readsAs_named 4, readsAs_named 5, readsAs_cfg s, readsAs_named 7,
    readsAs_named 8, readsAs_named 9, readsAs_named 10, readsAs_named 11, readsAs_named 12, readsAs_named 14,
    readsAs_named 15, readsAs_named 17, readsAs_named 20, readsAs_named 21, readsAs_named 22, readsAs_named 23,
    readsAs_lastblk, fun i hi => ⟨readsAs_qt .qt0 hi, readsAs_qt .qt1 hi⟩, ?_⟩
  intro n hn
  obtain ⟨h, rfl⟩ := HTab.exists_index_eq hn
  exact ⟨fun len h1 h16 => readsAs_htBits h h1 h16, fun k hk => readsAs_htVal h hk⟩

/-! ## STATUS (10_state.md R26, R46; 60_exceptions.md R272) -/

theorem FramerState.code_le (st : FramerState) : st.code.toNat ≤ 4 := by cases st <;> decide

theorem Component.code_le (c : Component) : c.code.toNat ≤ 2 := by cases c <;> decide

/-- R272, bit by bit. -/
theorem State.irq_eq (s : State) : s.irq =
    ((s.intStatus.getLsbD 0 && s.intEnable.getLsbD 0) || (s.intStatus.getLsbD 1 && s.intEnable.getLsbD 1)) := by
  rw [State.irq]
  generalize s.intStatus = pend
  generalize s.intEnable = enable
  revert pend enable
  decide

/-- R46: the one component of every mode but color. -/
theorem compOf_of_ne_color {mode : BitVec 2} (h : mode ≠ 1#2) (bim : BitVec 3) : compOf mode bim = .y := if_pos h

/-- R46: four blocks of Y, then Cb, then Cr. -/
theorem compOf_color_code {bim : BitVec 3} (h : bim.toNat ≤ 5) :
    (compOf 1#2 bim).code.toNat = if bim.toNat ≤ 3 then 0 else bim.toNat - 3 := by
  revert bim; decide

theorem State.nextComp_of_ne_error (h : s.st ≠ .error) : s.nextComp = compOf s.cfgMode s.bim := if_neg h

/-- Settles O15: each field is read off the number of STATUS. -/
theorem statusFields : Obligations.StatusFields := by
  intro s
  have hnum := s.status_toNat
  have hst := s.st.code_le
  have hsfill := s.sfill.isLt
  have hirq := s.irq.toNat_le
  have hbim := s.bim.isLt
  have hcode := s.nextComp.code_le
  have hcomp : s.status.toNat / 4096 % 4 = s.nextComp.code.toNat := by omega
  refine ⟨s.status, readsAs_status s, extractLsb'_eq_of_toNat (by omega), hst, getLsbD_eq_of_toNat ?_,
    extractLsb'_eq_of_toNat (by omega), ?_, extractLsb'_eq_of_toNat (by omega), hcomp ▸ hcode, by omega, ?_⟩
  · rw [Bool.toNat_false]; omega
  · rw [← s.irq_eq]
    exact getLsbD_eq_of_toNat (by omega)
  · intro hne
    rw [hcomp, State.nextComp_of_ne_error hne]
    refine ⟨fun hmode => ?_, fun hmode hle => ?_⟩
    · rw [compOf_of_ne_color hmode]; rfl
    · rw [hmode, compOf_color_code hle]

/-! ## OUT_LEN and OUT_DATA (10_state.md R39, R44) -/

theorem State.outLen_of_done (h : s.st = .done) : s.outLen = BitVec.ofNat 32 s.olen := if_pos h

theorem State.outLen_of_ne_done (h : s.st ≠ .done) : s.outLen = 0#32 := if_neg h

theorem State.outData_of_ne_done (h : s.st ≠ .done) : s.outData = 0#32 := if_neg h

/-- R44: byte k of OUT_DATA is byte 4·OUT_INDEX + k of the stream. -/
theorem State.outData_byte_of_done (h : s.st = .done) {k : Nat} (hk : k < 4) :
    byteOf s.outData k = s.streamByte (4 * s.outIndex.toNat + k) := by
  rw [State.outData, if_pos h]
  exact byteOf_wordOfBytes (fun k => s.streamByte (4 * s.outIndex.toNat + k)) hk

/-- Settles O16, by whether STATE is DONE. -/
theorem outputReadsOnlyInDone : Obligations.OutputReadsOnlyInDone := by
  intro s
  refine ⟨s.outData, readsAs_outData s, fun h => ⟨?_, fun k hk => State.outData_byte_of_done h hk⟩, fun h => ⟨?_, ?_⟩⟩
  · exact State.outLen_of_done h ▸ readsAs_outLen s
  · exact State.outData_of_ne_done h
  · exact State.outLen_of_ne_done h ▸ readsAs_outLen s

/-! ## BITSTATE (10_state.md R45) -/

/-- Settles O17: each field is read off the number of BITSTATE; the bounds are the packer's part of the invariant. -/
theorem bitstateFields : Obligations.BitstateFields := by
  intro s
  have hnum := s.bitstate_toNat
  have hacc := s.acc.isLt
  have hnbits := s.nbits.isLt
  have hflushed := s.flushed.toNat_le
  exact ⟨s.bitstate, readsAs_bitstate s, extractLsb'_eq_of_toNat (by omega), extractLsb'_eq_of_toNat (by omega),
    getLsbD_eq_of_toNat (by omega), by omega, fun h => h.packer⟩

end Sys2Proof.Machine

/-! PROOFS of the family 20_memory.md, the invariant: what every state outside ERROR keeps (`State.Ready`), what a block makes
of the part that SCAN adds, and that each way an access can end keeps `State.Inv`. -/

namespace Sys2Proof.Machine

variable {s t : State}

/-! ## Register writes by the kind of the register (46_commands.md R232) -/

/-- A write that is allowed in every state changes the interrupt registers, FLAGS or OUT_INDEX only. -/
theorem storeReg_unlocked {r : Reg} (hk : r.kind = .rw ∨ r.kind = .w1c) (s : State) (v : Word) :
    storeReg s r v = { s with
      intStatus := (storeReg s r v).intStatus, intEnable := (storeReg s r v).intEnable
      flags := (storeReg s r v).flags, outIndex := (storeReg s r v).outIndex } := by
  cases r with
  | intStatus | intEnable | flags | outIndex => rfl
  | _ => simp [Reg.kind] at hk

/-- A write to a config-locked register changes the configuration only, and leaves the table RAMs canonical. -/
theorem storeReg_config {r : Reg} (hk : r.kind = .cl) (s : State) (v : Word) :
    storeReg s r v = { s with
      cfgMode := (storeReg s r v).cfgMode, cfgTest := (storeReg s r v).cfgTest, width := (storeReg s r v).width
      height := (storeReg s r v).height, quality := (storeReg s r v).quality, tables := (storeReg s r v).tables } ∧
    (Memory.wf .tables s.tables = true → Memory.wf .tables (storeReg s r v).tables = true) := by
  cases r with
  | cfg | width | height | quality => exact ⟨rfl, id⟩
  | qt | htBits | htVal => exact ⟨rfl, Memory.wf_writeAll⟩
  | _ => cases hk

/-! ## Outside ERROR (10_state.md R47, R52, R53) -/

/-- What the invariant says of every state outside ERROR, whichever it is: the memories, the packer, the predictors. -/
structure State.Ready (s : State) : Prop where
  tablesCanonical : Memory.wf .tables s.tables = true
  outputCanonical : Memory.wf .output s.obuf = true
  outputFits : s.olen ≤ Config.obufBytes
  packer : s.accOk
  noError : s.errCode = .none
  predictors : ∀ c, -1024 ≤ (s.pred c).toInt ∧ (s.pred c).toInt ≤ 1016

theorem State.Inv.ready (h : s.Inv) (hs : s.st ≠ .error) : s.Ready :=
  ⟨h.tablesCanonical, h.outputCanonical, h.outputFits, h.packer hs, not_not.1 fun he => hs (h.errorCode.2 he),
    h.predictors hs⟩

theorem State.predictors_congr (h : ∀ c, -1024 ≤ (s.pred c).toInt ∧ (s.pred c).toInt ≤ 1016) (hy : t.predY = s.predY)
    (hcb : t.predCb = s.predCb) (hcr : t.predCr = s.predCr) (c : Component) :
    -1024 ≤ (t.pred c).toInt ∧ (t.pred c).toInt ≤ 1016 := by
  cases c with
  | y => exact (show t.pred .y = s.pred .y from hy) ▸ h .y
  | cb => exact (show t.pred .cb = s.pred .cb from hcb) ▸ h .cb
  | cr => exact (show t.pred .cr = s.pred .cr from hcr) ▸ h .cr

theorem State.clearDatapath_predictors (s : State) (c : Component) :
    -1024 ≤ (s.clearDatapath.pred c).toInt ∧ (s.clearDatapath.pred c).toInt ≤ 1016 := by
  cases c <;> simp [State.pred]

theorem State.clearDatapath_accOk (s : State) : s.clearDatapath.accOk := ⟨Nat.zero_le _, Nat.one_pos⟩

/-- New output and new pending bits, with the tables, the predictors and ERR_CODE as they were. -/
theorem State.Ready.withOutput (h : s.Ready)
    (frame : t = { t with
      tables := s.tables, errCode := s.errCode, predY := s.predY, predCb := s.predCb, predCr := s.predCr })
    (hw : Memory.wf .output t.obuf = true) (hfits : t.olen ≤ Config.obufBytes) (hacc : t.accOk) : t.Ready where
  tablesCanonical := by rw [frame]; exact h.tablesCanonical
  outputCanonical := hw
  outputFits := hfits
  packer := hacc
  noError := by rw [frame]; exact h.noError
  predictors := State.predictors_congr h.predictors (by rw [frame]) (by rw [frame]) (by rw [frame])

/-- A change of fields that `State.Ready` does not speak of. -/
theorem State.Ready.congr (h : s.Ready)
    (frame : t = { t with
      tables := s.tables, errCode := s.errCode, predY := s.predY, predCb := s.predCb, predCr := s.predCr
      obuf := s.obuf, olen := s.olen, acc := s.acc, nbits := s.nbits }) : t.Ready :=
  h.withOutput (by rw [frame]) (by rw [frame]; exact h.outputCanonical) (by rw [frame]; exact h.outputFits)
    (by rw [frame]; exact h.packer)

theorem State.Ready.setPred (h : s.Ready) (c : Component) {v : BitVec 16} (hlo : -1024 ≤ v.toInt) (hhi : v.toInt ≤ 1016) :
    (s.setPred c v).Ready where
  tablesCanonical := by simpa using h.tablesCanonical
  outputCanonical := by simpa using h.outputCanonical
  outputFits := by simpa using h.outputFits
  packer := State.setPred_accOk.2 h.packer
  noError := by simpa using h.noError
  predictors d := by
    by_cases hd : d = c
    · rw [hd, State.setPred_pred_same]
      exact ⟨hlo, hhi⟩
    · rw [State.setPred_pred_other s c d v hd]
      exact h.predictors d

/-- Packing bits (44_bitwriter.md R172, R173). -/
theorem State.Ready.packsTo (h : s.Ready) {bits : List Bool} (hp : s.PacksTo t bits) : t.Ready :=
  h.withOutput (by rw [hp.frame]) (hp.canonical h.outputCanonical) (hp.fits h.outputFits) hp.acc

/-- The flush (R174). -/
theorem State.Ready.of_flush (h : s.Ready) (hf : s.flushed = false) (ht : flush s = .ok t) : t.Ready := by
  rcases flush_cases h.packer hf with ⟨u, hu, frame, -, hfits, hout⟩ | ⟨hu, -⟩
  · obtain rfl : u = t := Except.ok.inj (hu.symm.trans ht)
    refine h.withOutput (by rw [frame]) (hout h.outputCanonical).2 (hfits h.outputFits) ?_
    rw [frame]
    exact ⟨Nat.zero_le _, Nat.one_pos⟩
  · exact nomatch hu.symm.trans ht

/-- The end of the stream (45_framer.md R191). -/
theorem State.Ready.of_terminate (h : s.Ready) (hf : s.flushed = false) (ht : terminate s = .ok t) : t.Ready := by
  rcases terminate_cases h.packer hf with ⟨u, hu, frame, -, hfits, hout⟩ | ⟨hu, -⟩
  · obtain rfl : u = t := Except.ok.inj (hu.symm.trans ht)
    refine h.withOutput (by rw [frame]) (hout h.outputCanonical).2 (hfits h.outputFits) ?_
    rw [frame]
    exact ⟨Nat.zero_le _, Nat.one_pos⟩
  · exact nomatch hu.symm.trans ht

/-! ## The invariant from its parts, state by state (45_framer.md R185) -/

/-- IDLE and RAW: no blocks, and in IDLE no output. -/
theorem State.Ready.inv_of_noBlocks (h : t.Ready) (hst : t.st = .idle ∨ t.st = .raw) (hf : t.flushed = false)
    (hout : t.st = .idle → t.olen = 0) (hsfill : t.sfill = 0#4) (hbim : t.bim = 0#3) (hcount : t.blkCount = 0#32)
    (htotal : t.blkTotal = 0#32) : t.Inv where
  tablesCanonical := h.tablesCanonical
  outputCanonical := h.outputCanonical
  outputFits := h.outputFits
  packer _ := h.packer
  oneShot _ := hf
  errorCode := by rcases hst with hst | hst <;> simp [hst, h.noError]
  noOutput := by
    rintro (hs | hs)
    · exact hout hs
    · simp [hs] at hst
  betweenBlocks _ := ⟨hsfill, hbim⟩
  counts _ := hcount.trans htotal.symm
  noBlocks _ := htotal
  predictors _ := h.predictors
  scan hs := by simp [hs] at hst

theorem State.Ready.inv_of_scan (h : t.Ready) (hst : t.st = .scan) (hf : t.flushed = false) (hscan : t.ScanInv) : t.Inv where
  tablesCanonical := h.tablesCanonical
  outputCanonical := h.outputCanonical
  outputFits := h.outputFits
  packer _ := h.packer
  oneShot _ := hf
  errorCode := by simp [hst, h.noError]
  noOutput := by simp [hst]
  betweenBlocks := by simp [hst]
  counts := by simp [hst]
  noBlocks := by simp [hst]
  predictors _ := h.predictors
  scan _ := hscan

theorem State.Ready.inv_of_done (h : t.Ready) (hst : t.st = .done) (hsfill : t.sfill = 0#4) (hbim : t.bim = 0#3)
    (hcount : t.blkCount = t.blkTotal) : t.Inv where
  tablesCanonical := h.tablesCanonical
  outputCanonical := h.outputCanonical
  outputFits := h.outputFits
  packer _ := h.packer
  oneShot := by simp [hst]
  errorCode := by simp [hst, h.noError]
  noOutput := by simp [hst]
  betweenBlocks _ := ⟨hsfill, hbim⟩
  counts _ := hcount
  noBlocks := by simp [hst]
  predictors _ := h.predictors
  scan := by simp [hst]

/-- Error entry leaves the memories, discards the output and sets ERR_CODE (60_exceptions.md R265). -/
theorem State.Inv.of_errorEntry (h : s.Inv) {e : ErrorCode} (he : e ≠ .none) (info : Word) : (errorEntry e info s).Inv where
  tablesCanonical := h.tablesCanonical
  outputCanonical := h.outputCanonical
  outputFits := Nat.zero_le _
  packer hne := absurd rfl hne
  oneShot := by simp
  errorCode := by simpa using he
  noOutput _ := rfl
  betweenBlocks := by simp
  counts := by simp
  noBlocks := by simp
  predictors hne := absurd rfl hne
  scan := by simp

/-! ## Changes the invariant does not see -/

/-- The interrupt registers, FLAGS, OUT_INDEX and the read data. -/
theorem State.Inv.withHostRegs (h : s.Inv) (intStatus intEnable flags : BitVec 2) (outIndex : BitVec 30) (rdata : Word) :
    ({ s with intStatus := intStatus, intEnable := intEnable, flags := flags, outIndex := outIndex, rdata := rdata } :
      State).Inv where
  tablesCanonical := h.tablesCanonical
  outputCanonical := h.outputCanonical
  outputFits := h.outputFits
  packer := h.packer
  oneShot := h.oneShot
  errorCode := h.errorCode
  noOutput := h.noOutput
  betweenBlocks := h.betweenBlocks
  counts := h.counts
  noBlocks := h.noBlocks
  predictors hs := State.predictors_congr (h.predictors hs) rfl rfl rfl
  scan hs := ⟨(h.scan hs).mode, (h.scan hs).quant, (h.scan hs).total, (h.scan hs).count, (h.scan hs).bim, (h.scan hs).codes⟩

/-- The configuration, outside SCAN (20_memory.md R66), and FLAGS. -/
theorem State.Inv.withConfig (h : s.Inv) (hs : s.st ≠ .scan) (mode : BitVec 2) (test : Bool) (width height : BitVec 16)
    (quality : Byte) {tables : Memory} (hw : Memory.wf .tables tables = true) (flags : BitVec 2) :
    ({ s with
      cfgMode := mode, cfgTest := test, width := width, height := height, quality := quality, tables := tables
      flags := flags } : State).Inv where
  tablesCanonical := hw
  outputCanonical := h.outputCanonical
  outputFits := h.outputFits
  packer := h.packer
  oneShot := h.oneShot
  errorCode := h.errorCode
  noOutput := h.noOutput
  betweenBlocks := h.betweenBlocks
  counts := h.counts
  noBlocks := h.noBlocks
  predictors hs := State.predictors_congr (h.predictors hs) rfl rfl rfl
  scan hscan := absurd hscan hs

theorem State.Inv.ignoreAccess (h : s.Inv) : s.ignoreAccess.Inv := h.withHostRegs _ _ _ _ _

theorem State.Inv.of_storeReg (h : s.Inv) {r : Reg} (v : Word)
    (hk : r.kind = .rw ∨ r.kind = .w1c ∨ r.kind = .cl ∧ s.locked = false) : (storeReg s r v).Inv := by
  rcases or_assoc.2 hk with hk | ⟨hk, hl⟩
  · rw [storeReg_unlocked hk]
    exact h.withHostRegs _ _ _ _ _
  · have hs : s.st ≠ .scan := fun hs => by simp [State.locked, hs] at hl
    obtain ⟨frame, hw⟩ := storeReg_config hk s v
    rw [frame]
    exact h.withConfig hs _ _ _ _ _ (hw h.tablesCanonical) _

theorem State.Inv.storeTables (h : s.Inv) (hs : s.st ≠ .scan) (ws : List (Nat × Byte)) : (s.storeTables ws).Inv :=
  h.withConfig hs _ _ _ _ _ (Memory.wf_writeAll h.tablesCanonical) _

theorem State.Inv.generateTables (h : s.Inv) (hs : s.st ≠ .scan) : s.generateTables.Inv := by
  simp only [State.generateTables]
  split
  · exact (h.storeTables hs _).withHostRegs _ _ _ _ _
  · exact h.storeTables hs _

/-! ## Reset, ABORT and START (45_framer.md R187, R194, 46_commands.md R225) -/

/-- With the datapath cleared and BLK_TOTAL 0, in IDLE or RAW: what reset, ABORT and START in test mode leave. -/
theorem State.Inv.of_cleared (hst : t.st = .idle ∨ t.st = .raw) (hclear : t.clearDatapath = t) (htotal : t.blkTotal = 0#32)
    (herr : t.errCode = .none) (htables : Memory.wf .tables t.tables = true) (hout : Memory.wf .output t.obuf = true) :
    t.Inv := by
  have hlen : t.olen = 0 := by rw [← hclear]; rfl
  have hready : t.Ready := ⟨htables, hout, hlen ▸ Nat.zero_le _, hclear ▸ t.clearDatapath_accOk, herr,
    hclear ▸ t.clearDatapath_predictors⟩
  exact hready.inv_of_noBlocks hst (by rw [← hclear]; rfl) (fun _ => hlen) (by rw [← hclear]; rfl) (by rw [← hclear]; rfl)
    (by rw [← hclear]; rfl) htotal

theorem State.resetCore_inv (s : State) : s.resetCore.Inv := .of_cleared (.inl rfl) rfl rfl rfl rfl rfl

theorem State.Inv.abortEncode (h : s.Inv) : s.abortEncode.Inv :=
  .of_cleared (.inl rfl) rfl rfl rfl h.tablesCanonical h.outputCanonical

theorem State.Inv.startRaw (h : s.Inv) (hs : s.st ≠ .error) : s.startRaw.Inv :=
  .of_cleared (.inr rfl) rfl rfl (h.ready hs).noError h.tablesCanonical h.outputCanonical

theorem ceilDiv_pos {a b : Nat} (ha : 0 < a) (hb : 0 < b) : 0 < ceilDiv a b := Nat.div_pos (by omega) hb

/-- There is at least one block, and BLK_TOTAL holds their number (R187). -/
theorem State.blocksOf_bounds (hw : s.width ≠ 0#16) (hh : s.height ≠ 0#16) : 0 < s.blocksOf ∧ s.blocksOf < 2 ^ 32 := by
  have hw0 : 0 < s.width.toNat := Nat.pos_of_ne_zero fun h => hw (BitVec.eq_of_toNat_eq h)
  have hh0 : 0 < s.height.toNat := Nat.pos_of_ne_zero fun h => hh (BitVec.eq_of_toNat_eq h)
  have h16 : ∀ x : BitVec 16, ceilDiv x.toNat 16 ≤ 4096 := fun x => by have := x.isLt; unfold ceilDiv; omega
  have h8 : ∀ x : BitVec 16, ceilDiv x.toNat 8 ≤ 8192 := fun x => by have := x.isLt; unfold ceilDiv; omega
  unfold State.blocksOf
  split
  · have hpos := Nat.mul_pos (ceilDiv_pos hw0 (show 0 < 16 by decide)) (ceilDiv_pos hh0 (show 0 < 16 by decide))
    have hle := Nat.mul_le_mul (h16 s.width) (h16 s.height)
    omega
  · have hpos := Nat.mul_pos (ceilDiv_pos hw0 (show 0 < 8 by decide)) (ceilDiv_pos hh0 (show 0 < 8 by decide))
    have hle := Nat.mul_le_mul (h8 s.width) (h8 s.height)
    omega

/-- The checks of START make the SCAN part of the invariant (R186, R187). -/
theorem State.Inv.of_startScan (h : s.Inv) (hs : s.st ≠ .error) (ht : startScan s = .ok t) : t.Inv := by
  rcases startScan_cases s with ⟨u, e, hu, hv, frame, hfits, hout⟩ | ⟨c, info, hu, -⟩ | ⟨e, hu, -⟩
  · obtain rfl : u = t := Except.ok.inj (hu.symm.trans ht)
    rcases validate_cases s with ⟨e', hv', hmode, hw, hh, hquant, -, hcodes⟩ | ⟨c, info, hv', -⟩
    · obtain rfl : e' = e := Except.ok.inj (hv'.symm.trans hv)
      obtain ⟨hpos, hlt⟩ := State.blocksOf_bounds hw hh
      have htotal : (BitVec.ofNat 32 s.blocksOf).toNat = s.blocksOf := by rw [BitVec.toNat_ofNat, Nat.mod_eq_of_lt hlt]
      have hready : u.Ready := ⟨by rw [frame]; exact h.tablesCanonical, (hout h.outputCanonical).2,
        by rw [frame]; exact hfits, by rw [frame]; exact s.clearDatapath_accOk, by rw [frame]; exact (h.ready hs).noError,
        State.predictors_congr s.clearDatapath_predictors (by rw [frame]; rfl) (by rw [frame]; rfl) (by rw [frame]; rfl)⟩
      refine hready.inv_of_scan (by rw [frame]) (by rw [frame]; rfl) ⟨?_, ?_, ?_, ?_, ?_, ?_⟩
      all_goals rw [frame]
      · exact hmode
      · exact hquant
      · exact htotal
      · exact lt_of_lt_of_eq hpos htotal.symm
      · exact (ite_self 0).symm
      · exact hcodes
    · exact nomatch hv'.symm.trans hv
  · exact nomatch hu.symm.trans ht
  · exact nomatch hu.symm.trans ht

/-! ## A block in SCAN (45_framer.md R189..R191, 41_quantizer.md R116) -/

/-- What SCAN adds to the invariant speaks of the configuration, the counters, BIM and the code tables. -/
theorem State.ScanInv.congr (h : s.ScanInv)
    (frame : t = { t with
      cfgMode := s.cfgMode, width := s.width, height := s.height, tables := s.tables, blkTotal := s.blkTotal
      blkCount := s.blkCount, bim := s.bim, ehuf := s.ehuf }) : t.ScanInv := by
  rw [frame]
  exact ⟨h.mode, h.quant, h.total, h.count, h.bim, h.codes⟩

theorem State.ScanInv.blkCount_succ (h : s.ScanInv) : (s.blkCount + 1#32).toNat = s.blkCount.toNat + 1 := by
  have hlt := h.count
  have := s.blkTotal.isLt
  rw [BitVec.toNat_add, BitVec.toNat_ofNat, Nat.mod_eq_of_lt (by omega)]

/-- BIM goes on with BLK_COUNT, modulo 6 in color (10_state.md R46). -/
theorem State.ScanInv.nextBim_toNat (h : s.ScanInv) :
    (nextBim s.cfgMode s.bim).toNat = if s.color then (s.blkCount.toNat + 1) % 6 else 0 := by
  have hbim := h.bim
  by_cases hc : s.cfgMode = 1#2
  · have hcol : s.color = true := beq_iff_eq.2 hc
    simp only [hcol, if_true] at hbim ⊢
    rw [nextBim, if_pos hc, BitVec.toNat_ofNat]
    omega
  · have hcol : s.color = false := beq_eq_false_iff_ne.2 hc
    simp [nextBim, hc, hcol]

/-- Counting a block that is not the last. -/
theorem State.ScanInv.countBlock (h : s.ScanInv) (hne : s.blkCount + 1#32 ≠ s.blkTotal) : s.countBlock.ScanInv where
  mode := h.mode
  quant := h.quant
  total := h.total
  count := by
    have hcount := h.count
    have hsucc : (s.blkCount + 1#32).toNat ≠ s.blkTotal.toNat := fun he => hne (BitVec.eq_of_toNat_eq he)
    rw [h.blkCount_succ] at hsucc
    rw [State.countBlock_blkCount, State.countBlock_blkTotal, h.blkCount_succ]
    omega
  bim := by
    rw [State.countBlock_bim, State.countBlock_blkCount, h.blkCount_succ]
    exact h.nextBim_toNat
  codes := h.codes

/-- After the last block BIM is 0: in color BLK_TOTAL is a multiple of 6. -/
theorem State.ScanInv.nextBim_last (h : s.ScanInv) (hlast : s.blkCount + 1#32 = s.blkTotal) :
    nextBim s.cfgMode s.bim = 0#3 := by
  apply BitVec.eq_of_toNat_eq
  rw [h.nextBim_toNat, ← h.blkCount_succ, hlast, h.total, State.blocksOf]
  split
  · rw [Nat.mul_mod_left]
    rfl
  · rfl

/-- A quantized DC coefficient of samples −128..127 lies in −1024..1016 (R116). -/
theorem quantDc_bounds {sum : Int} {q : Nat} (hq : 1 ≤ q) (hlo : -8192 ≤ sum) (hhi : sum ≤ 8128) :
    -1024 ≤ quantDc sum q ∧ quantDc sum q ≤ 1016 := by
  have hpos : (0 : Int) < 8 * q := by omega
  unfold quantDc
  constructor
  · rw [Int.le_ediv_iff_mul_le hpos]
    omega
  · rw [← Int.lt_add_one_iff, Int.ediv_lt_iff_lt_mul hpos]
    omega

/-- The sum of 64 level-shifted samples (40_transform.md R101). -/
theorem State.shifted_sum_bounds (s : State) : -8192 ≤ sampleSum s.shifted ∧ sampleSum s.shifted ≤ 8128 := by
  have hlen : s.shifted.length = 64 := by simp [State.shifted]
  have hmem : ∀ v ∈ s.shifted, -128 ≤ v ∧ v ≤ 127 := by
    intro v hv
    obtain ⟨b, -, rfl⟩ := List.mem_map.1 hv
    have := b.isLt
    unfold levelShift
    omega
  have hlo := List.card_nsmul_le_sum s.shifted (-128) fun v hv => (hmem v hv).1
  have hhi := List.sum_le_card_nsmul s.shifted 127 fun v hv => (hmem v hv).2
  rw [hlen, nsmul_eq_mul] at hlo hhi
  rw [sampleSum, ← List.sum_eq_foldl]
  omega

/-- In SCAN the DC coefficient of the coming block is a value for the predictor (10_state.md R47). -/
theorem State.ScanInv.dc_bounds (h : s.ScanInv) (w : Word) :
    -1024 ≤ (BitVec.ofInt 16 ((s.storeSamples w).scanned.headD 0)).toInt ∧
      (BitVec.ofInt 16 ((s.storeSamples w).scanned.headD 0)).toInt ≤ 1016 := by
  have hq : s.qt (quantTabOf s.comp) 0 ≠ 0#8 := firstZero_none h.block.1 0 (by decide)
  have hq1 : 1 ≤ (s.qt (quantTabOf s.comp) 0).toNat := Nat.pos_of_ne_zero fun h0 => hq (BitVec.eq_of_toNat_eq h0)
  have hdc : (s.storeSamples w).scanned.headD 0 =
      quantDc (sampleSum (s.storeSamples w).shifted) (s.qt (quantTabOf s.comp) 0).toNat := rfl
  obtain ⟨hlo, hhi⟩ := (s.storeSamples w).shifted_sum_bounds
  obtain ⟨hlo, hhi⟩ := quantDc_bounds hq1 hlo hhi
  rw [hdc, BitVec.toInt_ofInt_eq_self (by decide) (by omega) (by omega)]
  exact ⟨hlo, hhi⟩

/-- The state a block is coded from, with the coefficients as the machine names them. -/
theorem State.ScanInv.codingStart_eq (h : s.ScanInv) (h15 : s.sfill = 15#4) (w : Word) : s.codingStart w =
    (s.blockStart w).setPred s.comp (BitVec.ofInt 16 ((s.storeSamples w).scanned.headD 0)) := by
  rw [State.codingStart, State.blockScan_eq h15 h.block.2]

/-- A block coded in SCAN, whatever bits it came to: everything but the packer, the output, the samples, SFILL, LASTBLK and the
predictors is as before. -/
theorem State.codedBlock_frame {w : Word} {bits : List Bool} (hp : (s.codingStart w).PacksTo t bits) : t = { s with
      ibuf := t.ibuf, sfill := s.sfill + 1#4, lastblk := t.lastblk, predY := t.predY, predCb := t.predCb, predCr := t.predCr
      acc := t.acc, nbits := t.nbits, obuf := t.obuf, olen := t.olen } := by
  have frame := hp.frame
  rw [State.packerOnly, s.codingStart_frame w] at frame
  rw [frame]

/-- A SAMPLE write that only stores its samples. -/
theorem State.Inv.storeSamples (h : s.Inv) (hs : s.st = .scan) (w : Word) : (s.storeSamples w).Inv :=
  ((h.ready (by simp [hs])).congr rfl).inv_of_scan hs (h.oneShot (.inl hs)) ((h.scan hs).congr rfl)

section Block

variable {w : Word} {bits : List Bool}

theorem State.Inv.codedBlock_ready (h : s.Inv) (hs : s.st = .scan) (h15 : s.sfill = 15#4)
    (hp : (s.codingStart w).PacksTo t bits) : t.countBlock.Ready := by
  have hstart : (s.blockStart w).Ready := (h.ready (by simp [hs])).congr rfl
  obtain ⟨hlo, hhi⟩ := (h.scan hs).dc_bounds w
  rw [(h.scan hs).codingStart_eq h15] at hp
  exact ((hstart.setPred s.comp hlo hhi).packsTo hp).congr rfl

theorem State.Inv.codedBlock_flushed (h : s.Inv) (hs : s.st = .scan) (hp : (s.codingStart w).PacksTo t bits) :
    t.countBlock.flushed = false := by
  rw [State.countBlock_flushed, State.codedBlock_frame hp]
  exact h.oneShot (.inl hs)

theorem State.Inv.codedBlock_scanInv (h : s.Inv) (hs : s.st = .scan) (hp : (s.codingStart w).PacksTo t bits) : t.ScanInv :=
  (h.scan hs).congr (by rw [State.codedBlock_frame hp])

/-- A block that is not the last. -/
theorem State.Inv.countBlock (h : s.Inv) (hs : s.st = .scan) (h15 : s.sfill = 15#4) (hp : (s.codingStart w).PacksTo t bits)
    (hne : t.countBlock.blkCount ≠ t.countBlock.blkTotal) : t.countBlock.Inv := by
  have hst : t.countBlock.st = .scan := by
    rw [State.countBlock_st, State.codedBlock_frame hp]
    exact hs
  exact (h.codedBlock_ready hs h15 hp).inv_of_scan hst (h.codedBlock_flushed hs hp)
    ((h.codedBlock_scanInv hs hp).countBlock hne)

/-- The last block, with the end of the stream. -/
theorem State.Inv.lastBlock (h : s.Inv) (hs : s.st = .scan) (h15 : s.sfill = 15#4) {u : State}
    (hp : (s.codingStart w).PacksTo u bits) (hlast : u.countBlock.blkCount = u.countBlock.blkTotal)
    (ht : terminate u.countBlock = .ok t) : t.Inv := by
  have hend := terminate_frame ht
  have hready := (h.codedBlock_ready hs h15 hp).of_terminate (h.codedBlock_flushed hs hp) ht
  refine hready.inv_of_done (by rw [hend]) ?_ ?_ ?_
  · rw [hend]
    show u.sfill = 0#4
    rw [State.codedBlock_frame hp, h15]
    rfl
  · rw [hend]
    exact (h.codedBlock_scanInv hs hp).nextBim_last hlast
  · rw [hend]
    exact hlast

end Block

/-! ## RAW mode (46_commands.md R227, R228) -/

theorem State.Inv.rawbits (h : s.Inv) (hs : s.st = .raw) {bits : List Bool} (hp : s.PacksTo t bits) : t.Inv := by
  have frame := hp.frame
  rw [State.packerOnly] at frame
  obtain ⟨hsfill, hbim⟩ := h.betweenBlocks (.inr (.inr hs))
  have htotal := h.noBlocks (.inr hs)
  have hst : t.st = .raw := by rw [frame]; exact hs
  refine ((h.ready (by simp [hs])).packsTo hp).inv_of_noBlocks (.inr hst) ?_ (by simp [hst]) ?_ ?_ ?_ ?_
  all_goals rw [frame]
  · exact h.oneShot (.inr hs)
  · exact hsfill
  · exact hbim
  · exact (h.counts (.inr (.inr hs))).trans htotal
  · exact htotal

theorem State.Inv.rawflush (h : s.Inv) (hs : s.st = .raw) (ht : rawflushBody s = .ok t) : t.Inv := by
  obtain ⟨u, hu, hdone⟩ := bind_ok ht
  obtain rfl : u.enterDone = t := Except.ok.inj hdone
  have frame := flush_frame hu
  obtain ⟨hsfill, hbim⟩ := h.betweenBlocks (.inr (.inr hs))
  have hready := (h.ready (by simp [hs])).of_flush (h.oneShot (.inr hs)) hu
  refine State.Ready.inv_of_done (hready.congr rfl) rfl ?_ ?_ ?_
  · rw [State.enterDone_sfill, frame]
    exact hsfill
  · rw [State.enterDone_bim, frame]
    exact hbim
  · rw [State.enterDone_blkCount, State.enterDone_blkTotal, frame]
    exact h.counts (.inr (.inr hs))

/-! ## Every step -/

/-- What holds after an access, by the ways it can end (00_scope.md R10). -/
theorem Ends.elim {done P : State → Prop} {o : Host.Outcome State Fault Refusal} (he : Ends s done o) (ho : o = .next t)
    (hdone : ∀ u, done u → P u) (hignored : P s.ignoreAccess) (herror : ∀ e info, e ≠ .none → P (errorEntry e info s)) :
    P t := by
  obtain ⟨u, hu, hcase⟩ := he
  obtain rfl : u = t := by
    rw [hu] at ho
    injection ho
  rcases hcase with hd | rfl | ⟨-, e, info, hne, rfl⟩
  · exact hdone u hd
  · exact hignored
  · exact herror e info hne

theorem Ends.keeps_inv {done : State → Prop} {o : Host.Outcome State Fault Refusal} (he : Ends s done o) (h : s.Inv)
    (hdone : ∀ u, done u → u.Inv) (ho : o = .next t) : t.Inv :=
  he.elim ho hdone h.ignoreAccess fun _ info hne => h.of_errorEntry hne info

theorem State.Inv.of_exec (h : s.Inv) {i : Instr} (hw : i.wf = true) (ht : exec i s = .next t) : t.Inv := by
  have hready := fun hs : s.st = .scan ∨ s.st = .raw => h.packerReady hs
  cases i with
  | nop => exact (execNop_ends s).keeps_inv h (fun _ hu => hu ▸ h) ht
  | start =>
    refine (execStart_ends s).keeps_inv h (fun u hu => ?_) ht
    obtain ⟨hs, ⟨-, rfl⟩ | ⟨-, hu⟩⟩ := hu
    · exact h.startRaw (by simp [hs])
    · exact h.of_startScan (by simp [hs]) hu
  | qgen => exact (execQgen_ends s).keeps_inv h (fun _ hu => hu.2 ▸ h.generateTables (by simp [hu.1])) ht
  | hdefault => exact (execHdefault_ends s).keeps_inv h (fun _ hu => hu.2 ▸ h.storeTables (by simp [hu.1]) _) ht
  | abort => exact (execAbort_ends s).keeps_inv h (fun _ hu => hu ▸ h.abortEncode) ht
  | softReset => exact (execSoftReset_ends s).keeps_inv h (fun _ hu => hu ▸ s.resetCore_inv) ht
  | rawbits len value =>
    exact (execRawbits_ends len value fun hs => hready (.inr hs)).keeps_inv h (fun _ hu => h.rawbits hu.1 hu.2) ht
  | rawflush => exact (execRawflush_ends fun hs => hready (.inr hs)).keeps_inv h (fun _ hu => h.rawflush hu.1 hu.2) ht
  | sampleWrite w =>
    refine (execSampleWrite_ends w (fun hs => hready (.inl hs)) fun hs => (h.scan hs).block.1).keeps_inv h (fun u hu => ?_) ht
    obtain ⟨hs, ⟨-, rfl⟩ | ⟨h15, v, bits, -, hp, hcase⟩⟩ := hu
    · exact h.storeSamples hs w
    rw [← (h.scan hs).codingStart_eq h15] at hp
    rcases hcase with ⟨hne, rfl⟩ | ⟨hlast, hend⟩
    · exact h.countBlock hs h15 hp hne
    · exact h.lastBlock hs h15 hp hlast hend
  | regRead off lanes =>
    rcases execRegRead_cases off lanes s with hr | hr <;> cases hr.symm.trans ht <;> exact h.withHostRegs _ _ _ _ _
  | regWrite off lanes v =>
    rcases execRegWrite_cases hw s with hr | ⟨hr, hk⟩ <;> cases hr.symm.trans ht
    · exact h.ignoreAccess
    · exact h.of_storeReg v hk

/-- Settles O53, by the kinds of the oldest event: a reset clears the datapath, an illegal command word is ignored or enters
ERROR, and an access that decodes is a well-formed instruction. -/
theorem stepKeepsInvariant : Obligations.StepKeepsInvariant := by
  intro s t h ht
  rcases step_cases ht with ⟨-, rfl⟩ | ⟨e, rest, -, ⟨-, rfl⟩ | ⟨a, -, ⟨x, -, rfl⟩ | ⟨i, hd, hexec⟩⟩⟩
  · exact h
  · exact State.resetCore_inv _
  · exact (illegalCommand_ends x.word _).keeps_inv (h.withPending rest) (fun _ hu => hu.elim) rfl
  · exact (h.withPending rest).of_exec (decode_wf hd) hexec

end Sys2Proof.Machine

/-! PROOFS of the family 20_memory.md, the accesses: what lies at each offset of the window (10_state.md R22), and which reads and
writes are ignored, answered or stored (20_memory.md R62..R67). -/

namespace Sys2Proof.Machine

variable {s : State} {off : Offset} {lanes : Lanes}

/-! ## What lies where (10_state.md R22) -/

theorem isWordAccess_iff : isWordAccess off lanes = true ↔ lanes = 0xF#4 ∧ off.toNat % 4 = 0 := by
  have h : off.extractLsb' 0 2 = 0#2 ↔ off.toNat % 4 = 0 := by
    rw [← BitVec.toNat_inj, BitVec.extractLsb'_toNat]
    rfl
  rw [isWordAccess, Bool.and_eq_true, beq_iff_eq, beq_iff_eq, h]

theorem regAt_ofNat_toNat (off : Offset) : regAt (BitVec.ofNat 14 off.toNat) = regAt off := by
  rw [BitVec.ofNat_toNat, BitVec.setWidth_eq]

/-- The registers a configuration offset names: CFG, WIDTH, HEIGHT, QUALITY, or an entry of a table. -/
theorem configOffset_cases {a : Nat} (h : configOffset a) : (∃ n, 6 ≤ n ∧ n ≤ 9 ∧ a = 4 * n) ∨
    (∃ t i, i < 64 ∧ a = qtAddr t i) ∨ (∃ h len, 1 ≤ len ∧ len ≤ 16 ∧ a = bitsAddr h len) ∨
    ∃ h k, k < 256 ∧ a = valAddr h k := by
  obtain ⟨h4, hreg | hqt | ⟨hlo, hhi, hht⟩⟩ := h
  · exact .inl ⟨a / 4, by omega, by omega, by omega⟩
  · refine .inr (.inl ?_)
    rcases Nat.lt_or_ge a 0x300 with hlt | hge
    · exact ⟨.qt0, (a - 0x200) / 4, by omega, by simp only [qtAddr, QTab.index]; omega⟩
    · exact ⟨.qt1, (a - 0x300) / 4, by omega, by simp only [qtAddr, QTab.index]; omega⟩
  · obtain ⟨h, hidx⟩ := HTab.exists_index_eq (n := (a - 0x1000) / 0x800) (by omega)
    rcases hht with hbits | hval
    · exact .inr (.inr (.inl ⟨h, a % 0x800 / 4 + 1, by omega, by omega, by rw [bitsAddr, htBase, hidx]; omega⟩))
    · exact .inr (.inr (.inr ⟨h, (a % 0x800 - 0x400) / 4, by omega, by rw [valAddr, htBase, hidx]; omega⟩))

theorem kind_of_configOffset (h : configOffset off.toNat) : (regAt off).kind = .cl := by
  rw [← regAt_ofNat_toNat off]
  rcases configOffset_cases h with ⟨n, h6, h9, ha⟩ | ⟨t, i, hi, ha⟩ | ⟨h, len, h1, h16, ha⟩ | ⟨h, k, hk, ha⟩
  · rw [ha, regAt_named (by omega)]
    interval_cases n <;> rfl
  · rw [ha, regAt_qtAddr t hi]
    rfl
  · rw [ha, regAt_bitsAddr h h1 h16]
    rfl
  · rw [ha, regAt_valAddr h hk]
    rfl

/-- A store to a table entry is a store of the low byte at the entry's offset. -/
theorem storeReg_of_tableOffset (h : configOffset off.toNat) (h200 : 0x200 ≤ off.toNat) (s : State) (v : Word) :
    storeReg s (regAt off) v = s.storeTables [(off.toNat, v.extractLsb' 0 8)] := by
  rw [← regAt_ofNat_toNat off]
  rcases configOffset_cases h with ⟨n, -, h9, ha⟩ | ⟨t, i, hi, ha⟩ | ⟨h, len, h1, h16, ha⟩ | ⟨h, k, hk, ha⟩
  · omega
  · rw [ha, regAt_qtAddr t hi]
    rfl
  · rw [ha, regAt_bitsAddr h h1 h16]
    rfl
  · rw [ha, regAt_valAddr h hk]
    rfl

theorem kind_of_readOnlyOffset (h : readOnlyOffset off.toNat) : (regAt off).kind = .ro := by
  rw [← regAt_ofNat_toNat off]
  rcases h with h | ⟨h4, hlo, hhi⟩
  · revert h
    generalize off.toNat = a
    revert a
    decide
  · rw [show off.toNat = 0x100 + 4 * ((off.toNat - 0x100) / 4) by omega, regAt_lastblk (by omega)]
    rfl

theorem regAt_of_reservedOffset (h : reservedOffset off.toNat) : regAt off = .reserved := by
  obtain ⟨h4, -, ⟨hlo, hhi⟩ | ⟨hlo, hhi⟩ | hlo | ⟨hlo, hhi, hr, hr'⟩⟩ := h
  · simp only [regAt, if_neg (show ¬ off.toNat < 0x060 by omega), if_pos hhi]
  · simp only [regAt, if_neg (show ¬ off.toNat < 0x060 by omega), if_neg (show ¬ off.toNat < 0x100 by omega),
      if_neg (show ¬ off.toNat < 0x200 by omega), if_neg (show ¬ off.toNat < 0x300 by omega),
      if_neg (show ¬ off.toNat < 0x400 by omega), if_pos hhi]
  · simp only [regAt, if_neg (show ¬ off.toNat < 0x060 by omega), if_neg (show ¬ off.toNat < 0x100 by omega),
      if_neg (show ¬ off.toNat < 0x200 by omega), if_neg (show ¬ off.toNat < 0x300 by omega),
      if_neg (show ¬ off.toNat < 0x400 by omega), if_neg (show ¬ off.toNat < 0x1000 by omega),
      if_neg (show ¬ off.toNat < 0x3000 by omega)]
  · obtain ⟨h, hidx⟩ := HTab.exists_index_eq (n := (off.toNat - 0x1000) / 0x800) (by omega)
    rw [← regAt_ofNat_toNat off, show off.toNat = htBase h + off.toNat % 0x800 by rw [htBase, hidx]; omega,
      regAt_htBase_add h (by omega), htReg, if_neg (by omega), if_pos hr']

/-- At every aligned offset that is not reserved a register or table entry stands. -/
theorem regAt_ne_reserved (h4 : off.toNat % 4 = 0) (h : ¬ reservedOffset off.toNat) : regAt off ≠ .reserved := by
  have hlt := off.isLt
  have hcases : off.toNat < 0x060 ∨ 0x100 ≤ off.toNat ∧ off.toNat < 0x200 ∨ configOffset off.toNat := by
    unfold reservedOffset at h
    unfold configOffset
    omega
  rcases hcases with hlow | ⟨hlo, hhi⟩ | hc
  · rw [← regAt_ofNat_toNat off, show off.toNat = 4 * (off.toNat / 4) by omega, regAt_named (by omega)]
    exact namedReg_ne_reserved (by omega)
  · rw [← regAt_ofNat_toNat off, show off.toNat = 0x100 + 4 * ((off.toNat - 0x100) / 4) by omega, regAt_lastblk (by omega)]
    nofun
  · intro hr
    have hk := kind_of_configOffset hc
    rw [hr] at hk
    cases hk

/-! ## Ignored and completed accesses (20_memory.md R62..R66) -/

/-- The accesses the map has no place for: misaligned, narrow or reserved. -/
theorem outsideMap_iff : off.toNat % 4 ≠ 0 ∨ lanes ≠ 0xF#4 ∨ reservedOffset off.toNat ↔
    ¬ (isWordAccess off lanes = true ∧ regAt off ≠ .reserved) := by
  rw [isWordAccess_iff]
  constructor
  · rintro (h | h | h) ⟨⟨hl, h4⟩, hr⟩
    · exact h h4
    · exact h hl
    · exact hr (regAt_of_reservedOffset h)
  · intro h
    by_contra hc
    simp only [not_or, not_not] at hc
    obtain ⟨h4, hl, hr⟩ := hc
    exact h ⟨⟨hl, h4⟩, regAt_ne_reserved h4 hr⟩

theorem execRegRead_register (h : isWordAccess off lanes = true ∧ regAt off ≠ .reserved) (s : State) :
    execRegRead off lanes s = .next { s with rdata := regValue s (regAt off) } := by
  rw [execRegRead, if_pos (by simpa using h)]

theorem execRegRead_outsideMap (h : ¬ (isWordAccess off lanes = true ∧ regAt off ≠ .reserved)) (s : State) :
    execRegRead off lanes s = .next { s.ignoreAccess with rdata := 0#32 } := by
  rw [execRegRead, if_neg (by simpa using h)]

theorem execRegWrite_outsideMap (h : ¬ (isWordAccess off lanes = true ∧ regAt off ≠ .reserved)) (v : Word) (s : State) :
    execRegWrite off lanes v s = .next s.ignoreAccess := by
  by_cases hw : isWordAccess off lanes = true
  · have hr : regAt off = .reserved := not_not.1 fun hr => h ⟨hw, hr⟩
    rw [execRegWrite, if_pos hw, hr]
    rfl
  · rw [execRegWrite, if_neg hw]

theorem execRegWrite_readOnly (hw : isWordAccess off lanes = true) (hk : (regAt off).kind = .ro) (v : Word) (s : State) :
    execRegWrite off lanes v s = .next s.ignoreAccess := by
  rw [execRegWrite, if_pos hw, hk]

theorem execRegWrite_locked (hw : isWordAccess off lanes = true) (hk : (regAt off).kind = .cl) (hl : s.locked = true)
    (v : Word) : execRegWrite off lanes v s = .next s.ignoreAccess := by
  rw [execRegWrite, if_pos hw, hk]
  exact if_pos hl

theorem execRegWrite_unlocked (hw : isWordAccess off lanes = true) (hk : (regAt off).kind = .cl) (hl : s.locked = false)
    (v : Word) : execRegWrite off lanes v s = .next (storeReg s (regAt off) v) := by
  rw [execRegWrite, if_pos hw, hk]
  exact if_neg (by simp [hl])

theorem State.locked_iff : s.locked = true ↔ s.st = .scan ∨ s.st = .raw := by
  simp [State.locked]

/-- What a word read returns does not look at the read data. -/
theorem regValue_withRdata (s : State) (r : Reg) (w : Word) : regValue { s with rdata := w } r = regValue s r := by
  cases r <;> rfl

/-- ACCERR is set once. -/
theorem State.ignoreAccess_flags_idem (s : State) : s.ignoreAccess.flags ||| accerrBit = s.ignoreAccess.flags := by
  rw [State.ignoreAccess_flags, BitVec.or_assoc, BitVec.or_self]

/-- The low field of a word. -/
theorem extractLsb'_zero_eq_ofNat (v : Word) (n : Nat) : v.extractLsb' 0 n = BitVec.ofNat n v.toNat :=
  extractLsb'_eq_of_toNat (by rw [Nat.pow_zero, Nat.div_one, BitVec.toNat_ofNat])

/-! ## The obligations -/

/-- Settles O9: a read in the map changes the read data, which no register shows; one outside it sets ACCERR, which is then
set already. -/
theorem readsHaveNoSideEffect : Obligations.ReadsHaveNoSideEffect := by
  intro s off lanes
  by_cases h : isWordAccess off lanes = true ∧ regAt off ≠ .reserved
  · refine ⟨_, execRegRead_register h s, rfl, .inl rfl, ?_⟩
    exact (execRegRead_register h _).trans
      (congrArg (fun w => Host.Outcome.next { s with rdata := w }) (regValue_withRdata s _ _))
  · have hout := or_left_comm.1 (outsideMap_iff.2 h)
    refine ⟨_, execRegRead_outsideMap h s, rfl, .inr ⟨rfl, hout⟩, ?_⟩
    exact (execRegRead_outsideMap h _).trans
      (congrArg (fun f => Host.Outcome.next { s with flags := f, rdata := 0#32 }) s.ignoreAccess_flags_idem)

/-- Settles O10: a misaligned, narrow or reserved access is one outside the map. -/
theorem accessesOutsideTheMap : Obligations.AccessesOutsideTheMap := by
  intro s off lanes v h
  exact ⟨execRegWrite_outsideMap (outsideMap_iff.1 h) v s, execRegRead_outsideMap (outsideMap_iff.1 h) s⟩

/-- Settles O11: by the kind of the register at the offset; CMD and SAMPLE are word 2 and word 13 of the map. -/
theorem readOnlyAndWriteOnly : Obligations.ReadOnlyAndWriteOnly := by
  refine ⟨fun s off v h => ?_, fun s => ⟨readsAs_named 2, readsAs_named 13⟩⟩
  have h4 : off.toNat % 4 = 0 := by
    simp only [readOnlyOffset, List.mem_cons, List.not_mem_nil, or_false] at h
    omega
  exact execRegWrite_readOnly (isWordAccess_iff.2 ⟨rfl, h4⟩) (kind_of_readOnlyOffset h) v s

/-- Settles O12: at a configuration offset a write is ignored where the core is locked, else stored; a table entry is one byte
of the table RAMs, at the entry's offset. -/
theorem configurationWrites : Obligations.ConfigurationWrites := by
  have hword : ∀ {off : Offset}, configOffset off.toNat → isWordAccess off 0xF#4 = true := fun h =>
    isWordAccess_iff.2 ⟨rfl, h.1⟩
  refine ⟨fun s off v h hs => execRegWrite_locked (hword h) (kind_of_configOffset h) (State.locked_iff.2 hs) v, ?_⟩
  intro s v hs
  have hl : s.locked = false := by rcases hs with hs | hs | hs <;> simp [State.locked, hs]
  have hstore : ∀ off : Offset, configOffset off.toNat →
      exec (.regWrite off 0xF#4 v) s = .next (storeReg s (regAt off) v) := fun off h =>
    execRegWrite_unlocked (hword h) (kind_of_configOffset h) hl v
  simp only [← extractLsb'_zero_eq_ofNat]
  refine ⟨hstore 0x018 ⟨rfl, .inl (by decide)⟩, hstore 0x01C ⟨rfl, .inl (by decide)⟩, hstore 0x020 ⟨rfl, .inl (by decide)⟩,
    hstore 0x024 ⟨rfl, .inl (by decide)⟩, ?_⟩
  intro off h h200 hwf
  refine ⟨_, hstore off h, ?_⟩
  rw [storeReg_of_tableOffset h h200]
  exact ⟨rfl, Memory.read_write_same hwf, fun a ha => Memory.read_write_other ha⟩

end Sys2Proof.Machine

/-! PROOFS of the family 20_memory.md, the frames of a whole step: the output only grows or is discarded (20_memory.md R71), a
finished stream stays (45_framer.md R195), and an encode keeps the configuration and the code tables (R66, R75). -/

namespace Sys2Proof.Machine

variable {s t : State}

/-! ## Output (20_memory.md R71) -/

/-- t still has the whole output of s. -/
def State.KeepsOutput (s t : State) : Prop := s.olen ≤ t.olen ∧ ∀ j, j < s.olen → t.outByte j = s.outByte j

theorem State.KeepsOutput.of_eq (hlen : t.olen = s.olen) (hbuf : t.obuf = s.obuf) : s.KeepsOutput t :=
  ⟨hlen.ge, fun j _ => by rw [State.outByte, State.outByte, hbuf]⟩

theorem State.KeepsOutput.of_appends {out : List Byte} (h : s.appends t out) : s.KeepsOutput t := by
  obtain ⟨hlen, -, hrest⟩ := h
  exact ⟨by omega, fun j hj => hrest j (.inl hj)⟩

theorem State.KeepsOutput.trans {u : State} (h : s.KeepsOutput t) (h' : t.KeepsOutput u) : s.KeepsOutput u :=
  ⟨h.1.trans h'.1, fun j hj => (h'.2 j (lt_of_lt_of_le hj h.1)).trans (h.2 j hj)⟩

theorem State.KeepsOutput.of_rawflush (h : s.Inv) (hs : s.st = .raw) (ht : rawflushBody s = .ok t) : s.KeepsOutput t := by
  obtain ⟨u, hu, hdone⟩ := bind_ok ht
  obtain rfl : u.enterDone = t := Except.ok.inj hdone
  obtain ⟨hacc, hf⟩ := h.packerReady (.inr hs)
  rcases flush_cases hacc hf with ⟨v, hv, -, -, -, hout⟩ | ⟨hv, -⟩
  · obtain rfl : v = u := Except.ok.inj (hv.symm.trans hu)
    exact .of_appends (State.appends_congr rfl rfl rfl rfl (hout h.outputCanonical).1)
  · exact nomatch hv.symm.trans hu

theorem State.KeepsOutput.of_terminate (h : s.Ready) (hf : s.flushed = false) (ht : terminate s = .ok t) :
    s.KeepsOutput t := by
  rcases terminate_cases h.packer hf with ⟨u, hu, -, -, -, hout⟩ | ⟨hu, -⟩
  · obtain rfl : u = t := Except.ok.inj (hu.symm.trans ht)
    exact .of_appends (hout h.outputCanonical).1
  · exact nomatch hu.symm.trans ht

theorem State.KeepsOutput.of_codedBlock (h : s.Inv) {w : Word} {bits : List Bool}
    (hp : (s.codingStart w).PacksTo t bits) : s.KeepsOutput t.countBlock := by
  have hobuf : s.obuf = (s.codingStart w).obuf := by rw [s.codingStart_frame w]
  have holen : s.olen = (s.codingStart w).olen := by rw [s.codingStart_frame w]
  exact .of_appends (State.appends_congr hobuf holen rfl rfl (hp.out (hobuf ▸ h.outputCanonical)))

theorem storeReg_output (s : State) (r : Reg) (v : Word) : (storeReg s r v).olen = s.olen ∧ (storeReg s r v).obuf = s.obuf := by
  cases r <;> exact ⟨rfl, rfl⟩

theorem State.generateTables_output (s : State) : s.generateTables.olen = s.olen ∧ s.generateTables.obuf = s.obuf := by
  simp only [State.generateTables]
  split <;> exact ⟨rfl, rfl⟩

theorem Ends.output {done : State → Prop} {o : Host.Outcome State Fault Refusal} (he : Ends s done o) (ho : o = .next t)
    (hdone : ∀ u, done u → u.olen = 0 ∨ s.KeepsOutput u) : t.olen = 0 ∨ s.KeepsOutput t :=
  he.elim ho hdone (.inr (State.KeepsOutput.of_eq rfl rfl)) fun _ _ _ => .inl rfl

/-- An instruction leaves no output or keeps all there was. START finds none in IDLE. -/
theorem State.Inv.exec_output (h : s.Inv) {i : Instr} (hw : i.wf = true) (ht : exec i s = .next t) :
    t.olen = 0 ∨ s.KeepsOutput t := by
  have hready := fun hs : s.st = .scan ∨ s.st = .raw => h.packerReady hs
  cases i with
  | nop => exact (execNop_ends s).output ht fun _ hu => hu ▸ .inr (.of_eq rfl rfl)
  | start =>
    refine (execStart_ends s).output ht fun u hu => .inr ?_
    have hlen := h.noOutput (.inl hu.1)
    exact ⟨by omega, fun j hj => by omega⟩
  | qgen =>
    refine (execQgen_ends s).output ht fun u hu => .inr ?_
    obtain ⟨-, rfl⟩ := hu
    exact .of_eq s.generateTables_output.1 s.generateTables_output.2
  | hdefault =>
    refine (execHdefault_ends s).output ht fun u hu => .inr ?_
    obtain ⟨-, rfl⟩ := hu
    exact .of_eq (s.storeTables_olen _) (s.storeTables_obuf _)
  | abort => exact (execAbort_ends s).output ht fun _ hu => hu ▸ .inl rfl
  | softReset => exact (execSoftReset_ends s).output ht fun _ hu => hu ▸ .inl rfl
  | rawbits len value =>
    exact (execRawbits_ends len value fun hs => hready (.inr hs)).output ht fun _ hu =>
      .inr (.of_appends (hu.2.out h.outputCanonical))
  | rawflush =>
    exact (execRawflush_ends fun hs => hready (.inr hs)).output ht fun _ hu => .inr (.of_rawflush h hu.1 hu.2)
  | sampleWrite w =>
    refine (execSampleWrite_ends w (fun hs => hready (.inl hs)) fun hs => (h.scan hs).block.1).output ht fun u hu => .inr ?_
    obtain ⟨hs, ⟨-, rfl⟩ | ⟨h15, v, bits, -, hp, hcase⟩⟩ := hu
    · exact .of_eq rfl rfl
    rw [← (h.scan hs).codingStart_eq h15] at hp
    rcases hcase with ⟨-, rfl⟩ | ⟨-, hend⟩
    · exact .of_codedBlock h hp
    · exact (State.KeepsOutput.of_codedBlock h hp).trans
        (.of_terminate (h.codedBlock_ready hs h15 hp) (h.codedBlock_flushed hs hp) hend)
  | regRead off lanes =>
    rcases execRegRead_cases off lanes s with hr | hr <;> cases hr.symm.trans ht <;> exact .inr (.of_eq rfl rfl)
  | regWrite off lanes v =>
    rcases execRegWrite_cases hw s with hr | ⟨hr, -⟩ <;> cases hr.symm.trans ht
    · exact .inr (.of_eq rfl rfl)
    · exact .inr (.of_eq (storeReg_output s _ v).1 (storeReg_output s _ v).2)

/-- What completes from DONE and stays there leaves the stream alone (45_framer.md R195). -/
theorem Completes.output_of_done {i : Instr} (hc : Completes s t i) (hs : s.st = .done) (ht : t.st = .done) :
    t.olen = s.olen ∧ t.obuf = s.obuf := by
  cases i with
  | nop => exact hc ▸ ⟨rfl, rfl⟩
  | start | qgen | hdefault | rawbits | rawflush | sampleWrite => exact nomatch hs.symm.trans hc.1
  | abort | softReset =>
    obtain rfl := hc
    exact nomatch ht
  | regRead off lanes => rcases hc with rfl | rfl <;> exact ⟨rfl, rfl⟩
  | regWrite off lanes v =>
    obtain ⟨-, rfl, -⟩ := hc
    exact storeReg_output s _ v

/-! ## Configuration and code tables during an encode (20_memory.md R66, R75) -/

theorem sameConfig_of_frame (frame : t = { t with
      cfgMode := s.cfgMode, cfgTest := s.cfgTest, width := s.width, height := s.height, quality := s.quality
      tables := s.tables }) : sameConfig s t := by
  rw [frame]
  exact ⟨rfl, rfl, rfl, rfl, rfl, rfl⟩

/-- What completes in SCAN or RAW and is no return to IDLE keeps the configuration and the code tables. -/
theorem Completes.keeps_config {i : Instr} (hc : Completes s t i) (hs : s.st = .scan ∨ s.st = .raw) (ht : t.st ≠ .idle) :
    sameConfig s t ∧ t.ehuf = s.ehuf := by
  have hidle : s.st ≠ .idle := by rcases hs with hs | hs <;> simp [hs]
  cases i with
  | nop =>
    obtain rfl := hc
    exact ⟨sameConfig_of_frame rfl, rfl⟩
  | start | qgen | hdefault => exact absurd hc.1 hidle
  | abort | softReset =>
    obtain rfl := hc
    exact absurd rfl ht
  | rawbits len value =>
    have frame := writeBits_frame hc.2.2
    rw [State.packerOnly] at frame
    exact ⟨sameConfig_of_frame (by rw [frame]), by rw [frame]⟩
  | rawflush =>
    obtain ⟨u, hu, hdone⟩ := bind_ok hc.2
    obtain rfl : u.enterDone = t := Except.ok.inj hdone
    have frame := flush_frame hu
    exact ⟨sameConfig_of_frame (by rw [frame]; rfl), by rw [State.enterDone_ehuf, frame]⟩
  | sampleWrite w =>
    rcases sampleBody_frame hc.1 hc.2 with frame | ⟨-, u, frame, -⟩
    · exact ⟨sameConfig_of_frame (by rw [frame]), by rw [frame]⟩
    · exact ⟨sameConfig_of_frame (by rw [frame]), by rw [frame]⟩
  | regRead off lanes => rcases hc with rfl | rfl <;> exact ⟨sameConfig_of_frame rfl, rfl⟩
  | regWrite off lanes v =>
    obtain ⟨-, rfl, hk⟩ := hc
    rcases or_assoc.2 hk with hk | ⟨-, hl⟩
    · rw [storeReg_unlocked hk]
      exact ⟨sameConfig_of_frame rfl, rfl⟩
    · exact absurd hl (by simp [State.locked_iff.2 hs])

/-! ## The obligations -/

/-- Settles O57, by the kinds of the oldest event: a reset and an error discard the output, an instruction is `exec_output`;
from DONE to DONE only accesses go that write no output. -/
theorem outputOnlyGrows : Obligations.OutputOnlyGrows := by
  intro s t h ht
  rcases step_cases ht with ⟨-, rfl⟩ | ⟨e, rest, -, ⟨-, rfl⟩ | ⟨a, -, ⟨x, -, rfl⟩ | ⟨i, hd, hexec⟩⟩⟩
  · exact ⟨.inr (State.KeepsOutput.of_eq rfl rfl), fun _ _ => ⟨rfl, rfl⟩⟩
  · exact ⟨.inl rfl, fun _ hdone => nomatch hdone⟩
  · unfold illegalCommand
    split
    · exact ⟨.inr (State.KeepsOutput.of_eq rfl rfl), fun _ _ => ⟨rfl, rfl⟩⟩
    · exact ⟨.inl rfl, fun _ hdone => nomatch hdone⟩
  · refine ⟨(h.withPending rest).exec_output (decode_wf hd) hexec, fun hs hdone => ?_⟩
    rcases exec_cases hexec with hc | rfl | ⟨-, e, info, -, rfl⟩
    · exact hc.output_of_done hs hdone
    · exact ⟨rfl, rfl⟩
    · exact nomatch hdone

/-- Settles O59, by the kinds of the oldest event: a reset goes to IDLE, error entry keeps the configuration, and what
completes keeps the code tables as well. -/
theorem tablesFixedDuringEncode : Obligations.TablesFixedDuringEncode := by
  intro s t _ hs ht hidle
  rcases step_cases ht with ⟨-, rfl⟩ | ⟨e, rest, -, ⟨-, rfl⟩ | ⟨a, -, ⟨x, -, rfl⟩ | ⟨i, hd, hexec⟩⟩⟩
  · exact ⟨sameConfig_of_frame rfl, fun _ => rfl⟩
  · exact absurd rfl hidle
  · unfold illegalCommand
    split
    · exact ⟨sameConfig_of_frame rfl, fun _ => rfl⟩
    · exact ⟨sameConfig_of_frame rfl, fun he => absurd rfl he⟩
  · rcases exec_cases hexec with hc | rfl | ⟨-, e, info, -, rfl⟩
    · obtain ⟨hconfig, hcodes⟩ := hc.keeps_config hs hidle
      exact ⟨hconfig, fun _ => hcodes⟩
    · exact ⟨sameConfig_of_frame rfl, fun _ => rfl⟩
    · exact ⟨sameConfig_of_frame rfl, fun he => absurd rfl he⟩

end Sys2Proof.Machine

/-! PROOFS of the family 30_encoding.md: the fields of a command word, which words written to CMD decode and to what
(R81..R86), that decoder and encoder undo each other, what an illegal word does, and the SAMPLE write that does not complete
a block (R87). -/

namespace Sys2Proof.Machine

variable {s : State} {w : Word} {i : Instr}

/-! ## The fields of a command word (R81, R83) -/

theorem opcOf_toNat (w : Word) : (opcOf w).toNat = w.toNat % 256 := by
  rw [opcOf, BitVec.extractLsb'_toNat, Nat.shiftRight_zero]

theorem lenOf_toNat (w : Word) : (lenOf w).toNat = w.toNat / 256 % 32 := by
  rw [lenOf, BitVec.extractLsb'_toNat, Nat.shiftRight_eq_div_pow]

theorem reservedOf_toNat (w : Word) : (reservedOf w).toNat = w.toNat / 8192 % 8 := by
  rw [reservedOf, BitVec.extractLsb'_toNat, Nat.shiftRight_eq_div_pow]

theorem valueOf_toNat (w : Word) : (valueOf w).toNat = w.toNat / 65536 % 65536 := by
  rw [valueOf, BitVec.extractLsb'_toNat, Nat.shiftRight_eq_div_pow]

/-- The bits above OPC. -/
theorem extractLsb'_above_opc_eq_zero_iff : w.extractLsb' 8 24 = 0#24 ↔ w.toNat / 256 = 0 := by
  have hw := w.isLt
  rw [← BitVec.toNat_inj, BitVec.extractLsb'_toNat, Nat.shiftRight_eq_div_pow, BitVec.toNat_ofNat]
  omega

/-- A word with nothing above OPC. -/
theorem eq_zero_append_opcOf (h : w.toNat / 256 = 0) : w = 0#24 ++ opcOf w := by
  apply BitVec.eq_of_toNat_eq
  rw [toNat_append_eq_add, opcOf_toNat, BitVec.toNat_ofNat]
  omega

/-- A RAWBITS word is made of its fields. -/
theorem eq_append_fields (hr : reservedOf w = 0#3) : w = valueOf w ++ 0#3 ++ lenOf w ++ opcOf w := by
  have hw := w.isLt
  have hr' := congrArg BitVec.toNat hr
  rw [reservedOf_toNat, BitVec.toNat_ofNat] at hr'
  apply BitVec.eq_of_toNat_eq
  simp only [toNat_append_eq_add, opcOf_toNat, lenOf_toNat, valueOf_toNat, BitVec.toNat_ofNat]
  omega

section Fields

variable (value : BitVec 16) (reserved : BitVec 3) (len : BitVec 5) (opc : Byte)

theorem opcOf_append : opcOf (value ++ reserved ++ len ++ opc) = opc := by
  have ho := opc.isLt
  apply extractLsb'_eq_of_toNat
  simp only [toNat_append_eq_add]
  omega

theorem lenOf_append : lenOf (value ++ reserved ++ len ++ opc) = len := by
  have ho := opc.isLt
  have hl := len.isLt
  apply extractLsb'_eq_of_toNat
  simp only [toNat_append_eq_add]
  omega

theorem reservedOf_append : reservedOf (value ++ reserved ++ len ++ opc) = reserved := by
  have ho := opc.isLt
  have hl := len.isLt
  have hr := reserved.isLt
  apply extractLsb'_eq_of_toNat
  simp only [toNat_append_eq_add]
  omega

theorem valueOf_append : valueOf (value ++ reserved ++ len ++ opc) = value := by
  have ho := opc.isLt
  have hl := len.isLt
  have hr := reserved.isLt
  have hv := value.isLt
  apply extractLsb'_eq_of_toNat
  simp only [toNat_append_eq_add]
  omega

end Fields

/-! ## The decoder of CMD words (R82, R84, R85, R86) -/

/-- The opcodes of the commands without operands (R82). -/
theorem plainCommand_cases {opc : Byte} (h : plainCommand opc = some i) :
    opc = 0x00#8 ∧ i = .nop ∨ opc = 0x01#8 ∧ i = .start ∨ opc = 0x02#8 ∧ i = .qgen ∨ opc = 0x03#8 ∧ i = .hdefault ∨
      opc = 0x04#8 ∧ i = .abort ∨ opc = 0x05#8 ∧ i = .softReset ∨ opc = 0x11#8 ∧ i = .rawflush := by
  unfold plainCommand at h
  repeat' split at h
  all_goals simp_all

theorem encode_of_plainCommand {opc : Byte} (h : plainCommand opc = some i) : encode i = cmdWrite (0#24 ++ opc) := by
  rcases plainCommand_cases h with ⟨rfl, rfl⟩ | ⟨rfl, rfl⟩ | ⟨rfl, rfl⟩ | ⟨rfl, rfl⟩ | ⟨rfl, rfl⟩ | ⟨rfl, rfl⟩ | ⟨rfl, rfl⟩ <;> rfl

theorem toNat_of_plainCommand {opc : Byte} (h : plainCommand opc = some i) : opc.toNat ≤ 5 ∨ opc.toNat = 0x11 := by
  rcases plainCommand_cases h with ⟨rfl, -⟩ | ⟨rfl, -⟩ | ⟨rfl, -⟩ | ⟨rfl, -⟩ | ⟨rfl, -⟩ | ⟨rfl, -⟩ | ⟨rfl, -⟩ <;> decide

theorem decodeCmd_rawbits (ho : opcOf w = 0x10#8) (hr : reservedOf w = 0#3) (hl : (lenOf w).toNat ≤ 16) :
    decodeCmd w = .ok (.rawbits (lenOf w) (valueOf w)) := by
  have hp : plainCommand (opcOf w) = none := by rw [ho]; rfl
  simp only [decodeCmd, hp, if_pos ho, if_neg (not_not.2 hr), if_neg (Nat.not_lt.2 hl)]

/-- What a CMD word that decodes looks like: an opcode of R82 with nothing above it, or RAWBITS with its fields. -/
theorem decodeCmd_ok_cases (h : decodeCmd w = .ok i) :
    plainCommand (opcOf w) = some i ∧ w.toNat / 256 = 0 ∨
      opcOf w = 0x10#8 ∧ reservedOf w = 0#3 ∧ (lenOf w).toNat ≤ 16 ∧ i = .rawbits (lenOf w) (valueOf w) := by
  unfold decodeCmd at h
  split at h
  next j hp =>
    split at h
    next h0 => cases h; exact .inl ⟨hp, extractLsb'_above_opc_eq_zero_iff.1 h0⟩
    next => cases h
  next =>
    split at h
    next ho =>
      split at h
      next => cases h
      next hr =>
        split at h
        next => cases h
        next hl => cases h; exact .inr ⟨ho, not_not.1 hr, Nat.not_lt.1 hl, rfl⟩
    next => cases h

/-- A rejected CMD word is recorded (R84, R85). -/
theorem decodeCmd_error_word {x : DecodeError} (h : decodeCmd w = .error x) : x.word = w := by
  unfold decodeCmd at h
  repeat' split at h
  all_goals cases h <;> rfl

/-- A word that decodes is none of the illegal ones of R84 and R85. -/
theorem not_illegalWord_of_decodeCmd_ok (h : decodeCmd w = .ok i) : ¬ illegalWord w.toNat := by
  unfold illegalWord
  rcases decodeCmd_ok_cases h with ⟨hp, h0⟩ | ⟨ho, hr, hl, -⟩
  · have ho := toNat_of_plainCommand hp
    rw [opcOf_toNat] at ho
    omega
  · have ho' : w.toNat % 256 = 16 := by rw [← opcOf_toNat, ho]; rfl
    have hr' : w.toNat / 8192 % 8 = 0 := by rw [← reservedOf_toNat, hr]; rfl
    rw [lenOf_toNat] at hl
    omega

/-- An illegal word is rejected, with itself recorded (R84, R85). -/
theorem decodeCmd_of_illegalWord (h : illegalWord w.toNat) : ∃ r, decodeCmd w = .error ⟨r, w⟩ := by
  cases hd : decodeCmd w with
  | ok i => exact absurd h (not_illegalWord_of_decodeCmd_ok hd)
  | error x =>
    obtain rfl := decodeCmd_error_word hd
    exact ⟨x.reason, rfl⟩

/-! ## Decoder and encoder (R82, 46_commands.md R230..R232) -/

theorem decode_cmdWrite (w : Word) : decode (cmdWrite w) = decodeCmd w := rfl

theorem decode_regWrite {off : Offset} {lanes : Lanes} {v : Word} (hw : (Instr.regWrite off lanes v).wf = true) :
    decode (.write off lanes v) = .ok (.regWrite off lanes v) := by
  simp only [Instr.wf, Bool.and_or_distrib_left, Bool.not_or, Bool.and_eq_true, Bool.not_eq_true'] at hw
  obtain ⟨hcmd, hsample⟩ := hw
  simp only [decode, hcmd, hsample, Bool.false_eq_true, if_false]

/-- The access a word access to a known offset is. -/
theorem write_eq_of_wordAccess {off target : Offset} {lanes : Lanes} (h : (isWordAccess off lanes && off == target) = true)
    (v : Word) : Access.write off lanes v = .write target 0xF#4 v := by
  rw [Bool.and_eq_true, beq_iff_eq, isWordAccess_iff] at h
  obtain ⟨⟨rfl, -⟩, rfl⟩ := h
  rfl

theorem encode_of_decodeCmd (h : decodeCmd w = .ok i) : encode i = cmdWrite w := by
  rcases decodeCmd_ok_cases h with ⟨hp, h0⟩ | ⟨ho, hr, -, rfl⟩
  · rw [encode_of_plainCommand hp, ← eq_zero_append_opcOf h0]
  · rw [encode, ← ho, ← eq_append_fields hr]

/-! ## Samples (R87, 46_commands.md R230) -/

/-- The bytes of a word, as numbers (20_memory.md R69). -/
theorem byteOf_eq_ofNat (w : Word) (k : Nat) : byteOf w k = BitVec.ofNat 8 (w.toNat / 2 ^ (8 * k)) := by
  apply extractLsb'_eq_of_toNat
  rw [BitVec.toNat_ofNat]

/-- Where the four samples of a SAMPLE word go: to the places 4·SFILL to 4·SFILL + 3 of the block. -/
theorem State.storeSamples_ibuf_getElem (s : State) (w : Word) (m : Fin 64) : (s.storeSamples w).ibuf[m] =
    if m.val / 4 = s.sfill.toNat then byteOf w (m.val % 4) else s.ibuf[m] := by
  obtain ⟨m, hm⟩ := m
  simp only [State.storeSamples, Fin.getElem_fin, Vector.getElem_setIfInBounds]
  by_cases hj : m / 4 = s.sfill.toNat
  · obtain hr | hr | hr | hr : m % 4 = 0 ∨ m % 4 = 1 ∨ m % 4 = 2 ∨ m % 4 = 3 := by omega
    all_goals simp (disch := omega) only [hr, if_pos, if_neg]
  · simp (disch := omega) only [if_neg]

/-- A SAMPLE write in SCAN before the sixteenth stores its samples and no more. -/
theorem exec_sampleWrite_of_sfill_ne (hs : s.st = .scan) (hf : s.sfill ≠ 15#4) (w : Word) :
    exec (.sampleWrite w) s = .next (s.storeSamples w) := by
  rw [exec, execSampleWrite, command_legal (by simp [hs]), sampleBody, if_neg hf, finish_ok]

/-! ## The obligations -/

/-- Settles O1, by the instruction: a command's word has the fields it is made of, and a well-formed register write is no
word write to CMD or SAMPLE. -/
theorem decodeOfEncode : Obligations.DecodeOfEncode := by
  intro i hw
  cases i with
  | nop | start | qgen | hdefault | abort | softReset | rawflush | sampleWrite | regRead => rfl
  | rawbits len value =>
    have hl : len.toNat ≤ 16 := of_decide_eq_true hw
    rw [encode, decode_cmdWrite, decodeCmd_rawbits (opcOf_append ..) (reservedOf_append ..) (by rwa [lenOf_append]),
      lenOf_append, valueOf_append]
  | regWrite off lanes v => exact decode_regWrite hw

/-- Settles O2, by the access: a word write to CMD is made of the fields the decoder reads, and every other access keeps
all its parts. -/
theorem encodeOfDecode : Obligations.EncodeOfDecode := by
  intro a i h
  cases a with
  | read off lanes => cases h; rfl
  | write off lanes v =>
    simp only [decode] at h
    split_ifs at h with hcmd hsample
    · rw [encode_of_decodeCmd h, write_eq_of_wordAccess hcmd, cmdWrite]
    · cases h
      rw [encode, write_eq_of_wordAccess hsample]
    · cases h; rfl

/-- Settles O3: the plain words are fixed, a RAWBITS word is read by its fields, and the illegal words are those that do not
decode. -/
theorem commandWordsDecode : Obligations.CommandWordsDecode := by
  intro w
  have hplain {n : Nat} {i : Instr} (hd : decode (cmdWrite (BitVec.ofNat 32 n)) = .ok i) (h : w.toNat = n) :
      decode (cmdWrite w) = .ok i := by
    rw [← hd, ← h, BitVec.ofNat_toNat, BitVec.setWidth_eq]
  refine ⟨hplain rfl, hplain rfl, hplain rfl, hplain rfl, hplain rfl, hplain rfl, hplain rfl, fun ho hr hl => ?_,
    decodeCmd_of_illegalWord⟩
  have ho' : opcOf w = 0x10#8 := BitVec.eq_of_toNat_eq (by rw [opcOf_toNat, ho]; rfl)
  have hr' : reservedOf w = 0#3 := BitVec.eq_of_toNat_eq (by rw [reservedOf_toNat, hr]; rfl)
  have hlen : lenOf w = BitVec.ofNat 5 (w.toNat / 256) := BitVec.eq_of_toNat_eq (lenOf_toNat w)
  have hvalue : valueOf w = BitVec.ofNat 16 (w.toNat / 65536) := BitVec.eq_of_toNat_eq (valueOf_toNat w)
  rw [decode_cmdWrite, decodeCmd_rawbits ho' hr' (by rwa [lenOf_toNat]), hlen, hvalue]

/-- Settles O6: the illegal word does not decode, and the step answers it by `illegalCommand`. -/
theorem illegalWordRaises : Obligations.IllegalWordRaises := by
  intro s w rest hp hw
  obtain ⟨r, hd⟩ := decodeCmd_of_illegalWord hw
  rw [step_of_decode_error hp hd, illegalCommand]
  exact ⟨fun hs => by rw [if_neg hs], fun hs => by rw [if_pos hs]; rfl⟩

/-- Settles O40: below 15, SFILL is not 15, so that the write only stores its samples. -/
theorem sampleStored : Obligations.SampleStored := by
  intro s w hs hf
  have hne : s.sfill ≠ 15#4 := fun h => by rw [h] at hf; exact absurd hf (by decide)
  refine ⟨s.storeSamples w, exec_sampleWrite_of_sfill_ne hs hne w, rfl, fun m => ?_⟩
  rw [s.storeSamples_ibuf_getElem w m, byteOf_eq_ofNat]

/-- Settles O4: the decoder evaluated on each access. -/
theorem specCommandWords : Obligations.SpecCommandWords :=
  ⟨rfl, rfl, rfl, rfl, rfl, rfl, rfl, rfl, rfl⟩

end Sys2Proof.Machine

/-! PROOFS of the family 40_transform.md: that the AC quantizer gives the admitted integers (R105, R108, R117) and that a
constant block has no AC coefficient (R106). -/

namespace Sys2Proof.Machine

/-! ## The level-shifted samples (40_transform.md R101) -/

theorem levelShift_bounds (b : Byte) : -128 ≤ levelShift b ∧ levelShift b ≤ 127 := by
  unfold levelShift
  omega

theorem map_levelShift_bounds (samples : List Byte) : ∀ v ∈ samples.map levelShift, -128 ≤ v ∧ v ≤ 127 :=
  List.forall_mem_map.2 fun b _ => levelShift_bounds b

/-! ## The AC quantizer rounds an admitted coefficient (40_transform.md R105, 41_quantizer.md R117) -/

/-- The F' that a value of the free choice stands for: the end of the interval that R105 admits on the side chosen. -/
noncomputable def admittedEnd (F : ℝ) (up : Bool) : ℝ := if up then F + dctEps else F - dctEps

theorem admittedEnd_within (F : ℝ) (up : Bool) : |admittedEnd F up - F| ≤ dctEps := by
  have he := dctEps_nonneg
  cases up with
  | false => simp [admittedEnd, abs_of_nonneg he]
  | true => simp [admittedEnd, abs_of_nonneg he]

/-- The two candidates of `quantAc_spec` are the floors of the two ends. -/
theorem quantAc_eq_floor {f : Root3} {F : ℝ} (hf : f.val = 16 * F) (hlo : -1020 ≤ F) (hhi : F ≤ 1020) {q : Nat}
    (hq : 1 ≤ q) (up : Bool) : quantAc f q up = ⌊admittedEnd F up / q + 1 / 2⌋ := by
  obtain ⟨m, hm, hm2, hup⟩ := quantAc_spec hf hlo hhi hq
  obtain ⟨hge, hle⟩ := abs_le.1 (admittedEnd_within F up)
  have hge' : (F - dctEps) / q ≤ admittedEnd F up / q := by gcongr; linarith
  have hle' : admittedEnd F up / q ≤ (F + dctEps) / q := by gcongr; linarith
  have hac : quantAc f q up = if (m : ℝ) + 1 ≤ admittedEnd F up / q + 1 / 2 then m + 1 else m := hup up
  rw [hac, eq_comm, Int.floor_eq_iff]
  split_ifs with h
  · push_cast
    exact ⟨h, by linarith⟩
  · exact ⟨by linarith, not_le.1 h⟩

/-- Rounding x/q asks of x only ⌊2x⌋, since a tie of any q lies at a multiple of 1/2. -/
theorem floor_div_add_half (x : ℝ) {q : Nat} (hq : 1 ≤ q) : ⌊x / q + 1 / 2⌋ = (⌊2 * x⌋ + q) / (2 * q : Nat) := by
  have hq0 : (q : ℝ) ≠ 0 := by positivity
  rw [← Int.floor_add_natCast, ← Int.floor_div_natCast]
  congr 1
  push_cast
  field_simp

/-- DCT_EPS is so small that every admitted F' agrees with one end of its interval in ⌊2F'⌋. -/
theorem exists_floor_two_admittedEnd_eq {F F' : ℝ} (h : |F' - F| ≤ dctEps) :
    ∃ up, ⌊2 * admittedEnd F up⌋ = ⌊2 * F'⌋ := by
  obtain ⟨hge, hle⟩ := abs_le.1 h
  have hwidth : ⌊2 * (F + dctEps)⌋ ≤ ⌊2 * (F - dctEps)⌋ + 1 := by
    rw [← Int.floor_add_one]
    exact Int.floor_mono (by have := dctEps_le; linarith)
  have hlow : ⌊2 * (F - dctEps)⌋ ≤ ⌊2 * F'⌋ := Int.floor_mono (by linarith)
  have hhigh : ⌊2 * F'⌋ ≤ ⌊2 * (F + dctEps)⌋ := Int.floor_mono (by linarith)
  by_cases heq : ⌊2 * (F - dctEps)⌋ = ⌊2 * F'⌋
  · exact ⟨false, heq⟩
  · exact ⟨true, show ⌊2 * (F + dctEps)⌋ = _ by omega⟩

/-- Settles O45: `quantAc` rounds the end of the interval that the free choice names; and any admitted F' rounds as one of
the two ends does, for all table entries at once, since they agree in ⌊2F'⌋. -/
theorem acIsAdmitted : Obligations.AcIsAdmitted := by
  intro samples n hlen h1 h64 s
  have hf : (coefTimes16 s n).val = 16 * dctCoef s n := coefTimes16_val (by rw [List.length_map, hlen]) n
  obtain ⟨hlo, hhi⟩ := dctCoef_bound (map_levelShift_bounds samples) (by omega : n ≠ 0) h64
  refine ⟨⟨admittedEnd (dctCoef s n) (Config.dctRoundsUp s n), admittedEnd_within _ _, fun q hq => ?_⟩, fun F' hF' => ?_⟩
  · rw [quantCoef, if_neg (by omega), quantAc_eq_floor hf hlo hhi hq]
  · obtain ⟨up, hup⟩ := exists_floor_two_admittedEnd_eq hF'
    refine ⟨up, fun q hq => ?_⟩
    rw [quantAc_eq_floor hf hlo hhi hq, floor_div_add_half _ hq, hup, floor_div_add_half _ hq]

/-! ## A constant block (40_transform.md R106) -/

theorem axisSum_dc : ∑ x ∈ Finset.range 8, (axisWeight 0 x).val = 8 * root1 := by
  have hw (x : Nat) : (axisWeight 0 x).val = root1 := by
    rw [axisWeight, twoCos_val, dctAngle, if_pos rfl, Nat.cast_ofNat, cos2_four]
  simp [hw]

/-- The coefficients of a constant block are products of the two axes' sums of weights. -/
theorem dctCoef_replicate (k : Int) (n : Nat) : 16 * dctCoef (List.replicate 64 k) n =
    k * ((∑ x ∈ Finset.range 8, (axisWeight (n % 8) x).val) * ∑ y ∈ Finset.range 8, (axisWeight (n / 8) y).val) := by
  rw [dctCoef_form, ← sum_block, Finset.mul_sum]
  refine Finset.sum_congr rfl fun m hm => ?_
  rw [List.getD_replicate _ (Finset.mem_range.1 hm)]

theorem dctCoef_replicate_dc (k : Int) : dctCoef (List.replicate 64 k) 0 = 8 * k := by
  have h := dctCoef_replicate k 0
  rw [Nat.zero_mod, Nat.zero_div, axisSum_dc] at h
  linear_combination h / 16 + (k : ℝ) * 4 * root1_sq

/-- One of the two axes of an AC coefficient has weights that cancel. -/
theorem dctCoef_replicate_ac (k : Int) {n : Nat} (h0 : n ≠ 0) (h : n < 64) : dctCoef (List.replicate 64 k) n = 0 := by
  have hform := dctCoef_replicate k n
  by_cases hu : n % 8 = 0
  · rw [axisSum_zero (u := n / 8) (by omega) (by omega)] at hform
    linarith
  · rw [axisSum_zero (u := n % 8) (by omega) hu] at hform
    linarith

/-- An admitted F' of the coefficient 0 rounds to 0. -/
theorem floor_admittedEnd_zero (up : Bool) {q : Nat} (hq : 1 ≤ q) : ⌊admittedEnd 0 up / q + 1 / 2⌋ = 0 := by
  obtain ⟨hge, hle⟩ := abs_le.1 (admittedEnd_within 0 up)
  have hq1 : (1 : ℝ) ≤ q := by exact_mod_cast hq
  have heps := dctEps_le
  have hlow : -(1 / 2) ≤ admittedEnd 0 up / q := by rw [le_div_iff₀ (by linarith)]; linarith
  have hhigh : admittedEnd 0 up / q < 1 / 2 := by rw [div_lt_iff₀ (by linarith)]; linarith
  rw [Int.floor_eq_zero_iff]
  constructor <;> linarith

/-- Settles O47: the coefficients are products of the axes' sums of weights; an AC coefficient is 0 and rounds to 0. -/
theorem constantBlock : Obligations.ConstantBlock := by
  intro b q n h64 hq s
  have hs : s = List.replicate 64 (levelShift b) := List.map_replicate
  rw [hs]
  by_cases h0 : n = 0
  · rw [h0, if_pos rfl]
    exact ⟨dctCoef_replicate_dc _, fun h => absurd rfl h⟩
  · have hF := dctCoef_replicate_ac (levelShift b) h0 h64
    have hf : (coefTimes16 (List.replicate 64 (levelShift b)) n).val = 16 * 0 := by
      rw [coefTimes16_val List.length_replicate, hF]
    refine ⟨by rw [if_neg h0, hF], fun _ => ?_⟩
    rw [quantCoef, if_neg h0, quantAc_eq_floor hf (by norm_num) (by norm_num) (hq n), floor_admittedEnd_zero _ (hq n)]

end Sys2Proof.Machine

/-! PROOFS of the family 41_quantizer.md: that the DC coefficient is quantized exactly (R116), the ranges of the quantized
coefficients (R118), and what QGEN stores in the quantization tables (R126). -/

namespace Sys2Proof.Machine

variable {s : State}

/-! ## The DC coefficient (40_transform.md R104, 41_quantizer.md R116) -/

theorem sampleSum_eq_sum (s : List Int) : sampleSum s = s.sum := List.sum_eq_foldl.symm

theorem sum_samples_bounds {s : List Int} (hlen : s.length = 64) (hs : ∀ v ∈ s, -128 ≤ v ∧ v ≤ 127) :
    -8192 ≤ s.sum ∧ s.sum ≤ 8128 := by
  have hlo := List.card_nsmul_le_sum s (-128) fun v hv => (hs v hv).1
  have hhi := List.sum_le_card_nsmul s 127 fun v hv => (hs v hv).2
  rw [hlen, nsmul_eq_mul] at hlo hhi
  omega

theorem sum_range_getD (s : List Int) : ∑ m ∈ Finset.range s.length, s.getD m 0 = s.sum := by
  rw [Finset.sum_range, ← Fin.sum_univ_getElem]
  exact Finset.sum_congr rfl fun m _ => List.getD_eq_getElem s 0 m.isLt

theorem axisWeight_dc_val (x : Nat) : (axisWeight 0 x).val = root1 := by
  rw [axisWeight, twoCos_val, dctAngle, if_pos rfl, Nat.cast_ofNat, cos2_four]

/-- All weights of the DC coefficient are √2·√2 = 2. -/
theorem dctCoef_dc {s : List Int} (hlen : s.length = 64) : dctCoef s 0 = (s.sum : ℝ) / 8 := by
  have hform := dctCoef_form s 0
  simp only [Nat.zero_mod, Nat.zero_div, axisWeight_dc_val, root1_sq] at hform
  rw [← Finset.sum_mul, ← hlen, ← Int.cast_sum, sum_range_getD] at hform
  linarith

/-- The integer division of R116 is the rounding of the quotient. -/
theorem quantDc_eq_floor (sum : Int) {q0 : Nat} (hq : 1 ≤ q0) : quantDc sum q0 = ⌊(sum : ℝ) / (8 * q0) + 1 / 2⌋ := by
  have hq0 : (q0 : ℝ) ≠ 0 := by positivity
  have hfrac : (sum : ℝ) / (8 * q0) + 1 / 2 = ((sum + 4 * q0 : Int) : ℝ) / (8 * q0 : Nat) := by
    push_cast
    field_simp
    ring
  rw [hfrac, Int.floor_div_natCast, Int.floor_intCast, quantDc, Nat.cast_mul, Nat.cast_ofNat]

theorem quantCoef_dc (s : List Int) (q : Nat → Nat) : quantCoef s q 0 = quantDc s.sum (q 0) := by
  rw [quantCoef, if_pos rfl, sampleSum_eq_sum]

/-- Settles O44: F[0] is the sum of the samples with equal weights, and R116 rounds its quotient. -/
theorem dcIsExact : Obligations.DcIsExact := by
  intro samples q hlen hq s
  refine ⟨dctCoef_dc ((List.length_map _).trans hlen), ?_⟩
  rw [quantCoef_dc, quantDc_eq_floor _ hq]

/-! ## Ranges (41_quantizer.md R118) -/

/-- A quantized AC coefficient of an F in −1020..1020 lies in −1020..1020: DCT_EPS is too small to lead out of it. -/
theorem quantAc_bounds {f : Root3} {F : ℝ} (hf : f.val = 16 * F) (hlo : -1020 ≤ F) (hhi : F ≤ 1020) {q : Nat} (hq : 1 ≤ q)
    (up : Bool) : -1020 ≤ quantAc f q up ∧ quantAc f q up ≤ 1020 := by
  obtain ⟨hge, hle⟩ := abs_le.1 (admittedEnd_within F up)
  have hq1 : (1 : ℝ) ≤ q := by exact_mod_cast hq
  have heps := dctEps_le
  have hlow : -(1020 + 1 / 2) ≤ admittedEnd F up / q := by rw [le_div_iff₀ (by linarith)]; linarith
  have hhigh : admittedEnd F up / q < 1020 + 1 / 2 := by rw [div_lt_iff₀ (by linarith)]; linarith
  rw [quantAc_eq_floor hf hlo hhi hq, Int.le_floor, ← Int.lt_add_one_iff, Int.floor_lt]
  constructor <;> push_cast <;> linarith

/-- Settles O46: the DC coefficient by the range of the sample sum, an AC coefficient by the range of F'. -/
theorem quantizedRanges : Obligations.QuantizedRanges := by
  intro samples q n hlen h64 hq c
  have hlen' : (samples.map levelShift).length = 64 := (List.length_map _).trans hlen
  have hs := map_levelShift_bounds samples
  refine ⟨fun h0 => ?_, fun h0 => ?_⟩
  · subst h0
    have hc : c = quantDc (samples.map levelShift).sum (q 0) := quantCoef_dc _ q
    obtain ⟨hlo, hhi⟩ := sum_samples_bounds hlen' hs
    exact hc ▸ quantDc_bounds hq hlo hhi
  · obtain ⟨hlo, hhi⟩ := dctCoef_bound hs h0 h64
    obtain ⟨hge, hle⟩ := quantAc_bounds (coefTimes16_val hlen' n) hlo hhi hq (Config.dctRoundsUp (samples.map levelShift) n)
    have hc : c = quantAc (coefTimes16 (samples.map levelShift) n) (q n) _ := if_neg h0
    omega

/-! ## The scale and the entries (41_quantizer.md R123..R125) -/

/-- The scale of QUALITY (R123, R124). -/
def State.quantScale (s : State) : Nat := qualityScale (clampQuality s.quality.toNat)

theorem clampQuality_eq (quality : Nat) : clampQuality quality = max 1 (min 100 quality) := by
  unfold clampQuality
  omega

theorem State.quantScale_of_eq_fifty (h : s.quality.toNat = 50) : s.quantScale = 100 := by
  rw [quantScale, h]
  rfl

theorem State.quantScale_of_hundred_le (h : 100 ≤ s.quality.toNat) : s.quantScale = 0 := by
  rw [quantScale, show clampQuality s.quality.toNat = 100 by unfold clampQuality; omega]
  rfl

theorem State.quantScale_of_le_one (h : s.quality.toNat ≤ 1) : s.quantScale = 5000 := by
  rw [quantScale, show clampQuality s.quality.toNat = 1 by unfold clampQuality; omega]
  rfl

theorem scaledEntry_eq (base scale : Nat) : scaledEntry base scale = max 1 (min 255 ((base * scale + 50) / 100)) := by
  unfold scaledEntry
  omega

theorem scaledEntry_le (base scale : Nat) : scaledEntry base scale ≤ 255 := Nat.min_le_left _ _

theorem scaledEntry_hundred {base : Nat} (h1 : 1 ≤ base) (h255 : base ≤ 255) : scaledEntry base 100 = base := by
  unfold scaledEntry
  omega

theorem scaledEntry_zero (base : Nat) : scaledEntry base 0 = 1 := by
  unfold scaledEntry
  omega

theorem scaledEntry_fiveThousand {base : Nat} (h : 6 ≤ base) : scaledEntry base 5000 = 255 := by
  unfold scaledEntry
  omega

/-! ## QGEN (41_quantizer.md R126) -/

/-- The base of each table (R121, R122). -/
def QTab.base : QTab → List Nat
  | .qt0 => lumaBase
  | .qt1 => chromaBase

/-- The base entries lie where scale 100 keeps them and scale 5000 takes them to 255. -/
theorem QTab.base_bounds (t : QTab) : ∀ i < 64, 6 ≤ t.base.getD i 0 ∧ t.base.getD i 0 ≤ 255 := by
  cases t <;> decide

/-- The entries QGEN stores, both tables (R126). -/
def generatedTables (scale : Nat) : List (Nat × Byte) :=
  generatedTable .qt0 lumaBase scale ++ generatedTable .qt1 chromaBase scale

theorem mem_generatedTables {t : QTab} {i : Nat} (hi : i < 64) (scale : Nat) :
    (qtAddr t i, BitVec.ofNat 8 (scaledEntry (t.base.getD i 0) scale)) ∈ generatedTables scale := by
  have hmem {t base} : (qtAddr t i, BitVec.ofNat 8 (scaledEntry (base.getD i 0) scale)) ∈ generatedTable t base scale :=
    List.mem_map_of_mem (List.mem_range.2 hi)
  cases t with
  | qt0 => exact List.mem_append_left _ hmem
  | qt1 => exact List.mem_append_right _ hmem

theorem generatedTables_addr {scale : Nat} {w : Nat × Byte} (hw : w ∈ generatedTables scale) : 0x200 ≤ w.1 ∧ w.1 < 0x400 := by
  have haddr {t base} (h : w ∈ generatedTable t base scale) : 0x200 ≤ w.1 ∧ w.1 < 0x400 := by
    obtain ⟨i, hi, rfl⟩ := List.mem_map.1 h
    have hi := List.mem_range.1 hi
    cases t <;> simp only [qtAddr, QTab.index] <;> omega
  exact (List.mem_append.1 hw).elim haddr haddr

/-- No two entries have one address. -/
theorem generatedTables_nodup (scale : Nat) : ((generatedTables scale).map Prod.fst).Nodup := by
  have haddrs : (generatedTables scale).map Prod.fst =
      (List.range 64).map (qtAddr .qt0) ++ (List.range 64).map (qtAddr .qt1) := by
    simp [generatedTables, generatedTable, Function.comp_def]
  have hinj (t : QTab) : Function.Injective (qtAddr t) := fun i j (h : 0x200 + _ + 4 * i = 0x200 + _ + 4 * j) => by omega
  rw [haddrs]
  refine (List.nodup_range.map (hinj .qt0)).append (List.nodup_range.map (hinj .qt1)) fun a h0 h1 => ?_
  obtain ⟨i, hi, rfl⟩ := List.mem_map.1 h0
  obtain ⟨j, -, h⟩ := List.mem_map.1 h1
  have hi := List.mem_range.1 hi
  simp only [qtAddr, QTab.index] at h
  omega

theorem State.generateTables_tables (s : State) :
    s.generateTables.tables = Memory.writeAll .tables s.tables (generatedTables s.quantScale) := by
  simp only [State.generateTables, generatedTables, State.quantScale]
  split
  · rw [State.setQclamp_tables, State.storeTables_tables]
  · rw [State.storeTables_tables]

theorem State.generateTables_frame (s : State) : s.generateTables = { s with
    tables := s.generateTables.tables
    flags := if s.quality.toNat < 1 ∨ 100 < s.quality.toNat then s.flags ||| qclampBit else s.flags } := by
  simp only [State.generateTables]
  split <;> rfl

/-- Every entry of both tables is the one of R125. -/
theorem State.generateTables_qt_toNat (hwf : Memory.wf .tables s.tables = true) (t : QTab) {i : Nat} (hi : i < 64) :
    (s.generateTables.qt t i).toNat = scaledEntry (t.base.getD i 0) s.quantScale := by
  have hread : s.generateTables.qt t i = BitVec.ofNat 8 (scaledEntry (t.base.getD i 0) s.quantScale) := by
    rw [State.qt, State.table, s.generateTables_tables]
    exact Memory.read_writeAll_mem hwf (generatedTables_nodup _) (mem_generatedTables hi _)
  rw [hread, BitVec.toNat_ofNat, Nat.mod_eq_of_lt (Nat.lt_succ_of_le (scaledEntry_le _ _))]

theorem State.generateTables_table_outside {a : Nat} (ha : a < 0x200 ∨ 0x400 ≤ a) :
    s.generateTables.table a = s.table a := by
  rw [State.table, s.generateTables_tables]
  refine Memory.read_writeAll_other fun w hw => ?_
  have haddr := generatedTables_addr hw
  omega

theorem exec_qgen_of_idle (hs : s.st = .idle) : exec .qgen s = .next s.generateTables := by
  have hlegal : legalIdle s.st = true := by rw [hs]; rfl
  have harm : exec .qgen s = execQgen s := rfl
  rw [harm, execQgen, command_legal hlegal, finish_ok]

/-- Settles O22: QGEN stores R125's entry in each place of both tables; at QUALITY 50, from 100 on and up to 1 the scale is
100, 0 and 5000. -/
theorem qgenGeneratesTables : Obligations.QgenGeneratesTables := by
  intro s hs hwf qual scale
  have hscale : s.quantScale = scale := by rw [State.quantScale, clampQuality_eq]; rfl
  refine ⟨s.generateTables, exec_qgen_of_idle hs, s.generateTables_frame, fun i hi => ?_,
    fun a ha => State.generateTables_table_outside ha⟩
  have hqt (t : QTab) := State.generateTables_qt_toNat hwf t hi
  have hentry (t : QTab) : (s.generateTables.qt t i).toNat = max 1 (min 255 ((t.base.getD i 0 * scale + 50) / 100)) := by
    rw [hqt, scaledEntry_eq, hscale]
  have hfifty (h : s.quality.toNat = 50) (t : QTab) : (s.generateTables.qt t i).toNat = t.base.getD i 0 := by
    obtain ⟨h6, h255⟩ := t.base_bounds i hi
    rw [hqt, State.quantScale_of_eq_fifty h, scaledEntry_hundred (by omega) h255]
  have hones (h : 100 ≤ s.quality.toNat) (t : QTab) : s.generateTables.qt t i = 1#8 := by
    apply BitVec.eq_of_toNat_eq
    rw [hqt, State.quantScale_of_hundred_le h, scaledEntry_zero]
    rfl
  have hmax (h : s.quality.toNat ≤ 1) (t : QTab) : s.generateTables.qt t i = 255#8 := by
    apply BitVec.eq_of_toNat_eq
    rw [hqt, State.quantScale_of_le_one h, scaledEntry_fiveThousand (t.base_bounds i hi).1]
    rfl
  exact ⟨hentry .qt0, hentry .qt1, fun h => ⟨hfifty h .qt0, hfifty h .qt1⟩, fun h => ⟨hones h .qt0, hones h .qt1⟩,
    fun h => ⟨hmax h .qt0, hmax h .qt1⟩⟩

end Sys2Proof.Machine

/-! PROOFS of the family 42_zigzag_rle.md: the zigzag table and its inverse, what the run-length symbols of a block expand to,
and where EOB and ZRL stand among them. -/

namespace Sys2Proof.Machine

variable {u : List Int} {v : Int}

/-! ## Zigzag (42_zigzag_rle.md R135) -/

/-- Settles O48: the two tables are finite, and each undoes the other entry by entry. -/
theorem zigzagIsBijection : Obligations.ZigzagIsBijection := by
  unfold Obligations.ZigzagIsBijection
  exact ⟨rfl, by decide, by decide, rfl, rfl⟩

/-! ## A block up to its last nonzero value (42_zigzag_rle.md R138) -/

theorem eq_zeros_or_lastNonzero_split (l : List Int) :
    l = List.replicate l.length 0 ∨ ∃ u v n, v ≠ 0 ∧ l = u ++ v :: List.replicate n 0 := by
  induction l with
  | nil => exact .inl rfl
  | cons x l ih =>
    rcases ih with hzeros | ⟨u, v, n, hv, rfl⟩
    · by_cases hx : x = 0
      · exact .inl (by rw [hx, List.length_cons, List.replicate_succ, ← hzeros])
      · exact .inr ⟨[], x, l.length, hx, by rw [List.nil_append, ← hzeros]⟩
    · exact .inr ⟨x :: u, v, n, hv, rfl⟩

@[simp] theorem lastNonzero_zeros (n : Nat) : lastNonzero (List.replicate n 0) = 0 := by
  induction n with
  | zero => rfl
  | succ n ih => simp [List.replicate_succ, lastNonzero, ih]

theorem rle_zeros (n : Nat) : rle (List.replicate n 0) = [.eob] := by
  simp only [rle, lastNonzero_zeros, if_true]

theorem lastNonzero_append_zeros (u : List Int) (hv : v ≠ 0) (n : Nat) :
    lastNonzero (u ++ v :: List.replicate n 0) = u.length + 1 := by
  induction u with
  | nil => simp [lastNonzero, hv]
  | cons x u ih => simp [lastNonzero, ih]

/-- The symbols of a block: EOB alone, or the scan up to the last nonzero value, and EOB where zeros follow (R140). -/
theorem rle_cases {ac : List Int} (hlen : ac.length = 63) :
    (ac = List.replicate 63 0 ∧ rle ac = [.eob]) ∨
    ∃ u v n, v ≠ 0 ∧ ac = u ++ v :: List.replicate n 0 ∧ u.length + n = 62 ∧
      rle ac = rleScan 0 (u ++ [v]) ++ if n = 0 then [] else [.eob] := by
  rcases eq_zeros_or_lastNonzero_split ac with hzeros | ⟨u, v, n, hv, rfl⟩
  · rw [hlen] at hzeros
    exact .inl ⟨hzeros, by rw [hzeros, rle_zeros]⟩
  · have hn : u.length + n = 62 := by simpa [← Nat.add_assoc] using hlen
    have htake : (u ++ v :: List.replicate n 0).take (u.length + 1) = u ++ [v] := by simp [List.take_append]
    refine .inr ⟨u, v, n, hv, rfl, hn, ?_⟩
    simp only [rle, lastNonzero_append_zeros u hv, htake]
    rcases n with _ | n
    · simp [show ¬ u.length + 1 < 63 by omega]
    · simp [show u.length + 1 < 63 by omega]

/-! ## The scan (42_zigzag_rle.md R138, R139) -/

/-- A scan that ends at a nonzero value stands for the values scanned, after the zeros already counted. -/
theorem rleScan_values (run : Nat) (u : List Int) (hv : v ≠ 0) :
    (rleScan run (u ++ [v])).flatMap RleSym.values = List.replicate run 0 ++ (u ++ [v]) := by
  induction u generalizing run with
  | nil => simp [rleScan, hv, RleSym.values]
  | cons x u ih =>
    have hzero (k : Nat) (l : List Int) : List.replicate (k + 1) 0 ++ l = List.replicate k 0 ++ 0 :: l := by
      rw [List.replicate_succ', List.append_assoc, List.singleton_append]
    simp only [List.cons_append, rleScan]
    split
    case isFalse => simp [RleSym.values, ih]
    case isTrue hx =>
      subst hx
      split
      · obtain rfl : run = 15 := by omega
        simp only [List.flatMap_cons, RleSym.values, ih, hzero, List.replicate_zero, List.nil_append]
      · rw [ih, hzero]

theorem rleScan_getLast? (run : Nat) (u : List Int) (hv : v ≠ 0) :
    ∃ r, (rleScan run (u ++ [v])).getLast? = some (.rv r v) := by
  induction u generalizing run with
  | nil => exact ⟨run, by simp [rleScan, hv]⟩
  | cons x u ih =>
    obtain ⟨r, hr⟩ := ih 0
    simp only [List.cons_append, rleScan]
    split
    · split
      · exact ⟨r, by simp [List.getLast?_cons, hr]⟩
      · exact ih (run + 1)
    · exact ⟨r, by simp [List.getLast?_cons, hr]⟩

theorem eob_notMem_rleScan (run : Nat) (l : List Int) : RleSym.eob ∉ rleScan run l := by
  induction l generalizing run with
  | nil => simp [rleScan]
  | cons x l ih =>
    simp only [rleScan]
    split
    · split <;> simp [ih]
    · simp [ih]

theorem rleScan_length_le (run : Nat) (l : List Int) : (rleScan run l).length ≤ l.length := by
  induction l generalizing run with
  | nil => simp [rleScan]
  | cons x l ih =>
    have h0 := ih 0
    have hsucc := ih (run + 1)
    simp only [rleScan]
    split
    · split <;> simp only [List.length_cons] <;> omega
    · simp only [List.length_cons]; omega

/-! ## Symbols back to coefficients (42_zigzag_rle.md R139, R142) -/

theorem expandRle_append_eob (syms : List RleSym) : expandRle (syms ++ [.eob]) = expandRle syms := by
  simp [expandRle, RleSym.values]

theorem expandRle_rleScan (u : List Int) (hv : v ≠ 0) :
    expandRle (rleScan 0 (u ++ [v])) = u ++ v :: List.replicate (62 - u.length) 0 := by
  simp [expandRle, rleScan_values 0 u hv]

/-- Settles O49: the scan stands for the values up to the last nonzero one, and the zeros after it fill up the block. -/
theorem rleExpandsBack : Obligations.RleExpandsBack := by
  intro ac hlen
  rcases rle_cases hlen with ⟨rfl, hrle⟩ | ⟨u, v, n, hv, rfl, hn, hrle⟩
  · rw [hrle]; rfl
  · have hscan : expandRle (rleScan 0 (u ++ [v])) = u ++ v :: List.replicate n 0 := by
      rw [expandRle_rleScan u hv, ← hn, Nat.add_sub_cancel_left]
    rw [hrle]
    split
    · rw [List.append_nil, hscan]
    · rw [expandRle_append_eob, hscan]

/-! ## Where EOB and ZRL stand (42_zigzag_rle.md R140, R141) -/

theorem rleScan_getLast?_ne_zrl (u : List Int) (hv : v ≠ 0) : (rleScan 0 (u ++ [v])).getLast? ≠ some .zrl := by
  obtain ⟨r, hlast⟩ := rleScan_getLast? 0 u hv
  simp [hlast]

/-- R142. -/
theorem rle_length_bounds {ac : List Int} (hlen : ac.length = 63) : 1 ≤ (rle ac).length ∧ (rle ac).length ≤ 63 := by
  rcases rle_cases hlen with ⟨-, hrle⟩ | ⟨u, v, n, hv, -, hn, hrle⟩
  · simp [hrle]
  · have hle : (rleScan 0 (u ++ [v])).length ≤ u.length + 1 := by simpa using rleScan_length_le 0 (u ++ [v])
    have hpos : 0 < (rleScan 0 (u ++ [v])).length := by
      obtain ⟨r, hlast⟩ := rleScan_getLast? 0 u hv
      exact List.length_pos_of_mem (List.mem_of_getLast? hlast)
    rw [hrle, List.length_append]
    split <;> simp only [List.length_nil, List.length_cons] <;> omega

/-- The last coefficient of a block is zero exactly when zeros follow its last nonzero value. -/
theorem getD_last_eq_zero_iff {n : Nat} (hv : v ≠ 0) (hn : u.length + n = 62) :
    (u ++ v :: List.replicate n 0).getD 62 0 = 0 ↔ n ≠ 0 := by
  rw [List.getD_append_right _ _ _ _ (by omega), show 62 - u.length = n by omega]
  rcases n with _ | n
  · simp [hv]
  · simp

/-- Settles O50: the symbols are a scan that ends with the last nonzero value, and EOB after it where zeros follow. -/
theorem rleSymbolRules : Obligations.RleSymbolRules := by
  intro ac hlen
  have hbounds := rle_length_bounds hlen
  rcases rle_cases hlen with ⟨rfl, hrle⟩ | ⟨u, v, n, hv, rfl, hn, hrle⟩
  · exact ⟨fun _ => ⟨[], hrle, by simp, by simp⟩, fun hlast => absurd rfl hlast, fun _ => hrle, fun _ _ => rle_mem, hbounds⟩
  · have heob := eob_notMem_rleScan 0 (u ++ [v])
    have hzrl := rleScan_getLast?_ne_zrl u hv
    refine ⟨fun hlast => ?_, fun hlast => ?_, fun hzeros => absurd (hzeros v (by simp)) hv, fun _ _ => rle_mem, hbounds⟩
    · rw [if_neg ((getD_last_eq_zero_iff hv hn).1 hlast)] at hrle
      exact ⟨_, hrle, heob, hzrl⟩
    · rw [if_pos (not_not.1 (mt (getD_last_eq_zero_iff hv hn).2 hlast)), List.append_nil] at hrle
      rw [hrle]
      exact ⟨heob, hzrl⟩

end Sys2Proof.Machine

/-! PROOFS of the family 43_huffman.md: category and value bits, the table that build finds and when it finds one, that its
codes are a prefix code, the default tables, and the first symbol of a block without a code. -/

namespace Sys2Proof.Machine

variable {s : State} {h : HTab} {l : List HuffEntry} {v : Int}

/-! ## Category and value bits (43_huffman.md R154, R155) -/

theorem category_of_ne_zero (hv : v ≠ 0) : category v = v.natAbs.log2 + 1 := if_neg hv

theorem two_pow_category_pred_le (hv : v ≠ 0) : 2 ^ (category v - 1) ≤ v.natAbs := by
  rw [category_of_ne_zero hv, Nat.add_sub_cancel]
  exact Nat.log2_self_le (Int.natAbs_ne_zero.2 hv)

theorem valueBits_of_pos (hv : 0 < v) : valueBits v = v.natAbs := by
  rw [valueBits, if_pos hv]
  omega

theorem valueBits_cast_of_neg (hv : v < 0) : (valueBits v : Int) = v + 2 ^ category v - 1 := by
  have hlt : (v.natAbs : Int) < 2 ^ category v := by exact_mod_cast category_lt v
  rw [valueBits, if_neg (by omega), Int.toNat_of_nonneg (by omega)]

theorem valueBits_of_neg (hv : v < 0) : valueBits v = 2 ^ category v - (v.natAbs + 1) := by
  have hlt := category_lt v
  have hcast := valueBits_cast_of_neg hv
  have hpow : ((2 ^ category v : Nat) : Int) = 2 ^ category v := by push_cast; rfl
  omega

theorem map_not_lowBits {w n : Nat} (b : BitVec w) (hn : n ≤ w) : (lowBits b n).map (!·) = lowBits (~~~b) n := by
  induction n with
  | zero => rfl
  | succ n ih => simp [lowBits, ih (by omega), show n < w by omega]

/-- In n bits, 2^n − 1 − k is the complement of k. -/
theorem lowBits_two_pow_sub_succ {k n : Nat} (hk : k < 2 ^ n) (hn : n ≤ 16) :
    lowBits (BitVec.ofNat 16 (2 ^ n - (k + 1))) n = (lowBits (BitVec.ofNat 16 k) n).map (!·) := by
  rw [map_not_lowBits _ hn]
  refine lowBits_congr fun i hi => ?_
  rw [BitVec.getLsbD_not, BitVec.getLsbD_ofNat, BitVec.getLsbD_ofNat, Nat.testBit_two_pow_sub_succ hk]
  simp [hi, show i < 16 by omega]

/-- Of the bits of |v| the first is the highest, a 1. -/
theorem lowBits_natAbs_head? (hv : v ≠ 0) (hc : category v ≤ 16) :
    (lowBits (BitVec.ofNat 16 v.natAbs) (category v)).head? = some true := by
  rw [category_of_ne_zero hv] at hc ⊢
  simp [lowBits, BitVec.getLsbD_ofNat, Nat.testBit_log2 (Int.natAbs_ne_zero.2 hv), show v.natAbs.log2 < 16 by omega]

/-- Settles O51, by the sign of the value. -/
theorem categoryAndValueBits : Obligations.CategoryAndValueBits := by
  refine ⟨fun v => ⟨fun hv => if_pos hv, fun hv => ⟨two_pow_category_pred_le hv, Nat.le_sub_one_of_lt (category_lt v)⟩⟩,
    fun v hv hc => ⟨fun hpos => ?_, fun hneg => ⟨valueBits_cast_of_neg hneg, ?_⟩⟩⟩
  · rw [valueBits_of_pos hpos]
    exact ⟨Int.natAbs_of_nonneg hpos.le, lowBits_natAbs_head? hv hc⟩
  · rw [valueBits_of_neg hneg]
    exact lowBits_two_pow_sub_succ (category_lt v) hc

/-! ## The canonical codes of a table (43_huffman.md R151) -/

/-- How many symbols have codes of the first `len` lengths. -/
def State.symbolsBelow (s : State) (h : HTab) (len : Nat) : Nat :=
  ((List.range len).map fun i => (s.htBits h (i + 1)).toNat).sum

/-- The i-th code of length len + 1. -/
def State.canonicalCode (s : State) (h : HTab) (len i : Nat) : HuffEntry :=
  ⟨s.htVal h (s.symbolsBelow h len + i), BitVec.ofNat 16 (2 * s.codeSpace h len + i), len + 1⟩

/-- The codes of length len + 1, in the order of the symbols. -/
def State.codesAfter (s : State) (h : HTab) (len : Nat) : List HuffEntry :=
  (List.range (s.htBits h (len + 1)).toNat).map (s.canonicalCode h len)

/-- The canonical codes of the first `len` lengths, in the order of the symbols. -/
def State.canonicalCodes (s : State) (h : HTab) (len : Nat) : List HuffEntry := (List.range len).flatMap (s.codesAfter h)

@[simp] theorem State.canonicalCode_sym (len i : Nat) :
    (s.canonicalCode h len i).sym = s.htVal h (s.symbolsBelow h len + i) := rfl

@[simp] theorem State.canonicalCode_len (len i : Nat) : (s.canonicalCode h len i).len = len + 1 := rfl

theorem State.symbolsBelow_succ (len : Nat) :
    s.symbolsBelow h (len + 1) = s.symbolsBelow h len + (s.htBits h (len + 1)).toNat := by
  simp [State.symbolsBelow, List.range_succ]

theorem State.codeSpace_succ (len : Nat) :
    s.codeSpace h (len + 1) = 2 * s.codeSpace h len + (s.htBits h (len + 1)).toNat := by
  have hdouble : ∀ i ∈ List.range len, (s.htBits h (i + 1)).toNat * 2 ^ (len + 1 - (i + 1)) =
      2 * ((s.htBits h (i + 1)).toNat * 2 ^ (len - (i + 1))) := by
    intro i hi
    rw [show len + 1 - (i + 1) = len - (i + 1) + 1 by have := List.mem_range.1 hi; omega, pow_succ]
    ring
  rw [State.codeSpace, List.range_succ, List.map_append, List.sum_append, List.map_congr_left hdouble, List.sum_map_mul_left]
  simp [State.codeSpace]

theorem State.canonicalCodes_succ (len : Nat) :
    s.canonicalCodes h (len + 1) = s.canonicalCodes h len ++ s.codesAfter h len := by
  simp [State.canonicalCodes, List.range_succ]

theorem State.canonicalCodes_sublist {m n : Nat} (hmn : m ≤ n) :
    (s.canonicalCodes h m).Sublist (s.canonicalCodes h n) :=
  (List.range_sublist.2 hmn).flatMap _

theorem State.mem_canonicalCodes {x : HuffEntry} {n : Nat} : x ∈ s.canonicalCodes h n ↔
    ∃ len i, len < n ∧ i < (s.htBits h (len + 1)).toNat ∧ x = s.canonicalCode h len i := by
  simp [State.canonicalCodes, State.codesAfter, eq_comm]

/-- The symbols take the codes in the order of HUFFVAL. -/
theorem State.canonicalCodes_syms (len : Nat) : (s.canonicalCodes h len).map HuffEntry.sym =
    (List.range (s.symbolsBelow h len)).map (s.htVal h) := by
  induction len with
  | zero => rfl
  | succ len ih =>
    rw [State.canonicalCodes_succ, State.symbolsBelow_succ, List.map_append, ih, List.range_add]
    simp [State.codesAfter, Function.comp_def]

/-! ## build (43_huffman.md R150, R151) -/

/-- The inner loop of build succeeds exactly where it meets no symbol for the second time. -/
theorem assignCodes_isOk_iff {val : Nat → Byte} {len count code k : Nat} {done : List HuffEntry}
    (hd : (done.map HuffEntry.sym).Nodup) : (∃ r, assignCodes h val len count code k done = .ok r) ↔
      ((List.range count).map (fun i => val (k + i)) ++ done.map HuffEntry.sym).Nodup := by
  induction count generalizing code k done with
  | zero => simpa [assignCodes] using hd
  | succ count ih =>
    have hrange : (List.range (count + 1)).map (fun i => val (k + i)) =
        val k :: (List.range count).map fun i => val (k + 1 + i) := by
      simp [List.range_succ_eq_map, Function.comp_def, Nat.add_assoc, Nat.add_comm 1]
    rw [assignCodes, hrange, List.cons_append, ← List.perm_middle.nodup_iff]
    by_cases hmem : ∃ e ∈ done, e.sym = val k
    · have hsym : val k ∈ done.map HuffEntry.sym := List.mem_map.2 hmem
      rw [if_pos (by simpa using hmem)]
      simp [List.nodup_append, List.nodup_cons, hsym]
    · have hsym : val k ∉ done.map HuffEntry.sym := fun hm => hmem (List.mem_map.1 hm)
      rw [if_neg (by simpa using hmem)]
      exact ih (done := ⟨val k, _, len⟩ :: done) (List.nodup_cons.2 ⟨hsym, hd⟩)

/-- The inner loop of build goes from the canonical codes of the first `len` lengths to those of one length more. -/
theorem assignCodes_canonical {len : Nat} (hd : ((s.canonicalCodes h len).map HuffEntry.sym).Nodup)
    {r : Nat × Nat × List HuffEntry} :
    assignCodes h (s.htVal h) (len + 1) (s.htBits h (len + 1)).toNat (2 * s.codeSpace h len) (s.symbolsBelow h len)
      (s.canonicalCodes h len).reverse = .ok r ↔
    r = (s.codeSpace h (len + 1), s.symbolsBelow h (len + 1), (s.canonicalCodes h (len + 1)).reverse) ∧
      ((s.canonicalCodes h (len + 1)).map HuffEntry.sym).Nodup := by
  have hvalue {r : Nat × Nat × List HuffEntry} (hr : assignCodes h (s.htVal h) (len + 1) (s.htBits h (len + 1)).toNat
      (2 * s.codeSpace h len) (s.symbolsBelow h len) (s.canonicalCodes h len).reverse = .ok r) :
      r = (s.codeSpace h (len + 1), s.symbolsBelow h (len + 1), (s.canonicalCodes h (len + 1)).reverse) := by
    rw [assignCodes_ok hr, State.codeSpace_succ, State.symbolsBelow_succ, State.canonicalCodes_succ, List.reverse_append,
      State.codesAfter, List.map_reverse]
    rfl
  have hnodup : ((s.canonicalCodes h (len + 1)).map HuffEntry.sym).Nodup ↔
      ((List.range (s.htBits h (len + 1)).toNat).map (fun i => s.htVal h (s.symbolsBelow h len + i)) ++
        (s.canonicalCodes h len).reverse.map HuffEntry.sym).Nodup := by
    rw [State.canonicalCodes_succ, List.map_append, State.codesAfter, List.map_map, List.map_reverse]
    exact (List.perm_append_comm.trans ((List.reverse_perm _).symm.append_left _)).nodup_iff
  rw [hnodup, ← assignCodes_isOk_iff (by rwa [List.map_reverse, List.nodup_reverse])]
  constructor
  · exact fun hr => ⟨hvalue hr, r, hr⟩
  · rintro ⟨rfl, r, hr⟩
    rw [hr, hvalue hr]

/-- One turn of the outer loop of build: the codes of a length are assigned, they fit it, and the other lengths follow. -/
theorem buildLengths_cons_eq_ok_iff {val : Nat → Byte} {count len code k : Nat} {counts : List Nat} {done : List HuffEntry} :
    buildLengths h val (count :: counts) len code k done = .ok l ↔
      ∃ r, assignCodes h val len count code k done = .ok r ∧ r.1 ≤ 2 ^ len ∧
        buildLengths h val counts (len + 1) (2 * r.1) r.2.1 r.2.2 = .ok l := by
  rw [buildLengths]
  cases assignCodes h val len count code k done with
  | error e => simp [bind, Except.bind]
  | ok r =>
    simp only [bind, Except.bind, Except.ok.injEq, exists_eq_left']
    split
    · simp [Nat.not_le.2 ‹_›]
    · simp [Nat.le_of_not_lt ‹_›]

/-- The outer loop of build, with the codes of the first `len` lengths assigned and n lengths to come. -/
theorem buildLengths_canonical (n : Nat) {len : Nat} (hd : ((s.canonicalCodes h len).map HuffEntry.sym).Nodup) :
    buildLengths h (s.htVal h) ((List.range' len n).map fun i => (s.htBits h (i + 1)).toNat) (len + 1)
      (2 * s.codeSpace h len) (s.symbolsBelow h len) (s.canonicalCodes h len).reverse = .ok l ↔
    (∀ m, len < m → m ≤ len + n → s.codeSpace h m ≤ 2 ^ m) ∧ ((s.canonicalCodes h (len + n)).map HuffEntry.sym).Nodup ∧
      l = (s.canonicalCodes h (len + n)).reverse := by
  induction n generalizing len with
  | zero =>
    have hnone : ∀ m, len < m → m ≤ len + 0 → s.codeSpace h m ≤ 2 ^ m := fun m h1 h2 => by omega
    rw [List.range'_zero, List.map_nil, buildLengths, Except.ok.injEq, eq_comm]
    exact ⟨fun hl => ⟨hnone, hd, hl⟩, fun ⟨_, _, hl⟩ => hl⟩
  | succ n ih =>
    have hsplit : (∀ m, len < m → m ≤ len + 1 + n → s.codeSpace h m ≤ 2 ^ m) ↔
        s.codeSpace h (len + 1) ≤ 2 ^ (len + 1) ∧ ∀ m, len + 1 < m → m ≤ len + 1 + n → s.codeSpace h m ≤ 2 ^ m := by
      refine ⟨fun hfit => ⟨hfit _ (by omega) (by omega), fun m h1 h2 => hfit m (by omega) h2⟩,
        fun ⟨hfirst, hfit⟩ m h1 h2 => ?_⟩
      rcases Nat.lt_or_eq_of_le (Nat.succ_le_of_lt h1) with hlt | rfl
      · exact hfit m hlt h2
      · exact hfirst
    rw [List.range'_succ, List.map_cons, buildLengths_cons_eq_ok_iff, show len + (n + 1) = len + 1 + n by omega, hsplit]
    simp only [assignCodes_canonical hd]
    constructor
    · rintro ⟨r, ⟨rfl, hd'⟩, hspace, hrest⟩
      obtain ⟨hfit, hnodup, rfl⟩ := (ih hd').1 hrest
      exact ⟨⟨hspace, hfit⟩, hnodup, rfl⟩
    · rintro ⟨⟨hspace, hfit⟩, hnodup, rfl⟩
      have hd' := hnodup.sublist ((State.canonicalCodes_sublist (by omega : len + 1 ≤ len + 1 + n)).map _)
      exact ⟨_, ⟨rfl, hd'⟩, hspace, (ih hd').2 ⟨hfit, hnodup, rfl⟩⟩

/-- build answers exactly on the valid tables, and then the canonical codes, last assigned first. -/
theorem buildTable_eq_ok_iff : buildTable s h = .ok l ↔ s.validTable h ∧ l = (s.canonicalCodes h 16).reverse := by
  have hbuild : buildLengths h (s.htVal h) (s.bitCounts h) 1 0 0 [] = .ok l ↔ _ :=
    buildLengths_canonical 16 (len := 0) List.nodup_nil
  rw [State.canonicalCodes_syms] at hbuild
  rw [buildTable, State.validTable]
  by_cases hcount : 256 < s.symbolCount h
  · rw [if_pos hcount]
    exact ⟨nofun, fun ⟨⟨hle, _⟩, _⟩ => absurd hle (Nat.not_le.2 hcount)⟩
  · rw [if_neg hcount, hbuild]
    exact ⟨fun ⟨hfit, hnodup, hl⟩ => ⟨⟨Nat.le_of_not_lt hcount, hfit, hnodup⟩, hl⟩,
      fun ⟨⟨_, hfit, hnodup⟩, hl⟩ => ⟨hfit, hnodup, hl⟩⟩

/-- Settles O31: the table build answers is determined, so that it answers one says that the table is valid. -/
theorem buildSucceedsOnValidTables : Obligations.BuildSucceedsOnValidTables := by
  intro s h
  simp only [buildTable_eq_ok_iff, exists_and_left, exists_eq, and_true]

/-! ## The codes are a prefix code (43_huffman.md R152) -/

/-- The code space taken by a length is taken, in the bits of every greater length, too. -/
theorem State.two_pow_mul_codeSpace_le (s : State) (h : HTab) (len n : Nat) :
    2 ^ n * s.codeSpace h len ≤ s.codeSpace h (len + n) := by
  induction n with
  | zero => simp
  | succ n ih =>
    rw [← Nat.add_assoc, State.codeSpace_succ, pow_succ]
    linarith

/-- A code lies in the code space of its length. -/
theorem State.canonicalCode_lt_codeSpace {len i : Nat} (hi : i < (s.htBits h (len + 1)).toNat) :
    2 * s.codeSpace h len + i < s.codeSpace h (len + 1) := by
  rw [State.codeSpace_succ]
  omega

section ValidTable

variable {len len' i i' : Nat} (hv : s.validTable h)
include hv

/-- In a valid table no code is cut to 16 bits. -/
theorem State.validTable.code_toNat (hlen : len < 16) (hi : i < (s.htBits h (len + 1)).toNat) :
    (s.canonicalCode h len i).code.toNat = 2 * s.codeSpace h len + i := by
  obtain ⟨-, hspace, -⟩ := hv
  have hfit := hspace (len + 1) (by omega) (by omega)
  have hpow : 2 ^ (len + 1) ≤ 2 ^ 16 := Nat.pow_le_pow_right (by decide) (by omega)
  have hlt := State.canonicalCode_lt_codeSpace hi
  exact Nat.mod_eq_of_lt (by omega)

theorem State.validTable.code_inj (hlen : len < 16) (hi : i < (s.htBits h (len + 1)).toNat)
    (hi' : i' < (s.htBits h (len + 1)).toNat)
    (heq : (s.canonicalCode h len i').code.toNat = (s.canonicalCode h len i).code.toNat) : i' = i := by
  rw [hv.code_toNat hlen hi, hv.code_toNat hlen hi'] at heq
  omega

/-- A longer code begins with a number past all codes of the shorter length. -/
theorem State.validTable.code_lt_prefix (hlt : len < len') (hlen' : len' < 16)
    (hi : i < (s.htBits h (len + 1)).toNat) (hi' : i' < (s.htBits h (len' + 1)).toNat) :
    (s.canonicalCode h len i).code.toNat < (s.canonicalCode h len' i').code.toNat / 2 ^ (len' - len) := by
  obtain ⟨n, rfl⟩ := Nat.exists_eq_add_of_lt hlt
  rw [hv.code_toNat (by omega) hi, hv.code_toNat hlen' hi', show len + n + 1 - len = n + 1 by omega]
  calc 2 * s.codeSpace h len + i < s.codeSpace h (len + 1) := State.canonicalCode_lt_codeSpace hi
    _ ≤ (2 * s.codeSpace h (len + n + 1) + i') / 2 ^ (n + 1) := by
      have hspace := s.two_pow_mul_codeSpace_le h (len + 1) n
      rw [Nat.add_right_comm] at hspace
      rw [Nat.le_div_iff_mul_le (Nat.two_pow_pos _), pow_succ]
      linarith

end ValidTable

/-- Settles O32: what build answers are the canonical codes; of two with different symbols, one is longer, or they have
different places in one length. -/
theorem builtCodesAreCanonical : Obligations.BuiltCodesAreCanonical := by
  intro s h l hl
  obtain ⟨hv, rfl⟩ := buildTable_eq_ok_iff.1 hl
  have hsyms : (s.canonicalCodes h 16).map HuffEntry.sym = (List.range (s.symbolCount h)).map (s.htVal h) :=
    State.canonicalCodes_syms 16
  refine ⟨fun len i h1 h16 hi => ?_, ?_, ?_, fun sym => ?_, ?_, fun x hx y hy hne hle => ?_⟩
  · obtain ⟨len, rfl⟩ := Nat.exists_eq_add_of_le' h1
    exact List.mem_reverse.2 (State.mem_canonicalCodes.2 ⟨len, i, h16, hi, rfl⟩)
  · simpa using congrArg List.length hsyms
  · have ⟨_, _, hnodup⟩ := hv
    rwa [List.map_reverse, List.nodup_reverse, hsyms]
  · have hmem : sym ∈ (s.canonicalCodes h 16).map HuffEntry.sym ↔
        sym ∈ (List.range (s.symbolCount h)).map (s.htVal h) := by rw [hsyms]
    simpa using hmem
  · rcases buildTable_cases s h with ⟨l, hl', hlens⟩ | ⟨info, hl'⟩
    · exact Except.ok.inj (hl'.symm.trans hl) ▸ hlens
    · exact nomatch hl'.symm.trans hl
  · obtain ⟨len, i, hlen, hi, rfl⟩ := State.mem_canonicalCodes.1 (List.mem_reverse.1 hx)
    obtain ⟨len', i', hlen', hi', rfl⟩ := State.mem_canonicalCodes.1 (List.mem_reverse.1 hy)
    rcases Nat.lt_or_eq_of_le (Nat.le_of_succ_le_succ hle) with hlt | rfl
    · simpa using (hv.code_lt_prefix hlt hlen' hi hi').ne'
    · intro heq
      have hii : i' = i := hv.code_inj hlen hi hi' (by simpa using heq)
      exact hne (by rw [hii])

/-! ## The default tables (43_huffman.md R159..R163) -/

/-- The symbols the core produces in a table (R156, R158), each once. -/
def HTab.coreSymbols (h : HTab) : List Byte := (List.ofFn (BitVec.ofFin (w := 8))).filter fun sym =>
  if h = .dc0 ∨ h = .dc1 then sym.toNat ≤ 11
  else sym = 0x00#8 ∨ sym = 0xF0#8 ∨ 1 ≤ sym.toNat % 16 ∧ sym.toNat % 16 ≤ 10

theorem HTab.mem_coreSymbols (h : HTab) (sym : Byte) : sym ∈ h.coreSymbols ↔
    if h = .dc0 ∨ h = .dc1 then sym.toNat ≤ 11
    else sym = 0x00#8 ∨ sym = 0xF0#8 ∨ 1 ≤ sym.toNat % 16 ∧ sym.toNat % 16 ≤ 10 := by
  have hall : sym ∈ List.ofFn (BitVec.ofFin (w := 8)) := List.mem_ofFn.2 ⟨sym.toFin, rfl⟩
  simp only [HTab.coreSymbols, List.mem_filter, hall, true_and]
  split <;> exact decide_eq_true_iff

theorem HTab.nodup_coreSymbols (h : HTab) : h.coreSymbols.Nodup :=
  (List.nodup_ofFn.2 fun _ _ heq => congrArg BitVec.toFin heq).filter _

/-- The default tables list the symbols the core produces, in the order of their code lengths. -/
theorem defaultVals_perm (h : HTab) : ((defaultVals h).map (BitVec.ofNat 8)).Perm h.coreSymbols := by
  cases h <;> decide +kernel

/-- What the RAM of a Huffman table holds after reset. -/
theorem reset_table (h : HTab) {r : Nat} (hr : r < 0x800) : State.reset.table (htBase h + r) =
    if r < 0x40 then BitVec.ofNat 8 ((defaultBits h).getD (r / 4) 0)
    else if r < 0x400 then 0#8
    else BitVec.ofNat 8 ((defaultVals h).getD ((r - 0x400) / 4) 0) := by
  have hi := h.index_lt
  show resetTable _ = _
  rw [resetTable, htBase, if_neg (by omega), if_neg (by omega), if_neg (by omega), if_neg (by omega), if_pos (by omega),
    show (0x1000 + 0x800 * h.index + r - 0x1000) / 0x800 = h.index by omega,
    show (0x1000 + 0x800 * h.index + r - 0x1000) % 0x800 = r by omega, HTab.ofIndex_index]

theorem reset_htVal (h : HTab) {k : Nat} (hk : k < 256) :
    State.reset.htVal h k = BitVec.ofNat 8 ((defaultVals h).getD k 0) := by
  rw [State.htVal, valAddr, Nat.add_assoc, reset_table h (by omega), if_neg (by omega), if_neg (by omega),
    Nat.add_sub_cancel_left, Nat.mul_div_cancel_left k (by decide)]

theorem reset_symbolCount (h : HTab) : State.reset.symbolCount h = (defaultVals h).length := by
  cases h <;> decide +kernel

theorem defaultVals_length_le (h : HTab) : (defaultVals h).length ≤ 162 := by
  cases h <;> decide +kernel

theorem reset_symbols (h : HTab) : (List.range (State.reset.symbolCount h)).map (State.reset.htVal h) =
    (defaultVals h).map (BitVec.ofNat 8) := by
  have hle := defaultVals_length_le h
  refine List.ext_getElem (by simp [reset_symbolCount]) fun k hk hk' => ?_
  have hlen : k < (defaultVals h).length := by simpa using hk'
  rw [List.getElem_map, List.getElem_map, List.getElem_range, reset_htVal h (by omega), List.getD_eq_getElem _ _ hlen]

/-- The default codes leave some of the code space of every length free. -/
theorem reset_codeSpace_lt (h : HTab) {len : Nat} (hlen : len ≤ 16) : State.reset.codeSpace h len < 2 ^ len := by
  have hall : ∀ len ∈ List.range 17, State.reset.codeSpace h len < 2 ^ len := by cases h <;> decide +kernel
  exact hall len (List.mem_range.2 (Nat.lt_succ_of_le hlen))

theorem reset_validTable (h : HTab) : State.reset.validTable h := by
  have hle := defaultVals_length_le h
  refine ⟨by rw [reset_symbolCount]; omega, fun len _ h16 => (reset_codeSpace_lt h h16).le, ?_⟩
  rw [reset_symbols, (defaultVals_perm h).nodup_iff]
  exact h.nodup_coreSymbols

/-- No default code is all 1-bits, since code space is left free, and none is of length 1. -/
theorem reset_canonicalCodes_bounds {x : HuffEntry} (hx : x ∈ State.reset.canonicalCodes h 16) :
    2 ≤ x.len ∧ x.code.toNat + 1 < 2 ^ x.len := by
  obtain ⟨len, i, hlen, hi, rfl⟩ := State.mem_canonicalCodes.1 hx
  have hspace := reset_codeSpace_lt h (show len + 1 ≤ 16 by omega)
  have hlt := State.canonicalCode_lt_codeSpace hi
  rw [(reset_validTable h).code_toNat hlen hi, State.canonicalCode_len]
  refine ⟨?_, by omega⟩
  rcases len with _ | len
  · have hnone : State.reset.htBits h 1 = 0#8 := by cases h <;> decide
    exact absurd hi (by simp [hnone])
  · omega

/-- Where the counts of the greater lengths are 0, no code is longer. -/
theorem State.canonicalCodes_len_le {x : HuffEntry} {n : Nat} (hx : x ∈ s.canonicalCodes h 16)
    (hnone : ∀ len < 16, n ≤ len → s.htBits h (len + 1) = 0#8) : x.len ≤ n := by
  obtain ⟨len, i, hlen, hi, rfl⟩ := State.mem_canonicalCodes.1 hx
  by_contra hlong
  rw [hnone len hlen (by rw [State.canonicalCode_len] at hlong; omega)] at hi
  exact absurd hi (Nat.not_lt_zero i)

/-- A default code is found by its length and its place in it. -/
theorem reset_mem_canonicalCodes {x : HuffEntry} (len i : Nat) (hlen : len < 16)
    (hi : i < (State.reset.htBits h (len + 1)).toNat) (hx : x = State.reset.canonicalCode h len i) :
    x ∈ (State.reset.canonicalCodes h 16).reverse :=
  List.mem_reverse.2 (State.mem_canonicalCodes.2 ⟨len, i, hlen, hi, hx⟩)

/-- Settles O52: build answers the canonical codes; those listed are named by their length and their place in it. -/
theorem defaultTablesComplete : Obligations.DefaultTablesComplete := by
  intro h
  have hbuild : buildTable State.reset h = .ok (State.reset.canonicalCodes h 16).reverse :=
    buildTable_eq_ok_iff.2 ⟨reset_validTable h, rfl⟩
  obtain ⟨-, -, -, hsyms, -⟩ := builtCodesAreCanonical _ _ _ hbuild
  refine ⟨_, hbuild, fun x hx => reset_canonicalCodes_bounds (List.mem_reverse.1 hx), fun sym => ?_, ?_⟩
  · rw [hsyms, ← h.mem_coreSymbols, ← (defaultVals_perm h).mem_iff, ← reset_symbols]
    simp
  · cases h with
    | dc0 =>
      exact ⟨reset_mem_canonicalCodes 8 0 (by decide) (by decide) (by decide +kernel),
        fun x hx => State.canonicalCodes_len_le (List.mem_reverse.1 hx) (by decide)⟩
    | ac0 =>
      exact ⟨⟨_, reset_mem_canonicalCodes 15 124 (by decide) (by decide) rfl, by decide +kernel, rfl⟩,
        reset_mem_canonicalCodes 3 0 (by decide) (by decide) (by decide +kernel),
        reset_mem_canonicalCodes 10 3 (by decide) (by decide) (by decide +kernel)⟩
    | dc1 =>
      exact ⟨reset_mem_canonicalCodes 10 0 (by decide) (by decide) (by decide +kernel),
        fun x hx => State.canonicalCodes_len_le (List.mem_reverse.1 hx) (by decide)⟩
    | ac1 =>
      exact ⟨⟨_, reset_mem_canonicalCodes 15 118 (by decide) (by decide) rfl, by decide +kernel, rfl⟩,
        reset_mem_canonicalCodes 1 0 (by decide) (by decide) (by decide +kernel),
        reset_mem_canonicalCodes 9 4 (by decide) (by decide) (by decide +kernel)⟩

/-! ## A symbol without a code (43_huffman.md R153, 60_exceptions.md R262, R264) -/

theorem State.codingStart_ehuf (s : State) (w : Word) : (s.codingStart w).ehuf = s.ehuf := by rw [s.codingStart_frame w]

theorem State.codingStart_olen (s : State) (w : Word) : (s.codingStart w).olen = s.olen := by rw [s.codingStart_frame w]

theorem State.codingStart_blkCount (s : State) (w : Word) : (s.codingStart w).blkCount = s.blkCount := by
  rw [s.codingStart_frame w]

theorem State.codingStart_flushed (s : State) (w : Word) : (s.codingStart w).flushed = s.flushed := by
  rw [s.codingStart_frame w]

theorem State.codingStart_pendingBits (s : State) (w : Word) : (s.codingStart w).pendingBits = s.pendingBits := by
  rw [s.codingStart_frame w]; rfl

theorem State.codingStart_accOk (hacc : s.accOk) (w : Word) : (s.codingStart w).accOk := by
  rw [s.codingStart_frame w]; exact hacc

/-- Settles O43: the sixteenth write codes the block's symbols, and those before x either fit the output or overflow it. -/
theorem undefinedSymbolRaises : Obligations.UndefinedSymbolRaises := by
  intro s w pre post x hs hinv h15 hsyms hpre hx cut
  obtain ⟨hacc, hflushed⟩ := hinv.packerReady (.inl hs)
  have hexec : exec (.sampleWrite w) s = _ := execSampleWrite_block hs (hinv.scan hs) h15
  have hcode := emitAll_undefined (post := post) (State.codingStart_accOk hacc w)
    ((s.codingStart_flushed w).trans hflushed) ((s.codingStart_ehuf w).symm ▸ hpre) ((s.codingStart_ehuf w).symm ▸ hx)
  rw [s.codingStart_blkCount, s.codingStart_olen, s.codingStart_pendingBits, s.codingStart_ehuf, undefinedInfo_eq] at hcode
  rw [hexec, hsyms]
  rcases hcode with ⟨hraise, hroom⟩ | ⟨hraise, hfull⟩
  · rw [hraise]
    exact ⟨fun _ => rfl, fun hover => absurd (hroom hinv.outputFits) (Nat.not_le.2 hover)⟩
  · rw [hraise]
    exact ⟨fun hroom => absurd hroom (Nat.not_le.2 hfull), fun _ => rfl⟩

end Sys2Proof.Machine

/-! PROOFS of the family 44_bitwriter.md: RAWBITS packs bit strings, two RAWBITS are one of both strings, and RAWFLUSH pads and
finishes. -/

namespace Sys2Proof.Machine

variable {s t : State}

/-! ## The RAW commands in RAW (46_commands.md R227, R228) -/

theorem exec_rawbits_of_raw (hs : s.st = .raw) {len : BitVec 5} (hlen : len.toNat ≤ 16) (v : BitVec 16) :
    exec (.rawbits len v) s = finish s (writeBits v len.toNat s) := by
  rw [exec, execRawbits, if_neg (Nat.not_lt.2 hlen), command_legal (by simp [legalRaw, hs])]

theorem exec_rawflush_of_raw (hs : s.st = .raw) : exec .rawflush s = finish s (rawflushBody s) := by
  rw [exec, execRawflush, command_legal (by simp [legalRaw, hs])]

/-- No block is coded in RAW, so BLK_COUNT, the detail of an OUTPUT_OVERFLOW, is 0 (60_exceptions.md R262). -/
theorem State.Inv.blkCount_of_raw (h : s.Inv) (hs : s.st = .raw) : s.blkCount = 0#32 :=
  (h.counts (.inr (.inr hs))).trans (h.noBlocks (.inr hs))

/-- Only error entry answers a next state for an operation that raised, so outside ERROR the operation answered it. -/
theorem finish_eq_next {r : Except Stop State} (hr : finish s r = .next t) (ht : t.st ≠ .error) : r = .ok t := by
  rcases r with (⟨e, info⟩ | f | x) | u
  · cases hr
    exact absurd (errorEntry_st s e info) ht
  · exact nomatch hr
  · exact nomatch hr
  · cases hr
    rfl

/-! ## Bit strings one after the other (44_bitwriter.md R172, R173) -/

theorem appendBits_congr {v v' : BitVec 16} {n : Nat} (h : ∀ i, i < n → v.getLsbD i = v'.getLsbD i) :
    appendBits v n = appendBits v' n := by
  induction n with
  | zero => rfl
  | succ n ih =>
    funext s
    rw [appendBits, appendBits, h n (Nat.lt_succ_self n), ih fun i hi => h i (hi.trans (Nat.lt_succ_self n))]

/-- The m + n bits of v are the m bits of a followed by the n bits of b. -/
theorem appendBits_add {v a b : BitVec 16} {m n : Nat} (hlow : ∀ i, i < n → v.getLsbD i = b.getLsbD i)
    (hhigh : ∀ i, i < m → v.getLsbD (i + n) = a.getLsbD i) (s : State) :
    appendBits v (m + n) s = appendBits a m s >>= appendBits b n := by
  induction m generalizing s with
  | zero => rw [Nat.zero_add, appendBits_congr hlow]; rfl
  | succ m ih =>
    rw [Nat.succ_add, appendBits, appendBits, hhigh m (Nat.lt_succ_self m), bind_assoc]
    congr 1
    funext t
    exact ih (fun i hi => hhigh i (hi.trans (Nat.lt_succ_self m))) t

/-- Bit i of the value a·2^n + b that holds both strings. -/
theorem getLsbD_concat (a b : BitVec 16) {n i : Nat} (hb : b.toNat < 2 ^ n) (hi : i < 16) :
    (BitVec.ofNat 16 (a.toNat * 2 ^ n + b.toNat)).getLsbD i =
      if i < n then b.getLsbD i else a.getLsbD (i - n) := by
  rw [BitVec.getLsbD_ofNat, Nat.mul_comm, Nat.testBit_two_pow_mul_add _ hb, decide_eq_true hi, Bool.true_and]
  rfl

theorem writeBits_eq_ok_iff {v : BitVec 16} {n : Nat} :
    writeBits v n s = .ok t ↔ s.flushed = false ∧ appendBits v n s = .ok t := by
  rw [writeBits]
  cases s.flushed <;> simp

/-- Writing a and then b is writing a·2^n + b. -/
theorem writeBits_concat {a b : BitVec 16} {m n : Nat} {u : State} (hmn : m + n ≤ 16) (hb : b.toNat < 2 ^ n)
    (ha : writeBits a m s = .ok t) (hu : writeBits b n t = .ok u) :
    writeBits (BitVec.ofNat 16 (a.toNat * 2 ^ n + b.toNat)) (m + n) s = .ok u := by
  obtain ⟨hflushed, ha⟩ := writeBits_eq_ok_iff.1 ha
  obtain ⟨-, hu⟩ := writeBits_eq_ok_iff.1 hu
  refine writeBits_eq_ok_iff.2 ⟨hflushed, ?_⟩
  rw [appendBits_add (a := a) (b := b), ha]
  · exact hu
  · intro i hi
    rw [getLsbD_concat a b hb (by omega), if_pos hi]
  · intro i hi
    rw [getLsbD_concat a b hb (by omega), if_neg (by omega), Nat.add_sub_cancel]

/-! ## The flush (44_bitwriter.md R174) -/

/-- What the flush outputs: nothing when no bit is pending, else the one padded byte, stuffed. -/
theorem State.stuffed_paddedBits (h : s.accOk) :
    stuffed (cutBytes s.paddedBits).1 = if s.nbits = 0#4 then [] else
      stuffed [byteOfBits (s.pendingBits ++ List.replicate (8 - s.nbits.toNat) true)] := by
  obtain ⟨hn, -⟩ := h
  by_cases h0 : s.nbits = 0#4
  · simp [State.paddedBits, State.pendingBits, h0, lowBits, cutBytes, stuffed]
  · have hlen : (s.pendingBits ++ List.replicate (8 - s.nbits.toNat) true).length = 8 := by
      rw [List.length_append, State.pendingBits, length_lowBits, List.length_replicate]
      omega
    have hcut := cutBytes_eight (rest := []) hlen
    rw [List.append_nil] at hcut
    rw [State.paddedBits, if_neg h0, if_neg h0, hcut]
    rfl

/-! ## The obligations -/

/-- Settles O37: write_bits packs the bit string, or raises OUTPUT_OVERFLOW for want of room. -/
theorem rawbitsPacksBits : Obligations.RawbitsPacksBits := by
  intro s len v hs hinv hlen cut
  obtain ⟨hacc, hflushed⟩ := hinv.packerReady (.inr hs)
  rw [exec_rawbits_of_raw hs hlen]
  rcases writeBits_packs v len.toNat hacc hflushed with ⟨t, ht, hp⟩ | ⟨hraise, hfull⟩
  · obtain ⟨hnbits, hacc'⟩ := hp.acc
    refine ⟨fun _ => ⟨t, by rw [ht, finish_ok], hp.frame, hp.out hinv.outputCanonical, hp.pending, hnbits, hacc'⟩,
      fun hover => ?_⟩
    have hfits := hp.fits hinv.outputFits
    rw [hp.len] at hfits
    exact absurd hfits (Nat.not_le.2 hover)
  · exact ⟨fun hroom => absurd hroom (Nat.not_le.2 hfull),
      fun _ => by rw [hraise, finish_raised, hinv.blkCount_of_raw hs]⟩

/-- Settles O38: the three RAWBITS are the three write_bits of `writeBits_concat`. -/
theorem rawbitsConcatenate : Obligations.RawbitsConcatenate := by
  intro s t u m n a b hmn hb hs ht hts hu hus
  have hlen : ∀ k ≤ 16, (BitVec.ofNat 5 k).toNat = k := fun k hk => Nat.mod_eq_of_lt (by omega)
  have hm := hlen m (by omega)
  have hn := hlen n (by omega)
  have hsum := hlen (m + n) hmn
  rw [exec_rawbits_of_raw hs (by omega), hm] at ht
  rw [exec_rawbits_of_raw hts (by omega), hn] at hu
  rw [exec_rawbits_of_raw hs (by omega), hsum,
    writeBits_concat hmn hb (finish_eq_next ht (by simp [hts])) (finish_eq_next hu (by simp [hus])), finish_ok]

/-- Settles O39: the flush outputs the padded byte, or raises OUTPUT_OVERFLOW for want of room; then comes DONE. -/
theorem rawflushFinishes : Obligations.RawflushFinishes := by
  intro s hs hinv out
  obtain ⟨hacc, hflushed⟩ := hinv.packerReady (.inr hs)
  have hout : stuffed (cutBytes s.paddedBits).1 = out := State.stuffed_paddedBits hacc
  have hflush := flush_cases hacc hflushed
  rw [hout] at hflush
  rw [exec_rawflush_of_raw hs, rawflushBody]
  rcases hflush with ⟨t, ht, frame, hlen, hfits, happends⟩ | ⟨hraise, hfull⟩
  · refine ⟨fun _ => ⟨t.enterDone, by rw [ht]; rfl, by rw [frame]; rfl,
      State.appends_congr rfl rfl rfl rfl (happends hinv.outputCanonical).1⟩, fun hover => ?_⟩
    exact absurd (hlen ▸ hfits hinv.outputFits) (Nat.not_le.2 hover)
  · refine ⟨fun hroom => absurd hroom (Nat.not_le.2 hfull), fun _ => ?_⟩
    rw [hraise, ← hinv.blkCount_of_raw hs]
    rfl

end Sys2Proof.Machine

/-! PROOFS of the family 45_framer.md, START: its checks in order (45_framer.md R186) and the error each raises, RAW
(R194) and SCAN (R187, R188). -/

namespace Sys2Proof.Machine

variable {s : State} {h : HTab}

/-! ## START in IDLE (46_commands.md R222) -/

theorem exec_start_of_idle (hs : s.st = .idle) : exec .start s = finish s (startBody s) := by
  have hlegal : legalIdle s.st = true := by rw [hs]; rfl
  have harm : exec .start s = execStart s := rfl
  rw [harm, execStart, command_legal hlegal]

theorem exec_start_raw (hs : s.st = .idle) (htest : s.cfgTest = true) : exec .start s = .next s.startRaw := by
  rw [exec_start_of_idle hs, startBody, if_pos htest, finish_ok]

theorem exec_start_scan (hs : s.st = .idle) (htest : s.cfgTest = false) : exec .start s = finish s (startScan s) := by
  rw [exec_start_of_idle hs, startBody, if_neg (by simp [htest])]

/-- A check that fails is what START answers. -/
theorem exec_start_of_invalid (hs : s.st = .idle) (htest : s.cfgTest = false) {e : ErrorCode} {info : Word}
    (hv : validate s = .error (.raised e info)) : exec .start s = .next (errorEntry e info s) := by
  rw [exec_start_scan hs htest, startScan, hv]
  rfl

/-- Settles O29: `startRaw` written out. -/
theorem startEntersRaw : Obligations.StartEntersRaw := fun _ hs htest => exec_start_raw hs htest

/-! ## The tables in use (45_framer.md R186) -/

theorem State.quantTabs_eq (s : State) : s.quantTabs = if s.cfgMode = 1#2 then [.qt0, .qt1] else [.qt0] := by
  simp [State.quantTabs, State.color]

theorem State.huffTabs_eq (s : State) :
    s.huffTabs = if s.cfgMode = 1#2 then [.dc0, .ac0, .dc1, .ac1] else [.dc0, .ac0] := by
  simp [State.huffTabs, State.color]

theorem State.quantTabs_ascending (s : State) : s.quantTabs.Pairwise fun a b => a.index < b.index := by
  rw [State.quantTabs_eq]
  split <;> decide

theorem State.huffTabs_ascending (s : State) : s.huffTabs.Pairwise fun a b => a.index < b.index := by
  rw [State.huffTabs_eq]
  split <;> decide

/-- Two byte fields of an ERR_INFO (60_exceptions.md R262). -/
theorem append_byte_fields {a b : Nat} (ha : a < 256) (hb : b < 256) :
    0#16 ++ BitVec.ofNat 8 a ++ BitVec.ofNat 8 b = BitVec.ofNat 32 (256 * a + b) := by
  apply BitVec.eq_of_toNat_eq
  have hb' : (BitVec.ofNat 8 b).toNat = b := Nat.mod_eq_of_lt hb
  simp only [BitVec.toNat_append, BitVec.toNat_ofNat, hb']
  rw [← Nat.shiftLeft_add_eq_or_of_lt hb, Nat.mod_eq_of_lt ha]
  simp [Nat.shiftLeft_eq]
  omega

/-! ## The checks one by one -/

theorem validate_of_mode (hm : 2 ≤ s.cfgMode.toNat) :
    validate s = .error (.raised .unsupportedFormat (s.cfgMode.setWidth 32)) := by
  rw [validate, if_pos (Nat.lt_of_succ_le hm)]
  rfl

/-- The detail of INVALID_ARGUMENT: bit 0 for WIDTH, bit 1 for HEIGHT (60_exceptions.md R262). -/
theorem validate_of_dimension (hm : s.cfgMode.toNat ≤ 1) (hz : s.width = 0#16 ∨ s.height = 0#16) :
    validate s = .error (.raised .invalidArgument
      (BitVec.ofNat 32 ((if s.width = 0#16 then 1 else 0) + (if s.height = 0#16 then 2 else 0)))) := by
  rw [validate, if_neg (Nat.not_lt.2 hm), if_pos hz]
  by_cases hw : s.width = 0#16 <;> by_cases hh : s.height = 0#16 <;> simp [hw, hh]

theorem validate_of_dimensions (hm : s.cfgMode.toNat ≤ 1) (hw : s.width ≠ 0#16) (hh : s.height ≠ 0#16) :
    validate s = (do checkQuant s s.quantTabs; buildTables s s.huffTabs s.ehuf) := by
  rw [validate, if_neg (Nat.not_lt.2 hm), if_neg (by simp [hw, hh])]

theorem State.firstZero_eq_some {q : QTab} {i : Nat} (hi : i < 64) (hzero : s.qt q i = 0#8)
    (hfirst : ∀ j, j < i → s.qt q j ≠ 0#8) : s.firstZero q = some i := by
  rw [State.firstZero, List.find?_range_eq_some]
  exact ⟨by simpa using hzero, by simpa using hi, by simpa using hfirst⟩

theorem State.firstZero_eq_none {q : QTab} (hq : ∀ i, i < 64 → s.qt q i ≠ 0#8) : s.firstZero q = none := by
  simpa [State.firstZero] using hq

theorem checkQuant_of_nonzero {qs : List QTab} (hq : ∀ q ∈ qs, ∀ i, i < 64 → s.qt q i ≠ 0#8) : checkQuant s qs = .ok () := by
  induction qs with
  | nil => rfl
  | cons q qs ih =>
    rw [checkQuant, State.firstZero_eq_none (hq q List.mem_cons_self)]
    exact ih fun q' hmem => hq q' (List.mem_cons_of_mem q hmem)

/-- The check reports the first zero entry of the first table that has one. -/
theorem checkQuant_of_firstZero {qs : List QTab} (hord : qs.Pairwise fun a b => a.index < b.index) {q : QTab} (hq : q ∈ qs)
    {i : Nat} (hi : s.firstZero q = some i) (hbefore : ∀ q' : QTab, q'.index < q.index → s.firstZero q' = none) :
    checkQuant s qs = .error (.raised .invalidQtable (0#16 ++ BitVec.ofNat 8 q.index ++ BitVec.ofNat 8 i)) := by
  induction qs with
  | nil => exact absurd hq List.not_mem_nil
  | cons q' qs ih =>
    obtain ⟨hlt, hord⟩ := List.pairwise_cons.1 hord
    rcases List.mem_cons.1 hq with rfl | hq
    · rw [checkQuant, hi]
    · rw [checkQuant, hbefore q' (hlt q hq)]
      exact ih hord hq

/-! ## build, where it fails (43_huffman.md R151) -/

theorem assignCodes_error {val : Nat → Byte} {len count code k : Nat} {done : List HuffEntry} {x : Stop}
    (hx : assignCodes h val len count code k done = .error x) : x = .raised .invalidHtable (htableInfo h 3#8) := by
  induction count generalizing code k done with
  | zero => exact nomatch hx
  | succ count ih =>
    rw [assignCodes] at hx
    split at hx
    · exact (Except.error.inj hx).symm
    · exact ih hx

/-- The outer loop of build, with the codes of the first `len` lengths assigned and n to come, stops at a symbol that it meets
for the second time, or at a length that is out of codes. -/
theorem buildLengths_error (n : Nat) {len : Nat} {x : Stop} (hd : ((s.canonicalCodes h len).map HuffEntry.sym).Nodup)
    (hx : buildLengths h (s.htVal h) ((List.range' len n).map fun i => (s.htBits h (i + 1)).toNat) (len + 1)
      (2 * s.codeSpace h len) (s.symbolsBelow h len) (s.canonicalCodes h len).reverse = .error x) :
    (x = .raised .invalidHtable (htableInfo h 3#8) ∧ ¬ ((s.canonicalCodes h (len + n)).map HuffEntry.sym).Nodup) ∨
    (x = .raised .invalidHtable (htableInfo h 2#8) ∧ ∃ m, len < m ∧ m ≤ len + n ∧ 2 ^ m < s.codeSpace h m) := by
  induction n generalizing len with
  | zero => exact nomatch hx
  | succ n ih =>
    rw [List.range'_succ, List.map_cons, buildLengths] at hx
    cases hr : assignCodes h (s.htVal h) (len + 1) (s.htBits h (len + 1)).toNat (2 * s.codeSpace h len) (s.symbolsBelow h len)
      (s.canonicalCodes h len).reverse with
    | error y =>
      rw [hr] at hx
      obtain rfl : y = x := Except.error.inj hx
      refine .inl ⟨assignCodes_error hr, fun hnodup => ?_⟩
      have hd' := hnodup.sublist ((State.canonicalCodes_sublist (by omega : len + 1 ≤ len + (n + 1))).map _)
      exact nomatch hr.symm.trans ((assignCodes_canonical hd).2 ⟨rfl, hd'⟩)
    | ok r =>
      obtain ⟨rfl, hd'⟩ := (assignCodes_canonical hd).1 hr
      rw [hr] at hx
      simp only [bind, Except.bind] at hx
      split at hx
      · rename_i hfull
        exact .inr ⟨(Except.error.inj hx).symm, len + 1, by omega, by omega, hfull⟩
      · rcases ih hd' hx with ⟨hx, hdup⟩ | ⟨hx, m, hlt, hle, hfull⟩
        · exact .inl ⟨hx, by rwa [← Nat.add_assoc, Nat.add_right_comm]⟩
        · exact .inr ⟨hx, m, by omega, by omega, hfull⟩

/-- What the reason in an INVALID_HTABLE says of the table (60_exceptions.md R262). -/
def State.TableFault (s : State) (h : HTab) (reason : Nat) : Prop :=
  (reason = 1 ∨ reason = 2 ∨ reason = 3) ∧ (reason = 1 ↔ 256 < s.symbolCount h) ∧
    (reason = 2 → ∃ len, 1 ≤ len ∧ len ≤ 16 ∧ 2 ^ len < s.codeSpace h len) ∧
    (reason = 3 → ¬ ((List.range (s.symbolCount h)).map (s.htVal h)).Nodup)

theorem htableInfo_eq (h : HTab) {reason : Nat} (hr : reason < 256) :
    htableInfo h (BitVec.ofNat 8 reason) = BitVec.ofNat 32 (256 * h.index + reason) :=
  append_byte_fields (by have := h.index_lt; omega) hr

/-- An invalid table is refused for one of the three reasons, and the reason is true. -/
theorem buildTable_of_invalid (hv : ¬ s.validTable h) :
    ∃ reason, buildTable s h = .error (.raised .invalidHtable (BitVec.ofNat 32 (256 * h.index + reason))) ∧
      s.TableFault h reason := by
  by_cases hcount : 256 < s.symbolCount h
  · exact ⟨1, by rw [buildTable, if_pos hcount, ← htableInfo_eq h (by decide)], by simp [State.TableFault, hcount]⟩
  cases hb : buildTable s h with
  | ok l => exact absurd (buildTable_eq_ok_iff.1 hb).1 hv
  | error x =>
    have hx := hb
    rw [buildTable, if_neg hcount] at hx
    rcases buildLengths_error 16 (len := 0) List.nodup_nil hx with ⟨rfl, hdup⟩ | ⟨rfl, m, hlt, hle, hfull⟩
    · rw [State.canonicalCodes_syms] at hdup
      exact ⟨3, by rw [← htableInfo_eq h (by decide)], by simp, by simp [hcount], by simp, fun _ => hdup⟩
    · exact ⟨2, by rw [← htableInfo_eq h (by decide)], by simp, by simp [hcount], fun _ => ⟨m, hlt, by omega, hfull⟩, by simp⟩

theorem buildTable_of_valid (hv : s.validTable h) : buildTable s h = .ok (s.canonicalCodes h 16).reverse :=
  buildTable_eq_ok_iff.2 ⟨hv, rfl⟩

/-! ## The code tables of START -/

/-- The check reports the first table that build refuses. -/
theorem buildTables_of_invalid {hs : List HTab} (hord : hs.Pairwise fun a b => a.index < b.index) (hmem : h ∈ hs) {x : Stop}
    (hx : buildTable s h = .error x) (hbefore : ∀ h' : HTab, h'.index < h.index → s.validTable h') (e : EHuf) :
    buildTables s hs e = .error x := by
  induction hs generalizing e with
  | nil => exact absurd hmem List.not_mem_nil
  | cons h' hs ih =>
    obtain ⟨hlt, hord⟩ := List.pairwise_cons.1 hord
    rcases List.mem_cons.1 hmem with rfl | hmem
    · rw [buildTables, hx]
      rfl
    · rw [buildTables, buildTable_of_valid (hbefore h' (hlt h hmem))]
      exact ih hord hmem _

theorem buildTables_of_valid {hs : List HTab} (hnodup : hs.Nodup) (hv : ∀ h ∈ hs, s.validTable h) (e : EHuf) :
    ∃ e', buildTables s hs e = .ok e' ∧ (∀ h ∈ hs, buildTable s h = .ok (e'.get h)) ∧ ∀ h, h ∉ hs → e'.get h = e.get h := by
  induction hs generalizing e with
  | nil => exact ⟨e, rfl, by simp, fun _ _ => rfl⟩
  | cons h hs ih =>
    obtain ⟨hnot, hnodup⟩ := List.nodup_cons.1 hnodup
    have hb := buildTable_of_valid (hv h List.mem_cons_self)
    obtain ⟨e', he, hbuilt, hkept⟩ := ih hnodup (fun h' hm => hv h' (List.mem_cons_of_mem h hm))
      (e.set h (s.canonicalCodes h 16).reverse)
    refine ⟨e', by rw [buildTables, hb]; exact he, fun h' hm => ?_, fun h' hm => ?_⟩
    · rcases List.mem_cons.1 hm with rfl | hm
      · rw [hkept h' hnot, EHuf.get_set_same, hb]
      · exact hbuilt h' hm
    · rw [List.mem_cons, not_or] at hm
      rw [hkept h' hm.2, EHuf.get_set_other _ _ hm.1]

/-- BLK_TOTAL (R187), with the ceilings written out. -/
theorem State.blocksOf_eq (s : State) : s.blocksOf = if s.cfgMode = 1#2
    then (s.width.toNat + 15) / 16 * ((s.height.toNat + 15) / 16) * 6
    else (s.width.toNat + 7) / 8 * ((s.height.toNat + 7) / 8) := by
  simp [State.blocksOf, State.color, ceilDiv]

/-! ## The obligations of START -/

/-- Settles O30: each failing check is what `validate` answers, the checks before it having passed. -/
theorem startRejects : Obligations.StartRejects := by
  intro s hs htest quants huffs
  have hquants : s.quantTabs = quants := s.quantTabs_eq
  have hhuffs : s.huffTabs = huffs := s.huffTabs_eq
  refine ⟨fun hm => exec_start_of_invalid hs htest (validate_of_mode hm),
    fun hm hz => exec_start_of_invalid hs htest (validate_of_dimension hm hz), fun hm hw hh => ?_⟩
  rw [← hquants, ← hhuffs]
  have hchecks := validate_of_dimensions hm hw hh
  refine ⟨fun q i hq hi hzero hfirst hbefore => ?_, fun hnonzero h hmem hv hbefore => ?_⟩
  · have hq := checkQuant_of_firstZero s.quantTabs_ascending hq (State.firstZero_eq_some hi hzero hfirst)
      fun q' hlt => State.firstZero_eq_none fun j => hbefore q' j hlt
    rw [append_byte_fields (by cases q <;> decide) (by omega)] at hq
    refine exec_start_of_invalid hs htest ?_
    rw [hchecks, hq]
    rfl
  · obtain ⟨reason, hb, hfault⟩ := buildTable_of_invalid hv
    refine ⟨reason, exec_start_of_invalid hs htest ?_, hfault⟩
    rw [hchecks, checkQuant_of_nonzero fun q hq i hi => hnonzero q i hq hi]
    exact buildTables_of_invalid s.huffTabs_ascending hmem hb hbefore _

/-- Settles O33: the checks pass and build the code tables, and `startScan_cases` says what follows. -/
theorem startEntersScan : Obligations.StartEntersScan := by
  intro s hs htest hm hw hh hwf huffs hnonzero hvalid
  have hhuffs : s.huffTabs = huffs := s.huffTabs_eq
  rw [← s.quantTabs_eq] at hnonzero
  obtain ⟨e, he, hbuilt, hkept⟩ := buildTables_of_valid (s.huffTabs_ascending.imp fun hlt heq => by simp [heq] at hlt)
    (hhuffs ▸ hvalid) s.ehuf
  have hv : validate s = .ok e := by
    rw [validate_of_dimensions hm hw hh, checkQuant_of_nonzero fun q hq i hi => hnonzero q i hq hi]
    exact he
  rw [← hhuffs, exec_start_scan hs htest]
  rcases startScan_cases s with ⟨t, e', ht, hv', frame, hfits, hout⟩ | ⟨c, info, -, hv', -⟩ | ⟨e', ht, -, hfull⟩
  · obtain rfl : e = e' := Except.ok.inj (hv.symm.trans hv')
    have htabs : t.ehuf = e := by rw [frame]
    refine ⟨fun _ => ⟨t, by rw [ht, finish_ok], ?_, htabs ▸ hbuilt, htabs ▸ hkept, (hout hwf).1⟩,
      fun hover => absurd hfits (Nat.not_le.2 hover)⟩
    rw [← s.blocksOf_eq, htabs]
    exact frame
  · exact nomatch hv.symm.trans hv'
  · exact ⟨fun hroom => absurd hroom (Nat.not_le.2 hfull), fun _ => by rw [ht, finish_raised]⟩

end Sys2Proof.Machine

/-! PROOFS of the family 45_framer.md, the header: its length (45_framer.md R197), and the bytes of its segments at their
positions (R201..R206, R209). -/

namespace Sys2Proof.Machine

variable {s : State} {l a b : List Byte} {n : Nat}

/-! ## Segments one after the other -/

/-- Behind a segment that stands at n comes the rest. -/
theorem drop_behind (hd : l.drop n = a ++ b) {m : Nat} (hm : m = n + a.length) : l.drop m = b := by
  rw [hm, ← List.drop_drop, hd, List.drop_left]

/-- A byte of a segment that stands at n. -/
theorem getD_of_drop (hd : l.drop n = a ++ b) {i j : Nat} (hj : j = n + i) (hi : i < a.length) : l.getD j 0#8 = a[i] := by
  have hget : l[n + i]? = a[i]? := by rw [← List.getElem?_drop, hd, List.getElem?_append_left hi]
  rw [hj, List.getD_eq_getElem?_getD, hget, List.getElem?_eq_getElem hi, Option.getD_some]

/-! ## The segments (45_framer.md R203..R206) -/

theorem be16_ofNat (x : Nat) : be16 (BitVec.ofNat 16 x) = [BitVec.ofNat 8 (x / 256), BitVec.ofNat 8 x] := by
  have hhigh : (BitVec.ofNat 16 x).extractLsb' 8 8 = BitVec.ofNat 8 (x / 256) := extractLsb'_eq_of_toNat (by simp; omega)
  have hlow : (BitVec.ofNat 16 x).extractLsb' 0 8 = BitVec.ofNat 8 x := extractLsb'_eq_of_toNat (by simp)
  rw [be16, hhigh, hlow]

/-- TcTh: the class, 0 for DC and 1 for AC, in the high nibble and the destination in the low one (R205). -/
theorem tableClassId_eq (h : HTab) : tableClassId h = BitVec.ofNat 8 (16 * (h.index % 2) + h.index / 2) := by
  cases h <;> rfl

theorem State.length_dqtBytes (s : State) (q : QTab) : (s.dqtBytes q).length = 69 := rfl

theorem State.length_dhtBytes (s : State) (h : HTab) : (s.dhtBytes h).length = 21 + s.symbolCount h := by
  simp [State.dhtBytes, be16]
  omega

theorem State.sof0Bytes_gray (hm : s.cfgMode = 0#2) : s.sof0Bytes =
    [0xFF, 0xC0, 0x00, 0x0B, 0x08, s.height.extractLsb' 8 8, s.height.extractLsb' 0 8,
      s.width.extractLsb' 8 8, s.width.extractLsb' 0 8, 0x01, 0x01, 0x11, 0x00] := by
  simp [State.sof0Bytes, State.color, hm, be16]

theorem State.sof0Bytes_color (hm : s.cfgMode = 1#2) : s.sof0Bytes =
    [0xFF, 0xC0, 0x00, 0x11, 0x08, s.height.extractLsb' 8 8, s.height.extractLsb' 0 8,
      s.width.extractLsb' 8 8, s.width.extractLsb' 0 8, 0x03, 0x01, 0x22, 0x00, 0x02, 0x11, 0x01, 0x03, 0x11, 0x01] := by
  simp [State.sof0Bytes, State.color, hm, be16]

theorem State.sosBytes_gray (hm : s.cfgMode = 0#2) :
    s.sosBytes = [0xFF, 0xDA, 0x00, 0x08, 0x01, 0x01, 0x00, 0x00, 0x3F, 0x00] := by
  simp [State.sosBytes, State.color, hm]

theorem State.sosBytes_color (hm : s.cfgMode = 1#2) :
    s.sosBytes = [0xFF, 0xDA, 0x00, 0x0C, 0x03, 0x01, 0x00, 0x02, 0x11, 0x03, 0x11, 0x00, 0x3F, 0x00] := by
  simp [State.sosBytes, State.color, hm]

/-- A DQT segment that stands at n: marker, length and table index, then the entries in zigzag order (R203). -/
theorem State.dqt_at {q : QTab} (hd : l.drop n = s.dqtBytes q ++ b) :
    (l.drop n).take 5 = [0xFF, 0xDB, 0x00, 0x43, BitVec.ofNat 8 q.index] ∧
    ∀ k, k < 64 → l.getD (n + 5 + k) 0#8 = s.qt q (zigzagOrder.getD k 0) := by
  rw [State.dqtBytes, List.append_assoc] at hd
  have hentries : l.drop (n + 5) = _ := drop_behind hd rfl
  refine ⟨by rw [hd]; rfl, fun k hk => ?_⟩
  rw [getD_of_drop hentries rfl ((List.length_map _).symm ▸ hk), List.getElem_map, List.getD_eq_getElem]

/-- A DHT segment that stands at n: marker, length and class with index, then the counts, then the symbols (R205). -/
theorem State.dht_at {h : HTab} (hd : l.drop n = s.dhtBytes h ++ b) :
    (l.drop n).take 5 = [0xFF, 0xC4, BitVec.ofNat 8 ((19 + s.symbolCount h) / 256), BitVec.ofNat 8 (19 + s.symbolCount h),
      tableClassId h] ∧
    (∀ len, 1 ≤ len → len ≤ 16 → l.getD (n + 4 + len) 0#8 = s.htBits h len) ∧
    ∀ k, k < s.symbolCount h → l.getD (n + 21 + k) 0#8 = s.htVal h k := by
  rw [State.dhtBytes, be16_ofNat, List.append_assoc, List.append_assoc] at hd
  have hcounts : l.drop (n + 5) = _ := drop_behind hd rfl
  have hsyms : l.drop (n + 21) = _ := drop_behind hcounts rfl
  refine ⟨by rw [hd]; rfl, fun len h1 h16 => ?_, fun k hk => ?_⟩
  · rw [getD_of_drop hcounts (i := len - 1) (by omega) (by simp; omega)]
    simp [Nat.sub_add_cancel h1]
  · rw [getD_of_drop hsyms rfl (by simpa using hk)]
    simp

/-! ## The header (45_framer.md R209) -/

theorem State.headerBytes_gray (hm : s.cfgMode = 0#2) : s.headerBytes = soiBytes ++ app0Bytes ++
    (s.dqtBytes .qt0 ++ (s.sof0Bytes ++ (s.dhtBytes .dc0 ++ (s.dhtBytes .ac0 ++ s.sosBytes)))) := by
  simp [State.headerBytes, State.quantTabs, State.huffTabs, State.color, hm]

theorem State.headerBytes_color (hm : s.cfgMode = 1#2) : s.headerBytes = soiBytes ++ app0Bytes ++
    (s.dqtBytes .qt0 ++ (s.dqtBytes .qt1 ++ (s.sof0Bytes ++ (s.dhtBytes .dc0 ++ (s.dhtBytes .ac0 ++
      (s.dhtBytes .dc1 ++ (s.dhtBytes .ac1 ++ s.sosBytes))))))) := by
  simp [State.headerBytes, State.quantTabs, State.huffTabs, State.color, hm]

theorem State.length_headerBytes_gray (hm : s.cfgMode = 0#2) : s.headerBytes.length =
    2 + 18 + 69 + 13 + (21 + s.symbolCount .dc0) + (21 + s.symbolCount .ac0) + 10 := by
  simp only [State.headerBytes_gray hm, State.sof0Bytes_gray hm, State.sosBytes_gray hm, List.length_append,
    State.length_dqtBytes, State.length_dhtBytes]
  simp [soiBytes, app0Bytes]
  omega

theorem State.length_headerBytes_color (hm : s.cfgMode = 1#2) : s.headerBytes.length =
    2 + 18 + 2 * 69 + 19 + ((21 + s.symbolCount .dc0) + (21 + s.symbolCount .ac0) + (21 + s.symbolCount .dc1) +
      (21 + s.symbolCount .ac1)) + 14 := by
  simp only [State.headerBytes_color hm, State.sof0Bytes_color hm, State.sosBytes_color hm, List.length_append,
    State.length_dqtBytes, State.length_dhtBytes]
  simp [soiBytes, app0Bytes]
  omega

/-! ## The obligations -/

/-- Settles O34: the lengths of the segments add up, and the default tables have 12 and 162 symbols. -/
theorem headerLength : Obligations.HeaderLength := by
  have hreset (h : HTab) : ({ State.reset with cfgMode := 1#2 } : State).symbolCount h = (defaultVals h).length :=
    reset_symbolCount h
  refine ⟨fun _ => State.length_headerBytes_gray, fun _ => State.length_headerBytes_color, ?_, ?_⟩
  · rw [State.length_headerBytes_gray rfl, reset_symbolCount, reset_symbolCount]
    decide +kernel
  · rw [State.length_headerBytes_color rfl, hreset, hreset, hreset, hreset]
    decide +kernel

/-- Settles O35: each segment stands behind the one before it. -/
theorem grayHeader : Obligations.GrayHeader := by
  intro s hm byte n0 n1
  have hheader : s.headerBytes.drop 0 = _ := State.headerBytes_gray hm
  have hdqt : s.headerBytes.drop 20 = s.dqtBytes .qt0 ++ _ := drop_behind hheader rfl
  have hsof : s.headerBytes.drop 89 = s.sof0Bytes ++ _ := drop_behind hdqt rfl
  have hdc : s.headerBytes.drop 102 = s.dhtBytes .dc0 ++ _ := drop_behind hsof (by rw [State.sof0Bytes_gray hm]; rfl)
  have hac : s.headerBytes.drop (123 + n0) = s.dhtBytes .ac0 ++ _ :=
    drop_behind hdc (by rw [State.length_dhtBytes]; omega)
  have hsos : s.headerBytes.drop (144 + n0 + n1) = s.sosBytes :=
    drop_behind hac (by rw [State.length_dhtBytes]; omega)
  obtain ⟨hdc5, hdcBits, hdcVals⟩ := State.dht_at hdc
  obtain ⟨hac5, hacBits, hacVals⟩ := State.dht_at hac
  refine ⟨congrArg (List.take 25) hheader, (State.dqt_at hdqt).2, by rw [hsof, State.sof0Bytes_gray hm]; rfl, hdc5, hdcBits, hdcVals,
    hac5, fun len h1 h16 => ?_, fun k hk => ?_, hsos.trans (State.sosBytes_gray hm)⟩
  · rw [← hacBits len h1 h16, show 123 + n0 + 4 + len = 127 + n0 + len by omega]
  · rw [← hacVals k hk, show 123 + n0 + 21 + k = 144 + n0 + k by omega]

/-- Settles O36: each segment stands behind the one before it. -/
theorem colorHeader : Obligations.ColorHeader := by
  intro s hm byte pos
  have hheader : s.headerBytes.drop 0 = _ := State.headerBytes_color hm
  have hqt0 : s.headerBytes.drop 20 = s.dqtBytes .qt0 ++ _ := drop_behind hheader rfl
  have hqt1 : s.headerBytes.drop 89 = s.dqtBytes .qt1 ++ _ := drop_behind hqt0 rfl
  have hsof : s.headerBytes.drop 158 = s.sof0Bytes ++ _ := drop_behind hqt1 rfl
  have hdc0 : s.headerBytes.drop (pos .dc0) = s.dhtBytes .dc0 ++ _ :=
    drop_behind hsof (by rw [State.sof0Bytes_color hm]; rfl)
  have hac0 : s.headerBytes.drop (pos .ac0) = s.dhtBytes .ac0 ++ _ :=
    drop_behind hdc0 (by rw [State.length_dhtBytes]; simp only [pos]; omega)
  have hdc1 : s.headerBytes.drop (pos .dc1) = s.dhtBytes .dc1 ++ _ :=
    drop_behind hac0 (by rw [State.length_dhtBytes]; simp only [pos]; omega)
  have hac1 : s.headerBytes.drop (pos .ac1) = s.dhtBytes .ac1 ++ _ :=
    drop_behind hdc1 (by rw [State.length_dhtBytes]; simp only [pos]; omega)
  have hsos : s.headerBytes.drop (pos .ac1 + 21 + s.symbolCount .ac1) = s.sosBytes :=
    drop_behind hac1 (by rw [State.length_dhtBytes]; omega)
  have hdht (h : HTab) : ∃ rest, s.headerBytes.drop (pos h) = s.dhtBytes h ++ rest := by
    cases h with
    | dc0 => exact ⟨_, hdc0⟩
    | ac0 => exact ⟨_, hac0⟩
    | dc1 => exact ⟨_, hdc1⟩
    | ac1 => exact ⟨_, hac1⟩
  refine ⟨congrArg (List.take 25) hheader, (State.dqt_at hqt0).2, (State.dqt_at hqt1).1, (State.dqt_at hqt1).2,
    by rw [hsof, State.sof0Bytes_color hm]; rfl, fun h => ?_, hsos.trans (State.sosBytes_color hm)⟩
  obtain ⟨rest, hd⟩ := hdht h
  rw [← tableClassId_eq]
  exact State.dht_at hd

end Sys2Proof.Machine

/-! PROOFS of the family 45_framer.md, blocks: what the sixteenth SAMPLE write of a block stores (45_framer.md R189, R190), and
the end of the stream after the last one (R191, R208). -/

namespace Sys2Proof.Machine

variable {s u : State} {w : Word} {bits : List Bool}

/-! ## The coefficients of a block -/

theorem getElem_blockOf {α : Type} (f : Nat → α) (k : Fin 64) : (blockOf f)[k] = f k := by
  simp [blockOf]

/-- In SCAN the coefficients of the coming block are in the ranges of 41_quantizer.md R118. -/
theorem State.ScanInv.blockScan_bounds (h : s.ScanInv) (h15 : s.sfill = 15#4) {k : Nat} (hk : k < 64) :
    -1024 ≤ (s.blockScan w).getD k 0 ∧ (s.blockScan w).getD k 0 ≤ 1020 := by
  obtain ⟨hnone, hcomp⟩ := h.block
  have hlen : k < (s.blockScan w).length := by simpa [State.blockScan] using hk
  have hmem := List.getElem_mem hlen
  rw [← List.getD_eq_getElem _ 0 hlen, State.blockScan_eq h15 hcomp] at hmem
  obtain ⟨n, hn, hz⟩ := List.mem_map.1 hmem
  have hn64 : n < 64 := (by decide : ∀ n ∈ zigzagOrder, n < 64) n hn
  have hq : s.qt (quantTabOf s.comp) n ≠ 0#8 := firstZero_none hnone n hn64
  have hq1 : 1 ≤ (s.qt (quantTabOf s.comp) n).toNat := Nat.pos_of_ne_zero fun h0 => hq (BitVec.eq_of_toNat_eq h0)
  obtain ⟨hdc, hac⟩ := quantizedRanges (s.storeSamples w).ibuf.toList
    (fun i => ((s.storeSamples w).qt (quantTabOf (s.storeSamples w).comp) i).toNat) n (by simp) hn64 hq1
  rw [State.blockScan_eq h15 hcomp, ← hz, State.shifted]
  by_cases h0 : n = 0
  · obtain ⟨hlo, hhi⟩ := hdc h0
    exact ⟨hlo, hhi.trans (by decide)⟩
  · exact hac h0

/-! ## The state a block's symbols are coded from (45_framer.md R189) -/

theorem State.codingStart_ibuf (s : State) (w : Word) : (s.codingStart w).ibuf = (s.storeSamples w).ibuf := by
  unfold State.codingStart
  cases s.comp <;> rfl

theorem State.codingStart_lastblk (s : State) (w : Word) :
    (s.codingStart w).lastblk = blockOf fun k => BitVec.ofInt 16 ((s.storeSamples w).scanned.getD k 0) := by
  unfold State.codingStart
  cases s.comp <;> rfl

/-- The DC coefficient goes to the predictor of the block's component, and to no other. -/
theorem State.codingStart_preds (hcomp : s.blockComp = s.comp) :
    (s.codingStart w).predY = (if s.blockComp = .y then BitVec.ofInt 16 ((s.blockScan w).headD 0) else s.predY) ∧
    (s.codingStart w).predCb = (if s.blockComp = .cb then BitVec.ofInt 16 ((s.blockScan w).headD 0) else s.predCb) ∧
    (s.codingStart w).predCr = (if s.blockComp = .cr then BitVec.ofInt 16 ((s.blockScan w).headD 0) else s.predCr) := by
  rw [hcomp, State.codingStart]
  cases s.comp <;> exact ⟨rfl, rfl, rfl⟩

/-! ## A coded block -/

section CodedBlock

variable (hp : (s.codingStart w).PacksTo u bits)
include hp

theorem State.codedBlock_ibuf (h15 : s.sfill = 15#4) (m : Fin 64) :
    u.countBlock.ibuf[m] = if m.val < 60 then s.ibuf[m] else BitVec.ofNat 8 (w.toNat / 2 ^ (8 * (m.val % 4))) := by
  have hibuf : u.countBlock.ibuf = (s.storeSamples w).ibuf := by rw [hp.frame]; exact s.codingStart_ibuf w
  have hm := m.isLt
  have h15' : s.sfill.toNat = 15 := by rw [h15]; rfl
  rw [hibuf, s.storeSamples_ibuf_getElem w m, byteOf_eq_ofNat, h15']
  by_cases h60 : m.val < 60
  · rw [if_pos h60, if_neg (by omega)]
  · rw [if_neg h60, if_pos (by omega)]

theorem State.ScanInv.codedBlock_lastblk (h : s.ScanInv) (h15 : s.sfill = 15#4) (k : Fin 64) :
    u.countBlock.lastblk[k].toInt = (s.blockScan w).getD k 0 := by
  have hlast : u.countBlock.lastblk = blockOf fun k => BitVec.ofInt 16 ((s.blockScan w).getD k 0) := by
    rw [State.blockScan_eq h15 h.block.2, ← s.codingStart_lastblk w, hp.frame, State.countBlock_lastblk]
  obtain ⟨hlo, hhi⟩ := h.blockScan_bounds (w := w) h15 k.isLt
  rw [hlast, getElem_blockOf, BitVec.toInt_ofInt_eq_self (by decide) (by omega) (by omega)]

/-- The block counted: the frame of `State.codedBlock_frame`, with SFILL and the predictors written out. -/
theorem State.ScanInv.countBlock_eq (h : s.ScanInv) (h15 : s.sfill = 15#4) : u.countBlock = { s with
    ibuf := u.ibuf, sfill := 0#4, lastblk := u.lastblk
    predY := if s.blockComp = .y then BitVec.ofInt 16 ((s.blockScan w).headD 0) else s.predY
    predCb := if s.blockComp = .cb then BitVec.ofInt 16 ((s.blockScan w).headD 0) else s.predCb
    predCr := if s.blockComp = .cr then BitVec.ofInt 16 ((s.blockScan w).headD 0) else s.predCr
    blkCount := s.blkCount + 1#32, bim := nextBim s.cfgMode s.bim
    obuf := u.obuf, olen := u.olen, acc := u.acc, nbits := u.nbits } := by
  obtain ⟨hy, hcb, hcr⟩ := State.codingStart_preds (w := w) h.block.2
  have hy' : u.predY = (s.codingStart w).predY := by rw [hp.frame]
  have hcb' : u.predCb = (s.codingStart w).predCb := by rw [hp.frame]
  have hcr' : u.predCr = (s.codingStart w).predCr := by rw [hp.frame]
  have h0 : s.sfill + 1#4 = 0#4 := by rw [h15]; rfl
  rw [← hy, ← hcb, ← hcr, ← hy', ← hcb', ← hcr', ← h0]
  exact congrArg State.countBlock (State.codedBlock_frame hp)

theorem State.codedBlock_olen :
    u.countBlock.olen = s.olen + (stuffed (cutBytes (s.pendingBits ++ bits)).1).length := by
  rw [State.countBlock_olen, hp.len, s.codingStart_olen, s.codingStart_pendingBits]

theorem State.codedBlock_appends (hw : Memory.wf .output s.obuf = true) :
    s.appends u.countBlock (stuffed (cutBytes (s.pendingBits ++ bits)).1) := by
  have hobuf : (s.codingStart w).obuf = s.obuf := by rw [s.codingStart_frame w]
  rw [← s.codingStart_pendingBits w]
  exact State.appends_congr hobuf.symm (s.codingStart_olen w).symm rfl rfl (hp.out (hobuf ▸ hw))

theorem State.codedBlock_pendingBits : u.countBlock.pendingBits = (cutBytes (s.pendingBits ++ bits)).2 := by
  rw [← s.codingStart_pendingBits w]
  exact hp.pending

end CodedBlock

/-- The sixteenth SAMPLE write of a block whose symbols all have codes: the bits are packed, and then the block is counted and
the stream may end; or OUTPUT_OVERFLOW for want of room (44_bitwriter.md R170, 60_exceptions.md R262). -/
theorem State.Inv.exec_sampleWrite_block (hinv : s.Inv) (hs : s.st = .scan) (h15 : s.sfill = 15#4)
    (hcodes : codesDefined s.ehuf (s.blockSymbols (s.blockScan w))) :
    let bits := codedAll s.ehuf (s.blockSymbols (s.blockScan w))
    let room := s.olen + (stuffed (cutBytes (s.pendingBits ++ bits)).1).length
    (∃ u, (s.codingStart w).PacksTo u bits ∧ room ≤ Config.obufBytes ∧ exec (.sampleWrite w) s =
      finish s (if s.blkCount + 1#32 = s.blkTotal then terminate u.countBlock else .ok u.countBlock)) ∨
    (exec (.sampleWrite w) s = .next (errorEntry .outputOverflow s.blkCount s) ∧ Config.obufBytes < room) := by
  obtain ⟨hacc, hflushed⟩ := hinv.packerReady (.inl hs)
  have hexec : exec (.sampleWrite w) s = _ := execSampleWrite_block hs (hinv.scan hs) h15
  have hpacks := emitAll_packs (State.codingStart_accOk hacc w) ((s.codingStart_flushed w).trans hflushed)
    ((s.codingStart_ehuf w).symm ▸ hcodes)
  rw [s.codingStart_ehuf] at hpacks
  rcases hpacks with ⟨u, hu, hp⟩ | ⟨hu, hfull⟩
  · refine .inl ⟨u, hp, ?_, ?_⟩
    · rw [← State.codedBlock_olen hp]
      exact hp.fits ((s.codingStart_olen w).symm ▸ hinv.outputFits)
    · have hcount : u.countBlock.blkCount = s.blkCount + 1#32 := by rw [(hinv.scan hs).countBlock_eq hp h15]
      have htotal : u.countBlock.blkTotal = s.blkTotal := by rw [(hinv.scan hs).countBlock_eq hp h15]
      rw [hexec, hu, ← hcount, ← htotal]
      rfl
  · rw [s.codingStart_olen, s.codingStart_pendingBits] at hfull
    rw [hexec, hu, s.codingStart_blkCount]
    exact .inr ⟨rfl, hfull⟩

/-! ## The end of the stream (45_framer.md R191, 44_bitwriter.md R174) -/

/-- What comes out behind the whole bytes of the stream: the pending bits, padded with 1-bits to a byte and stuffed, and EOI. -/
def streamEnd (pending : List Bool) : List Byte :=
  stuffed (if pending = [] then [] else [byteOfBits (pending ++ List.replicate (8 - pending.length) true)]) ++ eoiBytes

theorem State.streamEnd_pendingBits (h : s.accOk) :
    stuffed (cutBytes s.paddedBits).1 ++ eoiBytes = streamEnd s.pendingBits := by
  have hlen : s.pendingBits.length = s.nbits.toNat := length_lowBits _ _
  have hnil : s.pendingBits = [] ↔ s.nbits = 0#4 := by
    rw [← List.length_eq_zero_iff, hlen, BitVec.toNat_eq]
    rfl
  rw [State.stuffed_paddedBits h, streamEnd, hlen, apply_ite stuffed]
  simp only [hnil]
  rfl

/-! ## The obligations -/

/-- Settles O41: the block's bits are packed and the block is counted, or there is no room for them. -/
theorem blockCoded : Obligations.BlockCoded := by
  intro s w hs hinv h15 hcount z syms cut hcodes
  have hscan := hinv.scan hs
  have hne : s.blkCount + 1#32 ≠ s.blkTotal := fun h => by
    have := hscan.blkCount_succ
    rw [h] at this
    omega
  rcases hinv.exec_sampleWrite_block hs h15 hcodes with ⟨u, hp, hroom, hexec⟩ | ⟨hexec, hfull⟩
  · refine ⟨fun _ => ⟨u.countBlock, by rw [hexec, if_neg hne, finish_ok], hscan.countBlock_eq hp h15,
      State.codedBlock_ibuf hp h15, hscan.codedBlock_lastblk hp h15, State.codedBlock_appends hp hinv.outputCanonical,
      State.codedBlock_pendingBits hp⟩, fun hover => absurd hroom (Nat.not_le.2 hover)⟩
  · exact ⟨fun hroom => absurd hroom (Nat.not_le.2 hfull), fun _ => hexec⟩

/-- Settles O42: after the last block's bits the stream ends, or there is no room for them, or none for its end. -/
theorem lastBlockEndsStream : Obligations.LastBlockEndsStream := by
  intro s w hs hinv h15 hcount z syms cut out hcodes
  have hscan := hinv.scan hs
  have hlast : s.blkCount + 1#32 = s.blkTotal := BitVec.eq_of_toNat_eq (hscan.blkCount_succ.trans hcount)
  have hout : out = stuffed cut.1 ++ streamEnd cut.2 := by
    rw [streamEnd, ← List.append_assoc, ← stuffed_append]
    rfl
  rw [hout, List.length_append, ← Nat.add_assoc]
  rcases hinv.exec_sampleWrite_block hs h15 hcodes with ⟨u, hp, hroom, hexec⟩ | ⟨hexec, hfull⟩
  · rw [if_pos hlast] at hexec
    have hcounted := hscan.countBlock_eq hp h15
    rw [hlast, hscan.nextBim_last hlast] at hcounted
    have hpending : u.countBlock.pendingBits = cut.2 := State.codedBlock_pendingBits hp
    have holen : u.countBlock.olen = s.olen + (stuffed cut.1).length := State.codedBlock_olen hp
    have hend := terminate_cases (s := u.countBlock) hp.acc (hinv.codedBlock_flushed hs hp)
    rw [State.streamEnd_pendingBits (s := u.countBlock) hp.acc, hpending, holen] at hend
    rcases hend with ⟨t, ht, frame, hlen, hfits, happends⟩ | ⟨hraise, hfull⟩
    · obtain ⟨hends, -⟩ := happends ((hinv.codedBlock_ready hs h15 hp).outputCanonical)
      refine ⟨fun _ => ⟨t, by rw [hexec, ht, finish_ok], by rw [frame, hcounted]; rfl, ?_, ?_,
        State.appends_trans (State.codedBlock_appends hp hinv.outputCanonical) hends⟩,
        fun hover => absurd hroom (Nat.not_le.2 hover), fun _ hover => absurd (hlen ▸ hfits hroom) (Nat.not_le.2 hover)⟩
      · rw [frame]
        exact State.codedBlock_ibuf (u := u) hp h15
      · rw [frame]
        exact hscan.codedBlock_lastblk (u := u) hp h15
    · refine ⟨fun hfit => absurd hfit (Nat.not_le.2 hfull), fun hover => absurd hroom (Nat.not_le.2 hover), fun _ _ => ?_⟩
      rw [hexec, hraise, finish_raised, hcounted]
  · exact ⟨fun hfit => absurd (Nat.le_of_add_right_le hfit) (Nat.not_le.2 hfull), fun _ => hexec,
      fun hroom => absurd hroom (Nat.not_le.2 hfull)⟩

end Sys2Proof.Machine

/-! PROOFS of the family 45_framer.md, every step: the entropy-coded bytes in SCAN and RAW stay stuffed (45_framer.md R207), and
STATE changes by the listed transitions only (R185). -/

namespace Sys2Proof.Machine

variable {s t : State}

/-! ## What leaves STATE alone (45_framer.md R185) -/

theorem State.generateTables_st (s : State) : s.generateTables.st = s.st := by rw [s.generateTables_frame]

theorem State.loadDefaults_st (s : State) : s.loadDefaults.st = s.st := s.storeTables_st _

theorem storeReg_st (s : State) (r : Reg) (v : Word) : (storeReg s r v).st = s.st := by cases r <;> rfl

/-! ## Stuffed output (44_bitwriter.md R171) -/

/-- In stuffed bytes every 0xFF is followed by 0x00, the last one too. -/
theorem stuffed_getD_succ {l : List Byte} {j : Nat} (hj : j < (stuffed l).length) (hff : (stuffed l).getD j 0#8 = 0xFF#8) :
    j + 1 < (stuffed l).length ∧ (stuffed l).getD (j + 1) 0#8 = 0x00#8 := by
  induction l generalizing j with
  | nil => exact absurd hj (Nat.not_lt_zero j)
  | cons b l ih =>
    rw [stuffed] at hj hff ⊢
    split at hj
    · rename_i hb
      rw [if_pos hb] at hff ⊢
      match j with
      | 0 => exact ⟨by simp, rfl⟩
      | 1 => exact absurd hff (by simp)
      | j + 2 =>
        obtain ⟨hlt, hzero⟩ := ih (by simpa using hj) hff
        exact ⟨Nat.add_lt_add_right hlt 2, hzero⟩
    · rename_i hb
      rw [if_neg hb] at hff ⊢
      match j with
      | 0 => exact absurd hff hb
      | j + 1 =>
        obtain ⟨hlt, hzero⟩ := ih (by simpa using hj) hff
        exact ⟨Nat.add_lt_add_right hlt 1, hzero⟩

theorem State.Stuffed.of_not_encoding (hscan : t.st ≠ .scan) (hraw : t.st ≠ .raw) : t.Stuffed :=
  fun hst => by rcases hst with hst | hst <;> contradiction

theorem State.Stuffed.of_idle (hs : t.st = .idle) : t.Stuffed := .of_not_encoding (by simp [hs]) (by simp [hs])

/-- No entropy-coded byte is out yet. -/
theorem State.Stuffed.of_olen_eq (h : t.olen = t.entropyStart) : t.Stuffed :=
  fun _ => ⟨h.ge, fun j hge hlt => by omega⟩

/-- The bytes that lie in the output after `s.Stuffed` are stuffed ones. -/
theorem State.Stuffed.of_appends {out : List Byte} (h : s.Stuffed) (hst : t.st = s.st)
    (hstart : t.entropyStart = s.entropyStart) (hout : s.appends t (stuffed out)) : t.Stuffed := by
  intro ht
  obtain ⟨hlen, hnew, hold⟩ := hout
  obtain ⟨hle, hff⟩ := h (hst ▸ ht)
  rw [hstart]
  refine ⟨by omega, fun j hj hjt hbyte => ?_⟩
  rcases Nat.lt_or_ge j s.olen with hjs | hjs
  · rw [hold j (.inl hjs)] at hbyte
    obtain ⟨hlt, hzero⟩ := hff j hj hjs hbyte
    exact ⟨by omega, (hold _ (.inl hlt)).trans hzero⟩
  · obtain ⟨k, rfl⟩ := Nat.exists_eq_add_of_le hjs
    rw [hnew k (by omega)] at hbyte
    obtain ⟨hlt, hzero⟩ := stuffed_getD_succ (by omega) hbyte
    exact ⟨by omega, (hnew (k + 1) hlt).trans hzero⟩

/-- A change of fields that `State.Stuffed` does not look at. -/
theorem State.Stuffed.congr (h : s.Stuffed)
    (frame : t = { t with
      st := s.st, cfgMode := s.cfgMode, width := s.width, height := s.height, tables := s.tables
      obuf := s.obuf, olen := s.olen }) : t.Stuffed := by
  rw [frame]
  exact h

theorem State.entropyStart_congr
    (frame : t = { t with
      st := s.st, cfgMode := s.cfgMode, width := s.width, height := s.height, tables := s.tables }) :
    t.entropyStart = s.entropyStart := by
  rw [frame]
  rfl

/-- What START leaves in SCAN, OBUF apart: the initialised state with code tables and a whole header (45_framer.md R188). -/
theorem startScan_frame (ht : startScan s = .ok t) :
    t = { s.initScan with ehuf := t.ehuf, obuf := t.obuf, olen := s.headerBytes.length, st := .scan } := by
  rcases startScan_cases s with ⟨u, e, hu, -, frame, -⟩ | ⟨c, info, hu, -⟩ | ⟨e, hu, -⟩
  · obtain rfl : u = t := Except.ok.inj (hu.symm.trans ht)
    rw [frame]
  · exact nomatch hu.symm.trans ht
  · exact nomatch hu.symm.trans ht

theorem startScan_st (ht : startScan s = .ok t) : t.st = .scan := by rw [startScan_frame ht]

/-- Where SCAN begins, the output is the header. -/
theorem State.Stuffed.of_startScan (ht : startScan s = .ok t) : t.Stuffed := by
  refine .of_olen_eq ?_
  rw [startScan_frame ht]
  rfl

theorem State.Stuffed.rawbits (h : s.Stuffed) {bits : List Bool} (hw : Memory.wf .output s.obuf = true)
    (hp : s.PacksTo t bits) : t.Stuffed := by
  have frame := hp.frame
  rw [State.packerOnly] at frame
  exact h.of_appends (by rw [frame]) (State.entropyStart_congr (by rw [frame])) (hp.out hw)

theorem State.Stuffed.codedBlock (h : s.Stuffed) {w : Word} {bits : List Bool} (hw : Memory.wf .output s.obuf = true)
    (hp : (s.codingStart w).PacksTo t bits) : t.countBlock.Stuffed := by
  have frame := State.codedBlock_frame hp
  exact h.of_appends (by rw [frame]; rfl) (State.entropyStart_congr (by rw [frame]; rfl)) (State.codedBlock_appends hp hw)

theorem Ends.stuffed {done : State → Prop} {o : Host.Outcome State Fault Refusal} (he : Ends s done o) (h : s.Stuffed)
    (hdone : ∀ u, done u → u.Stuffed) (ho : o = .next t) : t.Stuffed :=
  he.elim ho hdone (h.congr rfl) fun _ _ _ => .of_not_encoding nofun nofun

theorem State.Stuffed.of_storeReg (h : s.Stuffed) {r : Reg} (v : Word)
    (hk : r.kind = .rw ∨ r.kind = .w1c ∨ r.kind = .cl ∧ s.locked = false) : (storeReg s r v).Stuffed := by
  rcases or_assoc.2 hk with hk | ⟨hk, hl⟩
  · exact h.congr (by rw [storeReg_unlocked hk])
  · rw [(storeReg_config hk s v).1]
    exact .of_not_encoding (fun hs => by simp [State.locked, show s.st = .scan from hs] at hl)
      fun hs => by simp [State.locked, show s.st = .raw from hs] at hl

theorem State.Stuffed.of_exec (h : s.Stuffed) (hinv : s.Inv) {i : Instr} (hw : i.wf = true) (ht : exec i s = .next t) :
    t.Stuffed := by
  have hready := fun hs : s.st = .scan ∨ s.st = .raw => hinv.packerReady hs
  cases i with
  | nop => exact (execNop_ends s).stuffed h (fun _ hu => hu ▸ h) ht
  | start =>
    refine (execStart_ends s).stuffed h (fun u hu => ?_) ht
    obtain ⟨-, ⟨-, rfl⟩ | ⟨-, hu⟩⟩ := hu
    · exact .of_olen_eq rfl
    · exact .of_startScan hu
  | qgen =>
    refine (execQgen_ends s).stuffed h (fun u hu => ?_) ht
    obtain ⟨hs, rfl⟩ := hu
    exact .of_idle (s.generateTables_st.trans hs)
  | hdefault =>
    refine (execHdefault_ends s).stuffed h (fun u hu => ?_) ht
    obtain ⟨hs, rfl⟩ := hu
    exact .of_idle (s.loadDefaults_st.trans hs)
  | abort => exact (execAbort_ends s).stuffed h (fun _ hu => hu ▸ .of_not_encoding nofun nofun) ht
  | softReset => exact (execSoftReset_ends s).stuffed h (fun _ hu => hu ▸ .of_not_encoding nofun nofun) ht
  | rawbits len value =>
    exact (execRawbits_ends len value fun hs => hready (.inr hs)).stuffed h
      (fun _ hu => h.rawbits hinv.outputCanonical hu.2) ht
  | rawflush =>
    refine (execRawflush_ends fun hs => hready (.inr hs)).stuffed h (fun u hu => ?_) ht
    obtain ⟨v, -, hdone⟩ := bind_ok hu.2
    obtain rfl : v.enterDone = u := Except.ok.inj hdone
    exact .of_not_encoding nofun nofun
  | sampleWrite w =>
    refine (execSampleWrite_ends w (fun hs => hready (.inl hs)) fun hs => (hinv.scan hs).block.1).stuffed h (fun u hu => ?_) ht
    obtain ⟨hs, ⟨-, rfl⟩ | ⟨h15, v, bits, -, hp, hcase⟩⟩ := hu
    · exact h.congr rfl
    rw [← (hinv.scan hs).codingStart_eq h15] at hp
    rcases hcase with ⟨-, rfl⟩ | ⟨-, hend⟩
    · exact h.codedBlock hinv.outputCanonical hp
    · rw [terminate_frame hend]
      exact .of_not_encoding nofun nofun
  | regRead off lanes =>
    rcases execRegRead_cases off lanes s with hr | hr <;> cases hr.symm.trans ht <;> exact h.congr rfl
  | regWrite off lanes v =>
    rcases execRegWrite_cases hw s with hr | ⟨hr, hk⟩ <;> cases hr.symm.trans ht
    · exact h.congr rfl
    · exact h.of_storeReg v hk

/-- Settles O56, by the kinds of the oldest event: a reset and an error leave SCAN and RAW, and an access that decodes is
`State.Stuffed.of_exec`. -/
theorem stepKeepsStuffing : Obligations.StepKeepsStuffing := by
  refine ⟨fun s t hinv h ht => ?_, .of_not_encoding nofun nofun⟩
  rcases step_cases ht with ⟨-, rfl⟩ | ⟨e, rest, -, ⟨-, rfl⟩ | ⟨a, -, ⟨x, -, rfl⟩ | ⟨i, hd, hexec⟩⟩⟩
  · exact h
  · exact .of_not_encoding nofun nofun
  · exact (illegalCommand_ends x.word _).stuffed (h.congr rfl) (fun _ hu => hu.elim) rfl
  · exact (h.congr rfl : State.Stuffed _).of_exec (hinv.withPending rest) (decode_wf hd) hexec

/-! ## Transitions (45_framer.md R185) -/

/-- R185 by the instruction that completes: none but START, ABORT, SOFT_RESET, RAWFLUSH and the last SAMPLE write of an encode
changes STATE. -/
theorem Completes.transition {i : Instr} (hc : Completes s t i) (hne : t.st ≠ s.st) :
    (s.st = .idle ∧ t.st = .scan ∧ i = .start ∧ s.cfgTest = false) ∨
    (s.st = .idle ∧ t.st = .raw ∧ i = .start ∧ s.cfgTest = true) ∨
    (s.st = .scan ∧ t.st = .done ∧ s.sfill = 15#4 ∧ s.blkCount + 1#32 = s.blkTotal ∧ ∃ w, i = .sampleWrite w) ∨
    (s.st = .raw ∧ t.st = .done ∧ i = .rawflush) ∨
    (t.st = .idle ∧ (i = .abort ∨ i = .softReset)) := by
  cases i with
  | nop => exact absurd (congrArg State.st hc) hne
  | start =>
    obtain ⟨hs, ⟨htest, rfl⟩ | ⟨htest, ht⟩⟩ := hc
    · exact .inr (.inl ⟨hs, rfl, rfl, htest⟩)
    · exact .inl ⟨hs, startScan_st ht, rfl, htest⟩
  | qgen =>
    obtain ⟨-, rfl⟩ := hc
    exact absurd s.generateTables_st hne
  | hdefault =>
    obtain ⟨-, rfl⟩ := hc
    exact absurd s.loadDefaults_st hne
  | abort =>
    obtain rfl := hc
    exact .inr (.inr (.inr (.inr ⟨rfl, .inl rfl⟩)))
  | softReset =>
    obtain rfl := hc
    exact .inr (.inr (.inr (.inr ⟨rfl, .inr rfl⟩)))
  | rawbits len value =>
    have frame := writeBits_frame hc.2.2
    rw [State.packerOnly] at frame
    exact absurd (by rw [frame]) hne
  | rawflush =>
    obtain ⟨hs, ht⟩ := hc
    obtain ⟨u, -, hdone⟩ := bind_ok ht
    obtain rfl : u.enterDone = t := Except.ok.inj hdone
    exact .inr (.inr (.inr (.inl ⟨hs, rfl, rfl⟩)))
  | sampleWrite w =>
    obtain ⟨hs, ht⟩ := hc
    rcases sampleBody_frame hs ht with frame | ⟨h15, u, frame, ⟨rfl, -⟩ | ⟨rfl, hlast⟩⟩
    · exact absurd (by rw [frame]) hne
    · exact absurd (by rw [frame, hs]) hne
    · exact .inr (.inr (.inl ⟨hs, by rw [frame], h15, hlast, w, rfl⟩))
  | regRead off lanes => rcases hc with rfl | rfl <;> exact absurd rfl hne
  | regWrite off lanes v =>
    obtain ⟨-, rfl, -⟩ := hc
    exact absurd (storeReg_st s _ v) hne

/-- Settles O58, by the kinds of the oldest event: a reset goes to IDLE, an illegal command word is ignored or enters ERROR,
and the access of an instruction is the one the encoder gives. -/
theorem framerTransitions : Obligations.FramerTransitions := by
  intro s t ht hne
  rcases step_cases ht with ⟨-, rfl⟩ | ⟨e, rest, hp, ⟨rfl, rfl⟩ | ⟨a, rfl, ⟨x, -, rfl⟩ | ⟨i, hd, hexec⟩⟩⟩
  · exact absurd rfl hne
  · exact ⟨_, rest, hp, .inr (.inr (.inr (.inr (.inr ⟨rfl, .inl rfl⟩))))⟩
  all_goals refine ⟨_, rest, hp, ?_⟩
  · unfold illegalCommand at hne ⊢
    split at hne
    · exact absurd rfl hne
    · rename_i hs
      rw [if_neg hs]
      exact .inr (.inr (.inr (.inr (.inl ⟨hs, rfl, nofun⟩))))
  · obtain rfl := encodeOfDecode a i hd
    rcases exec_cases hexec with hc | rfl | ⟨hs, c, info, hcode, rfl⟩
    · rcases hc.transition hne with ⟨hs, ht, rfl, htest⟩ | ⟨hs, ht, rfl, htest⟩ | ⟨hs, ht, h15, hlast, w, rfl⟩ |
        ⟨hs, ht, rfl⟩ | ⟨ht, rfl | rfl⟩
      · exact .inl ⟨hs, ht, rfl, htest⟩
      · exact .inr (.inl ⟨hs, ht, rfl, htest⟩)
      · exact .inr (.inr (.inl ⟨hs, ht, h15, hlast, w, rfl⟩))
      · exact .inr (.inr (.inr (.inl ⟨hs, ht, rfl⟩)))
      · exact .inr (.inr (.inr (.inr (.inr ⟨ht, .inr (.inl rfl)⟩))))
      · exact .inr (.inr (.inr (.inr (.inr ⟨ht, .inr (.inr rfl)⟩))))
    · exact absurd rfl hne
    · exact .inr (.inr (.inr (.inr (.inl ⟨hs, rfl, hcode⟩))))

end Sys2Proof.Machine

/-! PROOFS of the family 46_commands.md: the registers that are writable in every state (R232), the readout (R234), NOP (R221),
ABORT (R225), HDEFAULT (R224) and the accesses that raise STATE_VIOLATION (R229). -/

namespace Sys2Proof.Machine

variable {s : State}

/-! ## Writes in every state (R232) -/

/-- A write-one-to-clear register, bit by bit. -/
theorem w1c_getLsbD (reg : BitVec 2) (v : Word) {i : Nat} (hi : i < 2) :
    (w1c reg v).getLsbD i = (reg.getLsbD i && !v.getLsbD i) := by
  simp [w1c, hi]

/-- A word write to a register that is never locked stores. -/
theorem execRegWrite_always {off : Offset} {lanes : Lanes} (hw : isWordAccess off lanes = true)
    (hk : (regAt off).kind = .rw ∨ (regAt off).kind = .w1c) (v : Word) (s : State) :
    execRegWrite off lanes v s = .next (storeReg s (regAt off) v) := by
  rw [execRegWrite, if_pos hw]
  rcases hk with hk | hk <;> rw [hk]

theorem exec_write_intStatus (v : Word) (s : State) :
    exec (.regWrite 0x028 0xF#4 v) s = .next { s with intStatus := w1c s.intStatus v } :=
  execRegWrite_always rfl (.inr rfl) v s

theorem exec_write_flags (v : Word) (s : State) :
    exec (.regWrite 0x030 0xF#4 v) s = .next { s with flags := w1c s.flags v } :=
  execRegWrite_always rfl (.inr rfl) v s

theorem exec_write_intEnable (v : Word) (s : State) :
    exec (.regWrite 0x02C 0xF#4 v) s = .next { s with intEnable := BitVec.ofNat 2 v.toNat } := by
  rw [← extractLsb'_zero_eq_ofNat]
  exact execRegWrite_always rfl (.inl rfl) v s

theorem exec_write_outIndex (v : Word) (s : State) :
    exec (.regWrite 0x044 0xF#4 v) s = .next { s with outIndex := BitVec.ofNat 30 v.toNat } := by
  rw [← extractLsb'_zero_eq_ofNat]
  exact execRegWrite_always rfl (.inl rfl) v s

/-- Settles O13: each of the four registers stores what its kind says. -/
theorem unlockedRegistersWritten : Obligations.UnlockedRegistersWritten := by
  intro s v
  exact ⟨⟨_, exec_write_intStatus v s, rfl, fun _ => w1c_getLsbD s.intStatus v⟩,
    ⟨_, exec_write_flags v s, rfl, fun _ => w1c_getLsbD s.flags v⟩, exec_write_intEnable v s, exec_write_outIndex v s⟩

/-! ## Readout (R234) -/

/-- A byte of the stream below OLEN is the byte of OBUF (10_state.md R44). -/
theorem State.streamByte_of_lt {j : Nat} (hj : j < s.olen) : s.streamByte j = s.outByte j := if_pos hj

/-- Settles O18: OUT_INDEX holds k / 4, so byte k mod 4 of OUT_DATA is byte 4·(k / 4) + k mod 4 of the stream. -/
theorem readoutReturnsStream : Obligations.ReadoutReturnsStream := by
  intro s k hdone hk hk32
  have hwrite := exec_write_outIndex (BitVec.ofNat 32 (k / 4)) s
  generalize ht : ({ s with outIndex := BitVec.ofNat 30 (BitVec.ofNat 32 (k / 4)).toNat } : State) = t at hwrite
  have hst : t.st = .done := by rw [← ht]; exact hdone
  have hpos : 4 * t.outIndex.toNat + k % 4 = k := by
    rw [← ht]
    simp only [BitVec.toNat_ofNat]
    omega
  have hbyte : byteOf t.outData (k % 4) = s.outByte k := by
    rw [State.outData_byte_of_done hst (Nat.mod_lt k (by decide)), hpos, State.streamByte_of_lt (by rw [← ht]; exact hk), ← ht]
    rfl
  exact ⟨t, _, hwrite, readsAs_outData t, hbyte, hst, by rw [← ht], by rw [← ht]⟩

/-! ## NOP and ABORT (R221, R225) -/

theorem exec_nop (s : State) : exec .nop s = .next s := by
  rw [exec, execNop, command_legal rfl, finish_ok]

theorem exec_abort (s : State) : exec .abort s = .next s.abortEncode := by
  rw [exec, execAbort, command_legal rfl, finish_ok]

/-- Settles O20: a NOP word with another bit set is one of the illegal words of R84. -/
theorem nopChangesNothing : Obligations.NopChangesNothing := by
  refine ⟨exec_nop, fun s w rest hopc hne hs hp => ?_⟩
  have hillegal : illegalWord w.toNat := .inl ⟨.inl (by omega), by omega⟩
  exact (illegalWordRaises s w rest hp hillegal).1 hs

/-- Settles O21: of the transitions of R185 those to IDLE alone start in ERROR. -/
theorem abortClears : Obligations.AbortClears := by
  refine ⟨exec_abort, fun s t hs ht hne => ?_⟩
  obtain ⟨e, rest, hp, ⟨h, -⟩ | ⟨h, -⟩ | ⟨h, -⟩ | ⟨h, -⟩ | ⟨h, -⟩ | ⟨-, he⟩⟩ := framerTransitions s t ht (hs ▸ hne)
  iterate 4 exact nomatch hs.symm.trans h
  · exact absurd hs h
  · exact ⟨e, rest, hp, he⟩

/-! ## HDEFAULT (R224) -/

theorem mem_defaultEntries_bits (h : HTab) {len : Nat} (h1 : 1 ≤ len) (h16 : len ≤ 16) :
    (bitsAddr h len, BitVec.ofNat 8 ((defaultBits h).getD (len - 1) 0)) ∈ defaultEntries h := by
  refine List.mem_append_left _ (List.mem_map.2 ⟨len - 1, List.mem_range.2 (by omega), ?_⟩)
  rw [Nat.sub_add_cancel h1]

theorem mem_defaultEntries_val (h : HTab) {k : Nat} (hk : k < 256) :
    (valAddr h k, BitVec.ofNat 8 ((defaultVals h).getD k 0)) ∈ defaultEntries h :=
  List.mem_append_right _ (List.mem_map_of_mem (List.mem_range.2 hk))

theorem defaultEntries_addrs (h : HTab) : (defaultEntries h).map Prod.fst =
    (List.range 16).map (fun i => bitsAddr h (i + 1)) ++ (List.range 256).map (valAddr h) := by
  simp [defaultEntries, Function.comp_def]

/-- The entries of a table lie in its 0x800 bytes of the window. -/
theorem defaultEntries_addr {h : HTab} {a : Nat} (ha : a ∈ (defaultEntries h).map Prod.fst) :
    htBase h ≤ a ∧ a < htBase h + 0x800 := by
  rw [defaultEntries_addrs] at ha
  rcases List.mem_append.1 ha with ha | ha
  all_goals
    obtain ⟨i, hi, rfl⟩ := List.mem_map.1 ha
    have hi := List.mem_range.1 hi
    simp only [bitsAddr, valAddr]
    omega

theorem defaultEntries_nodup (h : HTab) : ((defaultEntries h).map Prod.fst).Nodup := by
  have hbits : Function.Injective fun i => bitsAddr h (i + 1) := fun i j hij => by simp only [bitsAddr] at hij; omega
  have hvals : Function.Injective (valAddr h) := fun i j hij => by simp only [valAddr] at hij; omega
  rw [defaultEntries_addrs]
  refine (List.nodup_range.map hbits).append (List.nodup_range.map hvals) fun a ha hb => ?_
  obtain ⟨i, hi, rfl⟩ := List.mem_map.1 ha
  obtain ⟨k, -, hk⟩ := List.mem_map.1 hb
  have hi := List.mem_range.1 hi
  simp only [bitsAddr, valAddr] at hk
  omega

/-- The tables HDEFAULT loads, in its order. -/
def HTab.all : List HTab := [.dc0, .ac0, .dc1, .ac1]

theorem HTab.mem_all (h : HTab) : h ∈ HTab.all := by cases h <;> decide

theorem HTab.all_ascending : HTab.all.Pairwise fun h h' => h.index < h'.index := by decide

theorem State.storeTables_frame (s : State) (ws : List (Nat × Byte)) :
    s.storeTables ws = { s with tables := (s.storeTables ws).tables } := rfl

theorem State.loadDefaults_frame (s : State) : s.loadDefaults = { s with tables := s.loadDefaults.tables } :=
  s.storeTables_frame _

theorem State.loadDefaults_tables (s : State) :
    s.loadDefaults.tables = Memory.writeAll .tables s.tables (HTab.all.flatMap defaultEntries) := by
  have hws : defaultEntries .dc0 ++ defaultEntries .ac0 ++ defaultEntries .dc1 ++ defaultEntries .ac1 =
      HTab.all.flatMap defaultEntries := by simp [HTab.all]
  rw [State.loadDefaults, State.storeTables_tables, hws]

/-- No two entries of the four tables have one address. -/
theorem allDefaultEntries_nodup : ((HTab.all.flatMap defaultEntries).map Prod.fst).Nodup := by
  rw [List.map_flatMap, List.nodup_flatMap]
  refine ⟨fun h _ => defaultEntries_nodup h, HTab.all_ascending.imp fun {h h'} hlt a ha ha' => ?_⟩
  have hlo := defaultEntries_addr ha
  have hhi := defaultEntries_addr ha'
  simp only [htBase] at hlo hhi
  omega

/-- An entry of a default table reads back after HDEFAULT. -/
theorem State.loadDefaults_table (hwf : Memory.wf .tables s.tables = true) {h : HTab} {w : Nat × Byte}
    (hw : w ∈ defaultEntries h) : s.loadDefaults.table w.1 = w.2 := by
  rw [State.table, s.loadDefaults_tables]
  exact Memory.read_writeAll_mem hwf allDefaultEntries_nodup (List.mem_flatMap.2 ⟨h, h.mem_all, hw⟩)

theorem State.loadDefaults_table_below {a : Nat} (ha : a < 0x1000) : s.loadDefaults.table a = s.table a := by
  rw [State.table, s.loadDefaults_tables]
  refine Memory.read_writeAll_other fun w hw => ?_
  obtain ⟨h, -, hw⟩ := List.mem_flatMap.1 hw
  have haddr := defaultEntries_addr (List.mem_map_of_mem hw)
  rw [htBase] at haddr
  omega

/-- An entry of a list of byte-sized numbers, stored as a byte, keeps its number. -/
theorem toNat_ofNat_getD {l : List Nat} (hl : ∀ n ∈ l, n < 256) (i : Nat) :
    (BitVec.ofNat 8 (l.getD i 0)).toNat = l.getD i 0 := by
  refine Nat.mod_eq_of_lt ?_
  rw [List.getD_eq_getElem?_getD]
  cases hi : l[i]? with
  | none => decide
  | some n => exact hl n (List.mem_of_getElem? hi)

theorem defaultBits_lt (h : HTab) : ∀ n ∈ defaultBits h, n < 256 := by cases h <;> decide

theorem defaultVals_lt (h : HTab) : ∀ n ∈ defaultVals h, n < 256 := by cases h <;> decide +kernel

theorem exec_hdefault_of_idle (hs : s.st = .idle) : exec .hdefault s = .next s.loadDefaults := by
  have hlegal : legalIdle s.st = true := by rw [hs]; rfl
  rw [exec, execHdefault, command_legal hlegal, finish_ok]

/-- Settles O23: HDEFAULT stores the default tables entry by entry, at addresses that do not repeat and lie above the
quantization tables. -/
theorem hdefaultLoadsDefaults : Obligations.HdefaultLoadsDefaults := by
  intro s hs hwf
  refine ⟨s.loadDefaults, exec_hdefault_of_idle hs, s.loadDefaults_frame, fun h => ⟨fun len h1 h16 => ?_, fun k hk => ?_⟩,
    fun a => State.loadDefaults_table_below⟩
  · rw [State.htBits, State.loadDefaults_table hwf (mem_defaultEntries_bits h h1 h16), toNat_ofNat_getD (defaultBits_lt h)]
  · rw [State.htVal, State.loadDefaults_table hwf (mem_defaultEntries_val h hk), toNat_ofNat_getD (defaultVals_lt h)]

/-! ## STATE_VIOLATION (R229, R230) -/

/-- (STATE << 8) | OPC (60_exceptions.md R262). -/
theorem violationInfo_eq (st : FramerState) {opc : Nat} (hopc : opc < 256) :
    violationInfo st (BitVec.ofNat 8 opc) = BitVec.ofNat 32 (256 * st.code.toNat + opc) := by
  have hst := st.code_le
  apply BitVec.eq_of_toNat_eq
  simp only [violationInfo, toNat_append_eq_add, BitVec.toNat_ofNat]
  omega

/-- An access that is not legal outside ERROR. -/
theorem command_violation_ofNat {legal : FramerState → Bool} {opc : Nat} {body : State → Except Stop State}
    (hl : legal s.st = false) (hs : s.st ≠ .error) (hopc : opc < 256) : command legal (BitVec.ofNat 8 opc) body s =
      .next (errorEntry .stateViolation (BitVec.ofNat 32 (256 * s.st.code.toNat + opc)) s) := by
  rw [command_violation hl hs, violationInfo_eq s.st hopc]

theorem execRawbits_of_le {len : BitVec 5} (hlen : len.toNat ≤ 16) (v : BitVec 16) (s : State) :
    execRawbits len v s = command legalRaw 0x10#8 (writeBits v len.toNat) s := if_neg (Nat.not_lt.2 hlen)

/-- Settles O24: each of the accesses is a command that is legal in one state only. -/
theorem stateViolations : Obligations.StateViolations := by
  intro s hs
  refine ⟨fun hidle x hx => ?_, fun hraw => ?_, fun hscan w => ?_⟩
  · have hl : legalIdle s.st = false := by simpa [legalIdle] using hidle
    simp only [List.mem_cons, List.not_mem_nil, or_false] at hx
    rcases hx with rfl | rfl | rfl
    · exact command_violation_ofNat (opc := 0x01) (body := startBody) hl hs (by decide)
    · exact command_violation_ofNat (opc := 0x02) (body := fun s => .ok s.generateTables) hl hs (by decide)
    · exact command_violation_ofNat (opc := 0x03) (body := fun s => .ok s.loadDefaults) hl hs (by decide)
  · have hl : legalRaw s.st = false := by simpa [legalRaw] using hraw
    exact ⟨fun len v hlen => (execRawbits_of_le hlen v s).trans (command_violation_ofNat hl hs (by decide)),
      command_violation_ofNat (opc := 0x11) (body := rawflushBody) hl hs (by decide)⟩
  · have hl : (s.st == .scan) = false := by simpa using hscan
    exact command_violation_ofNat (legal := fun st => st == .scan) (opc := 0xFF) (body := sampleBody w) hl hs (by decide)

end Sys2Proof.Machine

/-! PROOFS of the family 60_exceptions.md, errors: what error entry does (60_exceptions.md R265), which accesses ERROR ignores (R266),
and what stays as it is until ERROR is left (R267). -/

namespace Sys2Proof.Machine

variable {s t : State}

/-! ## Error entry (60_exceptions.md R265) -/

/-- Settles O25: the fields of `errorEntry`, and the reads of the registers that show them. -/
theorem errorEntryEffect : Obligations.ErrorEntryEffect := by
  rintro e info s _ rfl
  have hne : (errorEntry e info s).st ≠ .done := by simp
  exact ⟨rfl, rfl, rfl, rfl, rfl, sameConfig_of_frame rfl, rfl, rfl, rfl, rfl, rfl,
    State.outLen_of_ne_done hne ▸ readsAs_outLen _, State.outData_of_ne_done hne ▸ readsAs_outData _,
    readsAs_named 5, readsAs_named 4⟩

/-! ## Accesses in ERROR (60_exceptions.md R265, R266, R267) -/

/-- An access that neither completes in ERROR nor stops is ignored there. -/
theorem Ends.ignored_of_error {done : State → Prop} {o : Host.Outcome State Fault Refusal} (he : Ends s done o)
    (hs : s.st = .error) (hdone : ∀ u, ¬ done u) : o = .next s.ignoreAccess := by
  obtain ⟨u, hu, hd | rfl | ⟨hne, -⟩⟩ := he
  · exact absurd hd (hdone u)
  · exact hu
  · exact absurd hs hne

theorem exec_sampleWrite_of_error (hs : s.st = .error) (w : Word) : exec (.sampleWrite w) s = .next s.ignoreAccess := by
  have hscan : s.st ≠ .scan := by simp [hs]
  exact (execSampleWrite_ends w (fun h => absurd h hscan) fun h => absurd h hscan).ignored_of_error hs
    fun _ hd => hscan hd.1

/-- In ERROR every command is ignored but NOP, ABORT and SOFT_RESET. -/
theorem exec_command_of_error (hs : s.st = .error) {w : Word} {i : Instr} (hd : decodeCmd w = .ok i) (h0 : w ≠ 0#32)
    (h4 : w ≠ 4#32) (h5 : w ≠ 5#32) : exec i s = .next s.ignoreAccess := by
  have hword := encode_of_decodeCmd hd
  have hidle : s.st ≠ .idle := by simp [hs]
  have hraw : s.st ≠ .raw := by simp [hs]
  rcases decodeCmd_ok_cases hd with ⟨hplain, -⟩ | ⟨-, -, -, rfl⟩
  · rcases plainCommand_cases hplain with ⟨-, rfl⟩ | ⟨-, rfl⟩ | ⟨-, rfl⟩ | ⟨-, rfl⟩ | ⟨-, rfl⟩ | ⟨-, rfl⟩ | ⟨-, rfl⟩
    · exact absurd (Laws.OnCmd.cmdWrite_inj hword).symm h0
    · exact (execStart_ends s).ignored_of_error hs fun _ hd => hidle hd.1
    · exact (execQgen_ends s).ignored_of_error hs fun _ hd => hidle hd.1
    · exact (execHdefault_ends s).ignored_of_error hs fun _ hd => hidle hd.1
    · exact absurd (Laws.OnCmd.cmdWrite_inj hword).symm h4
    · exact absurd (Laws.OnCmd.cmdWrite_inj hword).symm h5
    · exact (execRawflush_ends fun h => absurd h hraw).ignored_of_error hs fun _ hd => hraw hd.1
  · exact (execRawbits_ends _ _ fun h => absurd h hraw).ignored_of_error hs fun _ hd => hraw hd.1

/-- Settles O26: a command word that decodes is a command that is not legal in ERROR; one that does not is ignored there. -/
theorem errorIgnoresCommands : Obligations.ErrorIgnoresCommands := by
  refine fun s w rest hs => ⟨fun hp h0 h4 h5 => ?_, fun hp => ?_⟩
  · cases hd : decodeCmd w with
    | ok i =>
      rw [step_of_decode_ok hp hd]
      exact exec_command_of_error (s := { s with pending := rest }) hs hd h0 h4 h5
    | error x =>
      rw [step_of_decode_error hp hd, illegalCommand, if_pos hs]
      rfl
  · rw [step_of_decode_ok hp rfl]
    exact exec_sampleWrite_of_error (s := { s with pending := rest }) hs w

/-- t is still in ERROR, with the error of s, its unspecified datapath state and its output length. -/
def State.StaysInError (s t : State) : Prop :=
  t.st = .error ∧ t.errCode = s.errCode ∧ t.errInfo = s.errInfo ∧ sameDatapath s t ∧ t.olen = s.olen

/-- A change of fields that `State.StaysInError` does not speak of. -/
theorem State.StaysInError.of_frame (hs : s.st = .error) (frame : t = { s with
      cfgMode := t.cfgMode, cfgTest := t.cfgTest, width := t.width, height := t.height, quality := t.quality
      tables := t.tables, intStatus := t.intStatus, intEnable := t.intEnable, flags := t.flags, outIndex := t.outIndex
      rdata := t.rdata, pending := t.pending }) : s.StaysInError t := by
  rw [frame]
  exact ⟨hs, rfl, rfl, ⟨rfl, rfl, rfl, rfl, rfl, rfl, rfl, rfl, rfl, rfl, rfl, rfl, rfl, rfl⟩, rfl⟩

theorem storeReg_staysInError (hs : s.st = .error) {r : Reg}
    (hk : r.kind = .rw ∨ r.kind = .w1c ∨ r.kind = .cl ∧ s.locked = false) (v : Word) :
    s.StaysInError (storeReg s r v) := by
  rcases or_assoc.2 hk with hk | ⟨hk, -⟩
  · exact .of_frame hs (by rw [storeReg_unlocked hk])
  · exact .of_frame hs (by rw [(storeReg_config hk s v).1])

/-- In ERROR only NOP, ABORT, SOFT_RESET and the register accesses complete. -/
theorem Completes.of_error {i : Instr} (hc : Completes s t i) (hs : s.st = .error) :
    s.StaysInError t ∨ (i = .abort ∨ i = .softReset) ∧ t.st = .idle ∧ t.errCode = .none ∧ t.errInfo = 0#32 := by
  cases i with
  | nop =>
    obtain rfl := hc
    exact .inl (.of_frame hs rfl)
  | start | qgen | hdefault | rawbits | rawflush | sampleWrite => exact nomatch hs.symm.trans hc.1
  | abort =>
    obtain rfl := hc
    exact .inr ⟨.inl rfl, rfl, rfl, rfl⟩
  | softReset =>
    obtain rfl := hc
    exact .inr ⟨.inr rfl, rfl, rfl, rfl⟩
  | regRead off lanes => rcases hc with rfl | rfl <;> exact .inl (.of_frame hs rfl)
  | regWrite off lanes v =>
    obtain ⟨-, rfl, hk⟩ := hc
    exact .inl (storeReg_staysInError hs hk v)

/-- Settles O27, by the kinds of the oldest event: what does not complete in ERROR is ignored, and what completes keeps the
error or returns to IDLE. -/
theorem errorIsSticky : Obligations.ErrorIsSticky := by
  intro s t hs ht
  rcases step_cases ht with ⟨-, rfl⟩ | ⟨e, rest, hp, ⟨rfl, rfl⟩ | ⟨a, rfl, ⟨x, -, rfl⟩ | ⟨i, hd, hexec⟩⟩⟩
  · exact .inl (State.StaysInError.of_frame hs rfl)
  · exact .inr ⟨rfl, rfl, rfl, _, rest, hp, .inl rfl⟩
  · rw [illegalCommand, if_pos hs]
    exact .inl (State.StaysInError.of_frame hs rfl)
  · obtain rfl := encodeOfDecode a i hd
    rcases exec_cases hexec with hc | rfl | ⟨hne, -⟩
    · rcases hc.of_error hs with hstays | ⟨hi, hst, hcode, hinfo⟩
      · exact .inl hstays
      · refine .inr ⟨hst, hcode, hinfo, _, rest, hp, ?_⟩
        rcases hi with rfl | rfl
        · exact .inr (.inl rfl)
        · exact .inr (.inr rfl)
    · exact .inl (State.StaysInError.of_frame hs rfl)
    · exact absurd hs hne

end Sys2Proof.Machine

/-! PROOFS of the family 60_exceptions.md, interrupts: which steps set and clear the bits of INT_STATUS (60_exceptions.md R270). -/

namespace Sys2Proof.Machine

variable {s t : State}

/-! ## Interrupts (60_exceptions.md R270, 10_state.md R33) -/

/-- How INT_STATUS can change: DONE is set where DONE is entered, ERROR where ERROR is entered; else no bit is set, and one
is cleared only where `clears` holds of it. -/
inductive State.Interrupts (s t : State) (clears : Nat → Prop) : Prop
  | entersDone (hs : s.st ≠ .done) (ht : t.st = .done) (hset : t.intStatus = s.intStatus ||| doneBit)
  | entersError (hs : s.st ≠ .error) (ht : t.st = .error) (hset : t.intStatus = s.intStatus ||| errorBit)
  | setsNone (hst : t.st = s.st ∨ t.st ≠ .done ∧ t.st ≠ .error)
      (hset : ∀ k < 2, t.intStatus.getLsbD k = true → s.intStatus.getLsbD k = true)
      (hclear : ∀ k < 2, s.intStatus.getLsbD k = true → t.intStatus.getLsbD k = false → clears k)

variable {clears : Nat → Prop}

theorem State.Interrupts.kept (hint : t.intStatus = s.intStatus) (hst : t.st = s.st ∨ t.st ≠ .done ∧ t.st ≠ .error) :
    s.Interrupts t clears :=
  .setsNone hst (fun k _ hk => hint ▸ hk) fun k _ hk hk' => absurd (hint ▸ hk) (by simp [hk'])

/-- INT_STATUS cleared by a reset. -/
theorem State.Interrupts.cleared (hint : t.intStatus = 0#2) (hst : t.st = .idle) (hclear : ∀ k, clears k) :
    s.Interrupts t clears :=
  .setsNone (.inr (by simp [hst])) (fun k _ hk => by simp [hint] at hk) fun k _ _ _ => hclear k

theorem toNat_of_regAt_intStatus {off : Offset} (h : regAt off = .intStatus) : off.toNat / 4 = 10 := by
  unfold regAt at h
  simp only at h
  split at h
  · exact (by decide : ∀ n < 24, namedReg n = .intStatus → n = 10) _ (by omega) h
  · unfold htReg at h
    split_ifs at h

/-- INT_STATUS is written by word writes at 0x028 alone. -/
theorem regWrite_of_intStatus {off : Offset} {lanes : Lanes} (hw : isWordAccess off lanes = true)
    (hr : regAt off = .intStatus) (v : Word) : Instr.regWrite off lanes v = .regWrite 0x028 0xF#4 v := by
  obtain ⟨rfl, hal⟩ := isWordAccess_iff.1 hw
  have hdiv := toNat_of_regAt_intStatus hr
  obtain rfl : off = 0x028 := BitVec.eq_of_toNat_eq (by show off.toNat = 40; omega)
  rfl

theorem storeReg_intStatus {r : Reg} (hr : r ≠ .intStatus) (s : State) (v : Word) :
    (storeReg s r v).intStatus = s.intStatus := by
  cases r with
  | intStatus => exact absurd rfl hr
  | _ => rfl

/-- R270 by the instruction that completes: SOFT_RESET and writes of 1 to a bit of INT_STATUS clear, the end of a stream sets
DONE, and no other instruction changes INT_STATUS. -/
theorem Completes.interrupts {i : Instr} (hc : Completes s t i) : s.Interrupts t fun k =>
    i = .softReset ∨ ∃ v : Word, v.getLsbD k = true ∧ i = .regWrite 0x028 0xF#4 v := by
  cases i with
  | nop =>
    obtain rfl := hc
    exact .kept rfl (.inl rfl)
  | start =>
    obtain ⟨-, ⟨-, rfl⟩ | ⟨-, ht⟩⟩ := hc
    · exact .kept rfl (.inr ⟨nofun, nofun⟩)
    · exact .kept (by rw [startScan_frame ht]; rfl) (.inr (by simp [startScan_st ht]))
  | qgen =>
    obtain ⟨-, rfl⟩ := hc
    exact .kept (by rw [s.generateTables_frame]) (.inl s.generateTables_st)
  | hdefault =>
    obtain ⟨-, rfl⟩ := hc
    exact .kept (s.storeTables_intStatus _) (.inl s.loadDefaults_st)
  | abort =>
    obtain rfl := hc
    exact .kept rfl (.inr ⟨nofun, nofun⟩)
  | softReset =>
    obtain rfl := hc
    exact .cleared rfl rfl fun _ => .inl rfl
  | rawbits len value =>
    have frame := writeBits_frame hc.2.2
    rw [State.packerOnly] at frame
    exact .kept (by rw [frame]) (.inl (by rw [frame]))
  | rawflush =>
    obtain ⟨hs, ht⟩ := hc
    obtain ⟨u, hu, hdone⟩ := bind_ok ht
    obtain rfl : u.enterDone = t := Except.ok.inj hdone
    exact .entersDone (by simp [hs]) rfl (by rw [State.enterDone_intStatus, flush_frame hu])
  | sampleWrite w =>
    obtain ⟨hs, ht⟩ := hc
    rcases sampleBody_frame hs ht with frame | ⟨-, u, frame, ⟨rfl, -⟩ | ⟨rfl, -⟩⟩
    · exact .kept (by rw [frame]) (.inl (by rw [frame]))
    · exact .kept (by rw [frame]; rfl) (.inl (by rw [frame, hs]))
    · exact .entersDone (by simp [hs]) (by rw [frame]) (by rw [frame]; rfl)
  | regRead off lanes => rcases hc with rfl | rfl <;> exact .kept rfl (.inl rfl)
  | regWrite off lanes v =>
    obtain ⟨hw, rfl, -⟩ := hc
    by_cases hr : regAt off = .intStatus
    · have hbit : ∀ k < 2, (storeReg s (regAt off) v).intStatus.getLsbD k = (s.intStatus.getLsbD k && !v.getLsbD k) := by
        rw [hr]
        exact fun _ => w1c_getLsbD s.intStatus v
      refine .setsNone (.inl (storeReg_st s _ v)) (fun k hk ht => ?_) fun k hk hs ht => ?_
      · rw [hbit k hk, Bool.and_eq_true] at ht
        exact ht.1
      · rw [hbit k hk, hs, Bool.true_and, Bool.not_eq_false'] at ht
        exact .inr ⟨v, ht, regWrite_of_intStatus hw hr v⟩
    · exact .kept (storeReg_intStatus hr s v) (.inl (storeReg_st s _ v))

/-- R270 by the oldest event. -/
theorem interrupts_of_step (ht : step s = .next t) : s.Interrupts t fun k => ∃ e rest, s.pending = e :: rest ∧
    (e = .reset ∨ e = .access (cmdWrite 5#32) ∨ ∃ v : Word, v.getLsbD k = true ∧ e = .access (.write 0x028 0xF#4 v)) := by
  rcases step_cases ht with ⟨-, rfl⟩ | ⟨e, rest, hp, ⟨rfl, rfl⟩ | ⟨a, rfl, ⟨x, -, rfl⟩ | ⟨i, hd, hexec⟩⟩⟩
  · exact .kept rfl (.inl rfl)
  · exact .cleared rfl rfl fun _ => ⟨_, rest, hp, .inl rfl⟩
  · unfold illegalCommand
    split
    · exact .kept rfl (.inl rfl)
    · rename_i hs
      exact .entersError hs rfl rfl
  · obtain rfl := encodeOfDecode a i hd
    rcases exec_cases hexec with hc | rfl | ⟨hs, e, info, -, rfl⟩
    · rcases hc.interrupts with ⟨hs, hst, hset⟩ | ⟨hs, hst, hset⟩ | ⟨hst, hset, hclear⟩
      · exact .entersDone hs hst hset
      · exact .entersError hs hst hset
      · refine .setsNone hst hset fun k hk hbit hbit' => ⟨_, rest, hp, .inr ?_⟩
        rcases hclear k hk hbit hbit' with rfl | ⟨v, hv, rfl⟩
        · exact .inl rfl
        · exact .inr ⟨v, hv, rfl⟩
    · exact .kept rfl (.inl rfl)
    · exact .entersError hs rfl rfl

/-- Settles O28, by the ways INT_STATUS can change. -/
theorem interruptSources : Obligations.InterruptSources := by
  intro s t ht
  rcases interrupts_of_step ht with ⟨hs, hst, hset⟩ | ⟨hs, hst, hset⟩ | ⟨hst, hset, hclear⟩
  · refine ⟨fun _ => .inr ⟨hs, hst⟩, fun h => .inl ?_, fun _ _ => hset, fun _ h => ?_, fun k _ hbit h => ?_⟩
    · simpa [hset, doneBit] using h
    · simp [hst] at h
    · simp [hset, hbit] at h
  · refine ⟨fun h => .inl ?_, fun _ => .inr ⟨hs, hst⟩, fun _ h => ?_, fun _ _ => hset, fun k _ hbit h => ?_⟩
    · simpa [hset, errorBit] using h
    · simp [hst] at h
    · simp [hset, hbit] at h
  · refine ⟨fun h => .inl (hset 0 (by decide) h), fun h => .inl (hset 1 (by decide) h), fun h h' => ?_, fun h h' => ?_, hclear⟩
    · rcases hst with hst | ⟨hdone, -⟩
      · exact absurd (hst ▸ h') h
      · exact absurd h' hdone
    · rcases hst with hst | ⟨-, herror⟩
      · exact absurd (hst ▸ h') h
      · exact absurd h' herror

end Sys2Proof.Machine

/-! PROOFS of the family 70_reset_and_hazards.md, reset: both resets (70_reset_and_hazards.md R290), what the core reads after one (R291),
and that it then waits (R292). -/

namespace Sys2Proof.Machine

/-! ## Reset (70_reset_and_hazards.md R290, R291) -/

theorem exec_softReset (s : State) : exec .softReset s = .next s.resetCore := by
  rw [exec, execSoftReset, command_legal rfl, finish_ok]

/-- Settles O8: both resets are `State.resetCore`, with IBUF and OBUF at the model's own values (log 8, log 9). -/
theorem bothResets : Obligations.BothResets := ⟨fun _ _ hp => step_of_pending_reset hp, exec_softReset⟩

/-- Settles O54: the reset state is what a reset makes of itself. -/
theorem resetMeetsInvariant : Obligations.ResetMeetsInvariant := State.reset.resetCore_inv

/-! ## START without a size (70_reset_and_hazards.md R292) -/

/-- Settles O7: with a zero dimension START answers the error of the mode, or that of the dimensions. -/
theorem idleAfterReset : Obligations.IdleAfterReset := by
  refine ⟨fun s hp => step_of_pending_nil hp, step_of_pending_nil rfl, fun s hs htest hz => ?_, ?_⟩
  · obtain ⟨hmode, hsize, -⟩ := startRejects s hs htest
    rcases Nat.lt_or_ge s.cfgMode.toNat 2 with hm | hm
    · exact ⟨.invalidArgument, _, nofun, hsize (by omega) hz⟩
    · exact ⟨.unsupportedFormat, _, nofun, hmode hm⟩
  · exact exec_start_of_invalid rfl rfl (validate_of_dimension (by decide) (.inl rfl))

/-! ## What everything reads after reset (R291) -/

theorem zext32_ofNat {n a : Nat} (h : a < 2 ^ n) : zext32 (BitVec.ofNat n a) = BitVec.ofNat 32 a := by
  apply BitVec.eq_of_toNat_eq
  simp [zext32, Nat.mod_eq_of_lt h]

/-- A byte of a list of byte-sized numbers, as a word read returns it. -/
theorem zext32_getD {l : List Nat} (hl : ∀ n ∈ l, n < 256) (i : Nat) :
    zext32 (BitVec.ofNat 8 (l.getD i 0)) = BitVec.ofNat 32 (l.getD i 0) :=
  zext32_ofNat (by rw [← toNat_ofNat_getD hl]; exact (BitVec.ofNat 8 (l.getD i 0)).isLt)

theorem QTab.base_lt (q : QTab) : ∀ n ∈ q.base, n < 256 := by cases q <;> decide

/-- QT0 and QT1 hold the base tables after reset. -/
theorem reset_qt (q : QTab) {i : Nat} (hi : i < 64) : State.reset.qt q i = BitVec.ofNat 8 (q.base.getD i 0) := by
  show resetTable (qtAddr q i) = _
  cases q with
  | qt0 =>
    rw [resetTable, qtAddr, QTab.index, if_neg (by omega), if_pos (by omega),
      show (0x200 + 0x100 * 0 + 4 * i - 0x200) / 4 = i by omega, QTab.base]
  | qt1 =>
    rw [resetTable, qtAddr, QTab.index, if_neg (by omega), if_neg (by omega), if_pos (by omega),
      show (0x200 + 0x100 * 1 + 4 * i - 0x300) / 4 = i by omega, QTab.base]

theorem reset_htBits (h : HTab) {i : Nat} (hi : i < 16) :
    State.reset.htBits h (i + 1) = BitVec.ofNat 8 ((defaultBits h).getD i 0) := by
  rw [State.htBits, bitsAddr, Nat.add_sub_cancel, reset_table h (by omega), if_pos (by omega),
    Nat.mul_div_cancel_left i (by decide)]

theorem readsAs_reset_htBits (h : HTab) {i : Nat} (hi : i < 16) :
    readsAs State.reset (htBase h + 4 * i) (BitVec.ofNat 32 ((defaultBits h).getD i 0)) := by
  rw [← zext32_getD (defaultBits_lt h) i, ← reset_htBits h hi]
  exact readsAs_htBits h (len := i + 1) (by omega) (by omega)

theorem readsAs_reset_htVal (h : HTab) {k : Nat} (hk : k < 256) :
    readsAs State.reset (htBase h + 0x400 + 4 * k) (BitVec.ofNat 32 ((defaultVals h).getD k 0)) := by
  rw [← zext32_getD (defaultVals_lt h) k, ← reset_htVal h hk]
  exact readsAs_htVal h hk

theorem readsAs_reset_lastblk {k : Nat} (hk : k < 64) : readsAs State.reset (0x100 + 4 * k) 0#32 := by
  have hzero : State.reset.lastblk[k] = 0#16 := Vector.getElem_replicate _
  have hread := readsAs_lastblk (s := State.reset) ⟨k, hk⟩
  rw [Fin.getElem_fin, hzero] at hread
  exact hread

theorem readsAs_reset_qt (q : QTab) {i : Nat} (hi : i < 64) :
    readsAs State.reset (qtAddr q i) (BitVec.ofNat 32 (q.base.getD i 0)) := by
  rw [← zext32_getD q.base_lt i, ← reset_qt q hi]
  exact readsAs_qt q hi

/-- Settles O19: the registers below 0x060 by their word index, LASTBLK and the tables by the addresses of their entries. -/
theorem resetValues : Obligations.ResetValues := by
  refine ⟨?_, fun k hk => ⟨readsAs_reset_lastblk hk, readsAs_reset_qt .qt0 hk, readsAs_reset_qt .qt1 hk⟩,
    fun h => ⟨fun i => readsAs_reset_htBits h, fun k => readsAs_reset_htVal h, fun _ => ?_⟩⟩
  · simp only [List.forall_mem_cons, List.not_mem_nil, false_implies, implies_true, and_true]
    exact ⟨readsAs_named 0, readsAs_named 1, readsAs_named 3, readsAs_named 4, readsAs_named 5, readsAs_named 6,
      readsAs_named 7, readsAs_named 8, readsAs_named 9, readsAs_named 10, readsAs_named 11, readsAs_named 12,
      readsAs_named 14, readsAs_named 15, readsAs_named 16, readsAs_named 17, readsAs_named 18, readsAs_named 19,
      readsAs_named 20, readsAs_named 21, readsAs_named 22, readsAs_named 23⟩
  · cases h <;> rfl

end Sys2Proof.Machine

/-! PROOFS of the family 70_reset_and_hazards.md, independence (70_reset_and_hazards.md R301): two states that agree on an
encode are taken to two that agree by every operation of the encode, or raise the same error. -/

namespace Sys2Proof.Machine

variable {s s' : State} {tabs : List HTab}

/-! ## What the configuration determines -/

/-- s' with what the configuration of s determines written as that of s: what looks at no more of a state is then the same. -/
theorem sameConfig.frame (h : sameConfig s s') : s' = { s' with
    cfgMode := s.cfgMode, cfgTest := s.cfgTest, width := s.width, height := s.height, quality := s.quality
    tables := s.tables } := by
  obtain ⟨hmode, htest, hwidth, hheight, hquality, htables⟩ := h
  rw [← hmode, ← htest, ← hwidth, ← hheight, ← hquality, ← htables]

theorem sameConfig.firstZero_eq (h : sameConfig s s') (q : QTab) : s'.firstZero q = s.firstZero q := by
  rw [h.frame]; rfl

theorem sameConfig.quantTabs_eq (h : sameConfig s s') : s'.quantTabs = s.quantTabs := by
  rw [h.frame]; rfl

theorem sameConfig.huffTabs_eq (h : sameConfig s s') : s'.huffTabs = s.huffTabs := by
  rw [h.frame]; rfl

theorem sameConfig.blocksOf_eq (h : sameConfig s s') : s'.blocksOf = s.blocksOf := by
  rw [h.frame]; rfl

theorem sameConfig.headerBytes_eq (h : sameConfig s s') : s'.headerBytes = s.headerBytes := by
  rw [h.frame]; rfl

theorem sameConfig.buildTable_eq (h : sameConfig s s') (tab : HTab) : buildTable s' tab = buildTable s tab := by
  rw [h.frame]; rfl

theorem sameConfig.checkQuant_eq (h : sameConfig s s') (qs : List QTab) : checkQuant s' qs = checkQuant s qs := by
  induction qs with
  | nil => rfl
  | cons q qs ih => rw [checkQuant, checkQuant, h.firstZero_eq, ih]

/-- The code tables START builds are the same in both, whatever codes were there before (45_framer.md R186). -/
theorem sameConfig.buildTables_cases (h : sameConfig s s') (hs : List HTab) (e e' : EHuf) :
    (∃ x, buildTables s hs e = .error x ∧ buildTables s' hs e' = .error x) ∨
      ∃ r r', buildTables s hs e = .ok r ∧ buildTables s' hs e' = .ok r' ∧
        ∀ tab, tab ∈ hs ∨ e'.get tab = e.get tab → r'.get tab = r.get tab := by
  induction hs generalizing e e' with
  | nil => exact .inr ⟨e, e', rfl, rfl, fun tab htab => htab.resolve_left List.not_mem_nil⟩
  | cons h1 hs ih =>
    rw [buildTables, buildTables, h.buildTable_eq]
    cases hb : buildTable s h1 with
    | error x => exact .inl ⟨x, rfl, rfl⟩
    | ok l =>
      rcases ih (e.set h1 l) (e'.set h1 l) with hx | ⟨r, r', hr, hr', hget⟩
      · exact .inl hx
      · refine .inr ⟨r, r', hr, hr', fun tab htab => hget tab ?_⟩
        by_cases heq : tab = h1
        · exact .inr (by rw [heq, EHuf.get_set_same, EHuf.get_set_same])
        · rw [EHuf.get_set_other _ _ heq, EHuf.get_set_other _ _ heq]
          exact htab.imp_left fun hmem => (List.mem_cons.1 hmem).resolve_left heq

/-- The checks of START answer the same error, or code tables with the same codes in use. -/
theorem sameConfig.validate_cases (h : sameConfig s s') :
    (∃ x, validate s = .error x ∧ validate s' = .error x) ∨
      ∃ e e', validate s = .ok e ∧ validate s' = .ok e' ∧ ∀ tab ∈ s.huffTabs, e'.get tab = e.get tab := by
  have ⟨hmode, _, hwidth, hheight, _⟩ := h
  rw [validate, validate, hmode, hwidth, hheight]
  split
  · exact .inl ⟨_, rfl, rfl⟩
  split
  · exact .inl ⟨_, rfl, rfl⟩
  rw [h.quantTabs_eq, h.huffTabs_eq, h.checkQuant_eq]
  cases checkQuant s s.quantTabs with
  | error x => exact .inl ⟨x, rfl, rfl⟩
  | ok _ =>
    rcases h.buildTables_cases s.huffTabs s.ehuf s'.ehuf with hx | ⟨e, e', he, he', hget⟩
    · exact .inl hx
    · exact .inr ⟨e, e', he, he', fun tab hmem => hget tab (.inl hmem)⟩

/-! ## Two states in the same encode -/

/-- Two states that agree on an encode, with the codes of `tabs` the same in both, and their output buffers canonical. -/
structure Twins (tabs : List HTab) (s s' : State) : Prop where
  agrees : s.Agrees s'
  codes : ∀ h ∈ tabs, s'.ehuf.get h = s.ehuf.get h
  canonical : Memory.wf .output s.obuf = true
  canonical' : Memory.wf .output s'.obuf = true

/-- The same end of an operation: twins, or the same error. -/
inductive SameEnd (tabs : List HTab) : Except Stop State → Except Stop State → Prop
  | ok {t t' : State} (h : Twins tabs t t') : SameEnd tabs (.ok t) (.ok t')
  | error (x : Stop) : SameEnd tabs (.error x) (.error x)

theorem SameEnd.bind {r r' : Except Stop State} {f f' : State → Except Stop State} (h : SameEnd tabs r r')
    (hf : ∀ t t', r = .ok t → Twins tabs t t' → SameEnd tabs (f t) (f' t')) : SameEnd tabs (r >>= f) (r' >>= f') := by
  cases h with
  | ok h => exact hf _ _ rfl h
  | error x => exact .error x

/-- An operation that ends in the same way from twins. -/
def KeepsTwins (tabs : List HTab) (f : State → Except Stop State) : Prop :=
  ∀ s s' : State, Twins tabs s s' → SameEnd tabs (f s) (f s')

theorem KeepsTwins.bind {f g : State → Except Stop State} (hf : KeepsTwins tabs f) (hg : KeepsTwins tabs g) :
    KeepsTwins tabs fun s => f s >>= g :=
  fun s s' h => (hf s s' h).bind fun t t' _ => hg t t'

/-! ## Changes of state that twins share -/

theorem Twins.write (h : Twins tabs s s') (b : Byte) :
    Twins tabs { s with obuf := Memory.write .output s.obuf s.olen b, olen := s.olen + 1 }
      { s' with obuf := Memory.write .output s'.obuf s'.olen b, olen := s'.olen + 1 } where
  agrees := { h.agrees with
    olen := congrArg (· + 1) h.agrees.olen
    out := fun j hj => by
      show Memory.read .output _ j = Memory.read .output _ j
      rw [h.agrees.olen]
      rcases Nat.lt_succ_iff_lt_or_eq.1 hj with hj | rfl
      · rw [Memory.read_write_other (by omega), Memory.read_write_other (by omega)]
        exact h.agrees.out j hj
      · rw [Memory.read_write_same h.canonical, Memory.read_write_same h.canonical'] }
  codes := h.codes
  canonical := Memory.wf_write h.canonical
  canonical' := Memory.wf_write h.canonical'

theorem Twins.withPacker (h : Twins tabs s s') (acc : Byte) (nbits : BitVec 4) :
    Twins tabs { s with acc := acc, nbits := nbits } { s' with acc := acc, nbits := nbits } :=
  { h with agrees := { h.agrees with packer := ⟨rfl, rfl, h.agrees.packer.2.2⟩ } }

theorem Twins.setFlushed (h : Twins tabs s s') : Twins tabs { s with flushed := true } { s' with flushed := true } :=
  { h with agrees := { h.agrees with packer := ⟨h.agrees.packer.1, h.agrees.packer.2.1, rfl⟩ } }

theorem Twins.enterDone (h : Twins tabs s s') : Twins tabs s.enterDone s'.enterDone :=
  { h with agrees := { h.agrees with st := rfl, codes := nofun } }

theorem Twins.countBlock (h : Twins tabs s s') : Twins tabs s.countBlock s'.countBlock := by
  refine { h with agrees := { h.agrees with blkCount := ?_, bim := ?_ } }
  · rw [State.countBlock_blkCount, State.countBlock_blkCount, h.agrees.blkCount]
  · rw [State.countBlock_bim, State.countBlock_bim, h.agrees.config.1, h.agrees.bim]

theorem Twins.keepScan (h : Twins tabs s s') (z : List Int) : Twins tabs (s.keepScan z) (s'.keepScan z) :=
  { h with agrees := { h.agrees with lastblk := rfl } }

theorem State.Agrees.pred_eq (h : s.Agrees s') (c : Component) : s'.pred c = s.pred c := by
  obtain ⟨hy, hcb, hcr⟩ := h.preds
  cases c with
  | y => exact hy
  | cb => exact hcb
  | cr => exact hcr

theorem Twins.setPred (h : Twins tabs s s') (c : Component) (v : BitVec 16) :
    Twins tabs (s.setPred c v) (s'.setPred c v) := by
  obtain ⟨hy, hcb, hcr⟩ := h.agrees.preds
  cases c with
  | y => exact { h with agrees := { h.agrees with preds := ⟨rfl, hcb, hcr⟩ } }
  | cb => exact { h with agrees := { h.agrees with preds := ⟨hy, rfl, hcr⟩ } }
  | cr => exact { h with agrees := { h.agrees with preds := ⟨hy, hcb, rfl⟩ } }

theorem Twins.storeSamples (h : Twins tabs s s') (w : Word) : Twins tabs (s.storeSamples w) (s'.storeSamples w) := by
  refine { h with agrees := { h.agrees with sfill := ?_, samples := fun m hm => ?_ } }
  · rw [State.storeSamples_sfill, State.storeSamples_sfill, h.agrees.sfill]
  · rw [s.storeSamples_ibuf_getElem w m, s'.storeSamples_ibuf_getElem w m, h.agrees.sfill]
    rw [State.storeSamples_sfill, BitVec.toNat_add] at hm
    have hone : (1#4).toNat = 1 := rfl
    split
    · rfl
    · exact h.agrees.samples m (by omega)

/-! ## The operations of an encode -/

theorem emitByte_twins (b : Byte) : KeepsTwins tabs (emitByte b) := by
  intro s s' h
  by_cases hfull : s.olen = Config.obufBytes
  · rw [emitByte_full hfull, emitByte_full (h.agrees.olen.trans hfull), h.agrees.blkCount]
    exact .error _
  · rw [emitByte_room hfull, emitByte_room (h.agrees.olen ▸ hfull)]
    exact .ok (h.write b)

theorem emitBytes_twins (bs : List Byte) : KeepsTwins tabs (emitBytes bs) := by
  induction bs with
  | nil => exact fun _ _ => .ok
  | cons b bs ih => exact (emitByte_twins b).bind ih

theorem appendBit_twins (bit : Bool) : KeepsTwins tabs (appendBit bit) := by
  intro s s' h
  obtain ⟨hacc, hnbits, -⟩ := h.agrees.packer
  simp only [appendBit, hacc, hnbits, emitEntropyByte_eq]
  split
  · exact emitBytes_twins _ _ _ (h.withPacker _ _)
  · exact .ok (h.withPacker _ _)

theorem appendBits_twins (v : BitVec 16) (n : Nat) : KeepsTwins tabs (appendBits v n) := by
  induction n with
  | zero => exact fun _ _ => .ok
  | succ n ih => exact (appendBit_twins _).bind ih

theorem writeBits_twins (v : BitVec 16) (n : Nat) : KeepsTwins tabs (writeBits v n) := by
  intro s s' h
  obtain ⟨-, -, hflushed⟩ := h.agrees.packer
  rw [writeBits, writeBits, hflushed]
  split
  · exact .error _
  · exact appendBits_twins v n s s' h

theorem flush_twins : KeepsTwins tabs flush := by
  intro s s' h
  obtain ⟨hacc, hnbits, hflushed⟩ := h.agrees.packer
  by_cases hf : s.flushed = true
  · rw [flush, flush, if_pos hf, if_pos (hflushed.trans hf)]
    exact .error _
  have hf' : ¬ s'.flushed = true := by rwa [hflushed]
  by_cases h0 : s.nbits = 0#4
  · rw [flush, flush, if_neg hf, if_neg hf', if_pos h0, if_pos (hnbits.trans h0)]
    exact .ok h.setFlushed
  · have h0' : ¬ s'.nbits = 0#4 := by rwa [hnbits]
    rw [flush, flush, if_neg hf, if_neg hf', if_neg h0, if_neg h0', hacc, hnbits]
    simp only [emitEntropyByte_eq]
    exact (emitBytes_twins _ _ _ (h.withPacker _ _)).bind fun t t' _ ht => .ok ht.setFlushed

theorem rawflushBody_twins : KeepsTwins tabs rawflushBody := flush_twins.bind fun _ _ h => .ok h.enterDone

theorem terminate_twins : KeepsTwins tabs terminate :=
  flush_twins.bind ((emitBytes_twins eoiBytes).bind fun _ _ h => .ok h.enterDone)

theorem emitCode_twins {tab : HTab} (htab : tab ∈ tabs) (sym : Byte) : KeepsTwins tabs (emitCode tab sym) := by
  intro s s' h
  have hcode : codeFor s'.ehuf tab sym = codeFor s.ehuf tab sym := by rw [codeFor, codeFor, h.codes tab htab]
  rw [emitCode, emitCode, hcode, h.agrees.blkCount]
  cases codeFor s.ehuf tab sym with
  | none => exact .error _
  | some x => exact writeBits_twins x.code x.len s s' h

theorem emitCoded_twins {tab : HTab} (htab : tab ∈ tabs) (sym : Byte) (v : Int) :
    KeepsTwins tabs (emitCoded tab sym v) := by
  refine (emitCode_twins htab sym).bind fun s s' h => ?_
  split
  · exact .ok h
  · exact writeBits_twins _ _ s s' h

theorem acEncode_twins {tab : HTab} (htab : tab ∈ tabs) (syms : List RleSym) : KeepsTwins tabs (acEncode tab syms) := by
  induction syms with
  | nil => exact fun _ _ => .ok
  | cons x syms ih =>
    refine KeepsTwins.bind (fun s s' h => ?_) ih
    rw [emitSym_eq, emitSym_eq]
    exact emitCoded_twins htab _ _ s s' h

/-! ## A block (45_framer.md R189, R190) -/

theorem State.Agrees.comp_eq (h : s.Agrees s') : s'.comp = s.comp := by
  rw [State.comp, State.comp, h.config.1, h.bim]

/-- The code tables of a block's component are in use. -/
theorem State.compTabs_mem (s : State) : dcTabOf s.comp ∈ s.huffTabs ∧ acTabOf s.comp ∈ s.huffTabs := by
  rw [State.huffTabs_eq, State.comp]
  by_cases hmode : s.cfgMode = 1#2
  · rw [if_pos hmode]
    cases compOf s.cfgMode s.bim <;> decide
  · rw [if_neg hmode, compOf_of_ne_color hmode]
    decide

theorem codeBlock_twins (h : Twins s.huffTabs s s') (z : List Int) :
    SameEnd s.huffTabs (codeBlock z s) (codeBlock z s') := by
  obtain ⟨hdc, hac⟩ := s.compTabs_mem
  rw [codeBlock, codeBlock, dcEncode, dcEncode, h.agrees.comp_eq, h.agrees.pred_eq]
  exact (emitCoded_twins hdc _ _ _ _ (h.setPred _ _)).bind fun t t' _ ht => acEncode_twins hac _ t t' ht

theorem State.Agrees.scanned_eq (h : s.Agrees s') (hibuf : s'.ibuf = s.ibuf) : s'.scanned = s.scanned := by
  rw [State.scanned, State.scanned, h.comp_eq, State.shifted, State.shifted, hibuf, h.config.frame]
  rfl

theorem processBlock_twins (h : Twins s.huffTabs s s') (hibuf : s'.ibuf = s.ibuf) :
    SameEnd s.huffTabs (processBlock s) (processBlock s') := by
  rw [processBlock, processBlock, h.agrees.comp_eq, h.agrees.config.firstZero_eq, h.agrees.scanned_eq hibuf]
  split
  · exact .error _
  refine (codeBlock_twins (s := s.keepScan _) (h.keepScan _) _).bind fun t t' _ ht => ?_
  rw [ht.countBlock.agrees.blkCount, ht.countBlock.agrees.blkTotal]
  split
  · exact terminate_twins _ _ ht.countBlock
  · exact .ok ht.countBlock

/-- The sixteenth word completes the samples of the block. -/
theorem State.Agrees.storeSamples_ibuf_eq (h : s.Agrees s') (h15 : s.sfill = 15#4) (w : Word) :
    (s'.storeSamples w).ibuf = (s.storeSamples w).ibuf := by
  refine Vector.ext fun m hm => ?_
  have hnum : s.sfill.toNat = 15 := by rw [h15]; rfl
  have hget := s.storeSamples_ibuf_getElem w ⟨m, hm⟩
  have hget' := s'.storeSamples_ibuf_getElem w ⟨m, hm⟩
  rw [Fin.getElem_fin] at hget hget'
  rw [hget, hget', h.sfill, hnum]
  split
  · rfl
  · exact h.samples ⟨m, hm⟩ (by simp only at *; omega)

theorem sampleBody_twins (h : Twins s.huffTabs s s') (w : Word) :
    SameEnd s.huffTabs (sampleBody w s) (sampleBody w s') := by
  rw [sampleBody, sampleBody, h.agrees.sfill]
  split
  · rename_i h15
    exact processBlock_twins (s := s.storeSamples w) (h.storeSamples w) (h.agrees.storeSamples_ibuf_eq h15 w)
  · exact .ok (h.storeSamples w)

/-! ## ABORT and START (46_commands.md R225, 45_framer.md R186, R187, R194) -/

/-- Two states with nothing left of an encode agree where their configuration and their STATE do. -/
theorem State.Agrees.of_cleared (hconfig : sameConfig s s') (hst : s'.st = s.st) (hcode : s'.errCode = s.errCode)
    (hinfo : s'.errInfo = s.errInfo) (htotal : s'.blkTotal = s.blkTotal) (hclear : s.clearDatapath = s)
    (hclear' : s'.clearDatapath = s') (hscan : s.st ≠ .scan) : s.Agrees s' := by
  rw [← hclear, ← hclear']
  exact ⟨hconfig, hst, hcode, hinfo, rfl, fun j hj => absurd hj (Nat.not_lt_zero j), htotal, rfl, rfl, rfl,
    ⟨rfl, rfl, rfl⟩, rfl, fun _ hm => absurd hm (Nat.not_lt_zero _), ⟨rfl, rfl, rfl⟩, fun hs => absurd hs hscan⟩

theorem sameConfig.abortEncode (h : sameConfig s s') : s.abortEncode.Agrees s'.abortEncode :=
  .of_cleared h rfl rfl rfl rfl rfl rfl nofun

theorem State.Agrees.startRaw (h : s.Agrees s') : s.startRaw.Agrees s'.startRaw :=
  .of_cleared h.config rfl h.errCode h.errInfo rfl rfl rfl nofun

theorem State.Agrees.initScan (h : s.Agrees s') (hs : s.st = .idle) (e e' : EHuf) :
    ({ s.initScan with ehuf := e } : State).Agrees { s'.initScan with ehuf := e' } :=
  .of_cleared h.config h.st h.errCode h.errInfo (congrArg (BitVec.ofNat 32) h.config.blocksOf_eq) rfl rfl
    fun hscan => nomatch hs.symm.trans hscan

/-- START with TEST = 0: the checks, then the header. -/
theorem startScan_twins (h : Twins [] s s') (hs : s.st = .idle) : SameEnd s.huffTabs (startScan s) (startScan s') := by
  rw [startScan, startScan, h.agrees.config.headerBytes_eq]
  rcases h.agrees.config.validate_cases with ⟨x, hv, hv'⟩ | ⟨e, e', hv, hv', hcodes⟩
  · rw [hv, hv']
    exact .error x
  rw [hv, hv']
  have hinit : Twins s.huffTabs { s.initScan with ehuf := e } { s'.initScan with ehuf := e' } :=
    ⟨h.agrees.initScan hs e e', hcodes, h.canonical, h.canonical'⟩
  refine SameEnd.bind (emitBytes_twins _ _ _ hinit) fun t t' ht htwins => .ok ?_
  have htabs : t.huffTabs = s.huffTabs := by rw [emitBytes_frame ht]; rfl
  exact { htwins with agrees := { htwins.agrees with st := rfl, codes := fun _ => htabs ▸ htwins.codes } }

theorem startBody_twins (h : Twins [] s s') (hs : s.st = .idle) : ∃ tabs, SameEnd tabs (startBody s) (startBody s') := by
  obtain ⟨-, htest, -⟩ := h.agrees.config
  rw [startBody, startBody, htest]
  split
  · exact ⟨[], .ok ⟨h.agrees.startRaw, nofun, h.canonical, h.canonical'⟩⟩
  · exact ⟨s.huffTabs, startScan_twins h hs⟩

/-! ## Accesses -/

/-- No difference that an access can show: the same encode, or ERROR with the same error. -/
def State.Alike (t t' : State) : Prop :=
  t'.st = t.st ∧ t'.errCode = t.errCode ∧ t'.errInfo = t.errInfo ∧ t'.olen = t.olen ∧ (t.st ≠ .error → t.Agrees t')

theorem State.Agrees.alike {t t' : State} (h : t.Agrees t') : t.Alike t' :=
  ⟨h.st, h.errCode, h.errInfo, h.olen, fun _ => h⟩

theorem errorEntry_alike (e : ErrorCode) (info : Word) (s s' : State) :
    (errorEntry e info s).Alike (errorEntry e info s') :=
  ⟨rfl, rfl, rfl, rfl, fun hne => absurd rfl hne⟩

/-- How an access ends that ran to the same end in both (log 11). -/
theorem SameEnd.finish {r r' : Except Stop State} {t : State} (h : SameEnd tabs r r') (ht : finish s r = .next t) :
    ∃ t', finish s' r' = .next t' ∧ t.Alike t' := by
  cases h with
  | ok h =>
    cases ht
    exact ⟨_, rfl, h.agrees.alike⟩
  | error x =>
    cases x with
    | raised e info =>
      cases ht
      exact ⟨_, rfl, errorEntry_alike e info s s'⟩
    | fault | refused => exact nomatch ht

/-- A command whose body ends in the same way, or that is a STATE_VIOLATION in both (46_commands.md R229). -/
theorem State.Agrees.command_alike {legal : FramerState → Bool} {opc : Byte} {body : State → Except Stop State} {t : State}
    (h : s.Agrees s') (hne : s.st ≠ .error) (hbody : legal s.st = true → ∃ tabs, SameEnd tabs (body s) (body s'))
    (ht : command legal opc body s = .next t) : ∃ t', command legal opc body s' = .next t' ∧ t.Alike t' := by
  by_cases hl : legal s.st = true
  · obtain ⟨tabs, hend⟩ := hbody hl
    rw [command_legal hl] at ht
    rw [command_legal (h.st.symm ▸ hl)]
    exact hend.finish ht
  · have hl : legal s.st = false := by simpa using hl
    rw [command_violation hl hne] at ht
    cases ht
    rw [command_violation (h.st.symm ▸ hl) (h.st.symm ▸ hne), h.st]
    exact ⟨_, rfl, errorEntry_alike _ _ s s'⟩

/-- The accesses that go on with an encode. -/
def DataAccess (i : Instr) : Prop := (∃ w, i = .sampleWrite w) ∨ (∃ len v, i = .rawbits len v) ∨ i = .rawflush

theorem State.Agrees.exec_data {i : Instr} {t : State} (h : s.Agrees s') (hne : s.st ≠ .error)
    (hw : Memory.wf .output s.obuf = true) (hw' : Memory.wf .output s'.obuf = true)
    (hi : DataAccess i) (ht : exec i s = .next t) : ∃ t', exec i s' = .next t' ∧ t.Alike t' := by
  have htwins : Twins [] s s' := ⟨h, nofun, hw, hw'⟩
  rcases hi with ⟨w, rfl⟩ | ⟨len, v, rfl⟩ | rfl
  · refine h.command_alike (legal := fun st => st == .scan) (opc := 0xFF#8) (body := sampleBody w) hne (fun hl => ?_) ht
    exact ⟨_, sampleBody_twins ⟨h, h.codes (by simpa using hl), hw, hw'⟩ w⟩
  · by_cases hlen : len.toNat ≤ 16
    · have harm : ∀ u, exec (.rawbits len v) u = command legalRaw 0x10#8 (writeBits v len.toNat) u :=
        execRawbits_of_le hlen v
      rw [harm] at ht ⊢
      exact h.command_alike hne (fun _ => ⟨_, writeBits_twins v _ _ _ htwins⟩) ht
    · have harm : ∀ u, exec (.rawbits len v) u = .next (illegalCommand (rawbitsWord len v) u) :=
        fun u => if_pos (Nat.lt_of_not_le hlen)
      rw [harm, illegalCommand, if_neg hne] at ht
      cases ht
      rw [harm, illegalCommand, if_neg (h.st.symm ▸ hne)]
      exact ⟨_, rfl, errorEntry_alike _ _ s s'⟩
  · exact h.command_alike (legal := legalRaw) (opc := 0x11#8) (body := rawflushBody) hne
      (fun _ => ⟨_, rawflushBody_twins _ _ htwins⟩) ht

/-- The invariant keeps the data accesses of an encode from stopping the machine. -/
theorem State.Inv.exec_data_next (h : s.Inv) {i : Instr} (hi : DataAccess i) : ∃ t, exec i s = .next t := by
  rcases hi with ⟨w, rfl⟩ | ⟨len, v, rfl⟩ | rfl
  · exact h.exec_next rfl
  · exact (execRawbits_ends len v fun hs => h.packerReady (.inr hs)).exists_next
  · exact h.exec_next rfl

/-- Settles O60: ABORT leaves two states that agree, START and every data access take two such states to two that agree, or
to the same error. -/
theorem encodesAreIndependent : Obligations.EncodesAreIndependent := by
  refine ⟨fun s s' hinv hinv' hconfig => ?_, fun s s' i hinv hinv' h hne hi => ?_⟩
  · have htwins : Twins [] s.abortEncode s'.abortEncode :=
      ⟨hconfig.abortEncode, nofun, hinv.outputCanonical, hinv'.outputCanonical⟩
    obtain ⟨t, ht⟩ := hinv.abortEncode.exec_next (i := .start) rfl
    obtain ⟨tabs, hend⟩ := startBody_twins htwins rfl
    obtain ⟨t', ht', halike⟩ := hend.finish (s' := s'.abortEncode) ((exec_start_of_idle rfl).symm.trans ht)
    exact ⟨_, _, t, t', exec_abort s, exec_abort s', ht, (exec_start_of_idle rfl).trans ht', halike⟩
  · obtain ⟨t, ht⟩ := hinv.exec_data_next hi
    obtain ⟨t', ht', halike⟩ := h.exec_data hne hinv.outputCanonical hinv'.outputCanonical hi ht
    exact ⟨t, t', ht, ht', halike⟩

end Sys2Proof.Machine
